-- ==== Sys2Proof/Word.lean ====
section
/-! DEFINITION. The word types of the block (spec 00_scope.md R8): 16-bit register entries, 32-bit system
addresses, bytes of the system space. -/

namespace Sys2Proof

/-- `u16`: one entry of the Register File (R21). -/
abbrev Half := BitVec 16

/-- `u32`: a byte address of the system space (R60), and a DMA cursor (R37). -/
abbrev Addr := BitVec 32

/-- One byte of the system space. -/
abbrev Byte := BitVec 8

/-- A register offset, 10 bits; bit 0 is ignored by the port (R64). -/
abbrev Offset := BitVec 10

end Sys2Proof
end

