-- ==== Sys2Proof/Syntax.lean ====
section
/-! DEFINITION. The 58 operations of the block (R5, R90 to R92): one constructor per row of opcode_table.json. -/

namespace Sys2Proof

/-- The registers a port write can select (R22): the CORE set, and every other offset. -/
inductive Reg where
  | dispstat
  | vcount
  | sadL (c : Fin 4)
  | sadH (c : Fin 4)
  | dadL (c : Fin 4)
  | dadH (c : Fin 4)
  | cntL (c : Fin 4)
  | cntH (c : Fin 4)
  | tmL (i : Fin 4)
  | tmH (i : Fin 4)
  | ie
  | if_
  | waitcnt
  | ime
  | other
  deriving DecidableEq, Repr

/-- The operations. `w…` are the `W16` port writes, `r…` the `R16` port reads, then the nine events and the
five host operations. Operands of `LOAD` that are whole savestates stand in the state (log entry 9). -/
inductive Instr where
  | wDispstat (v : Half)
  | wVcount (v : Half)
  | wDma0SadL (v : Half)
  | wDma0SadH (v : Half)
  | wDma0DadL (v : Half)
  | wDma0DadH (v : Half)
  | wDma0CntL (v : Half)
  | wDma0CntH (v : Half)
  | wDma1SadL (v : Half)
  | wDma1SadH (v : Half)
  | wDma1DadL (v : Half)
  | wDma1DadH (v : Half)
  | wDma1CntL (v : Half)
  | wDma1CntH (v : Half)
  | wDma2SadL (v : Half)
  | wDma2SadH (v : Half)
  | wDma2DadL (v : Half)
  | wDma2DadH (v : Half)
  | wDma2CntL (v : Half)
  | wDma2CntH (v : Half)
  | wDma3SadL (v : Half)
  | wDma3SadH (v : Half)
  | wDma3DadL (v : Half)
  | wDma3DadH (v : Half)
  | wDma3CntL (v : Half)
  | wDma3CntH (v : Half)
  | wTm0CntL (v : Half)
  | wTm0CntH (v : Half)
  | wTm1CntL (v : Half)
  | wTm1CntH (v : Half)
  | wTm2CntL (v : Half)
  | wTm2CntH (v : Half)
  | wTm3CntL (v : Half)
  | wTm3CntH (v : Half)
  | wIe (v : Half)
  | wIf (v : Half)
  | wWaitcnt (v : Half)
  | wIme (v : Half)
  | wOther (a : Offset) (v : Half)
  | rTm0CntL
  | rTm1CntL
  | rTm2CntL
  | rTm3CntL
  | rStored (a : Offset)
  | evHblankStart
  | evLineEnd
  | evVblankLineEnd
  | evDmaTrigger (reason : BitVec 2) (mask : BitVec 4)
  | evDmaComplete
  | evTimerStep
  | evIrqCheck
  | evTimerApply (i : Fin 4)
  | evInsnFetch
  | reset
  | run (budget : Nat)
  | extIrq (b : BitVec 4)
  | save
  | load
  deriving DecidableEq, Repr

end Sys2Proof
end

