-- ==== Sys2Proof/WellFormed.lean ====
section
/-! DEFINITION. What the spec asks of an operation's operands. Widths are in the types of Syntax.lean; three checks
remain. -/

namespace Sys2Proof

/-- The 38 offsets of the CORE register set (R22), as the spec's table lists them. -/
def coreOffsets : List Nat :=
  [0x004, 0x006,
   0x0B0, 0x0B2, 0x0B4, 0x0B6, 0x0B8, 0x0BA, 0x0BC, 0x0BE, 0x0C0, 0x0C2, 0x0C4, 0x0C6,
   0x0C8, 0x0CA, 0x0CC, 0x0CE, 0x0D0, 0x0D2, 0x0D4, 0x0D6, 0x0D8, 0x0DA, 0x0DC, 0x0DE,
   0x100, 0x102, 0x104, 0x106, 0x108, 0x10A, 0x10C, 0x10E,
   0x200, 0x202, 0x204, 0x208]

/-- The four offsets whose read is the visible count of a timer (R91). -/
def countOffsets : List Nat := [0x100, 0x104, 0x108, 0x10C]

/-- The operand of `W.OTHER`: an even offset outside the CORE set (R235). -/
def otherOffset (a : Offset) : Bool := a.toNat % 2 == 0 && !coreOffsets.contains a.toNat

/-- The operand of `R.STORED`: an even offset other than the four of the timer counts (R236). -/
def storedOffset (a : Offset) : Bool := a.toNat % 2 == 0 && !countOffsets.contains a.toNat

/-- The operand checks: R235, R236, and `EXT_IRQ`'s source number, 0 to 13 (R157). -/
def Instr.wellFormed : Instr → Bool
  | .wOther a _ => otherOffset a
  | .rStored a => storedOffset a
  | .extIrq b => decide (b.toNat ≤ 13)
  | .wDispstat _ | .wVcount _ => true
  | .wDma0SadL _ | .wDma0SadH _ | .wDma0DadL _ | .wDma0DadH _ | .wDma0CntL _ | .wDma0CntH _ => true
  | .wDma1SadL _ | .wDma1SadH _ | .wDma1DadL _ | .wDma1DadH _ | .wDma1CntL _ | .wDma1CntH _ => true
  | .wDma2SadL _ | .wDma2SadH _ | .wDma2DadL _ | .wDma2DadH _ | .wDma2CntL _ | .wDma2CntH _ => true
  | .wDma3SadL _ | .wDma3SadH _ | .wDma3DadL _ | .wDma3DadH _ | .wDma3CntL _ | .wDma3CntH _ => true
  | .wTm0CntL _ | .wTm0CntH _ | .wTm1CntL _ | .wTm1CntH _ => true
  | .wTm2CntL _ | .wTm2CntH _ | .wTm3CntL _ | .wTm3CntH _ => true
  | .wIe _ | .wIf _ | .wWaitcnt _ | .wIme _ => true
  | .rTm0CntL | .rTm1CntL | .rTm2CntL | .rTm3CntL => true
  | .evHblankStart | .evLineEnd | .evVblankLineEnd | .evDmaTrigger _ _ | .evDmaComplete => true
  | .evTimerStep | .evIrqCheck | .evTimerApply _ | .evInsnFetch => true
  | .reset | .run _ | .save | .load => true

end Sys2Proof
end

