-- ==== Sys2Proof/Decode.lean ====
section
/-! DEFINITION. Command words: the decoder, total on every number and on every list of bytes, and the encoder.

A port command is the 27-bit word of R90, `dir ++ a[9:0] ++ v[15:0]`. The spec gives events and host calls
identifiers but no word (R92, D36); the model's own word for them puts a format tag in bits 28:27 (0 port, 1 event,
2 host) above R90's 27 bits, the identifier in the low bits and the operands beside it (log entry 6):
event: id 3:0; `EV.DMA_TRIGGER` reason 5:4, mask 9:6; `EV.TIMER_APPLY` timer 5:4.
host: id 2:0; `EXT_IRQ` source 6:3; `RUN` budget from bit 29 up, a natural of any size.
Every bit not named is 0. -/

namespace Sys2Proof

/-! ## Offsets (R22, R91) -/

/-- `DMA_BASE(c)` (R22). -/
def dmaBase (c : Fin 4) : Nat := 0x0B0 + 12 * c.val

/-- The offset of TMiCNT_L; TMiCNT_H is 2 above it (R22). -/
def tmBase (i : Fin 4) : Nat := 0x100 + 4 * i.val

/-- The offset of a register of the CORE set (R22); `other` has no offset of its own. -/
def Reg.offset : Reg → Nat
  | .dispstat => 0x004
  | .vcount   => 0x006
  | .sadL c   => dmaBase c
  | .sadH c   => dmaBase c + 2
  | .dadL c   => dmaBase c + 4
  | .dadH c   => dmaBase c + 6
  | .cntL c   => dmaBase c + 8
  | .cntH c   => dmaBase c + 10
  | .tmL i    => tmBase i
  | .tmH i    => tmBase i + 2
  | .ie       => 0x200
  | .if_      => 0x202
  | .waitcnt  => 0x204
  | .ime      => 0x208
  | .other    => 0

/-- R91: the register that an offset selects; bit 0 of the offset is ignored (R64). -/
def Reg.ofOffset (a : Offset) : Reg :=
  match a.toNat / 2 * 2 with
  | 0x004 => .dispstat
  | 0x006 => .vcount
  | 0x0B0 => .sadL 0
  | 0x0B2 => .sadH 0
  | 0x0B4 => .dadL 0
  | 0x0B6 => .dadH 0
  | 0x0B8 => .cntL 0
  | 0x0BA => .cntH 0
  | 0x0BC => .sadL 1
  | 0x0BE => .sadH 1
  | 0x0C0 => .dadL 1
  | 0x0C2 => .dadH 1
  | 0x0C4 => .cntL 1
  | 0x0C6 => .cntH 1
  | 0x0C8 => .sadL 2
  | 0x0CA => .sadH 2
  | 0x0CC => .dadL 2
  | 0x0CE => .dadH 2
  | 0x0D0 => .cntL 2
  | 0x0D2 => .cntH 2
  | 0x0D4 => .sadL 3
  | 0x0D6 => .sadH 3
  | 0x0D8 => .dadL 3
  | 0x0DA => .dadH 3
  | 0x0DC => .cntL 3
  | 0x0DE => .cntH 3
  | 0x100 => .tmL 0
  | 0x102 => .tmH 0
  | 0x104 => .tmL 1
  | 0x106 => .tmH 1
  | 0x108 => .tmL 2
  | 0x10A => .tmH 2
  | 0x10C => .tmL 3
  | 0x10E => .tmH 3
  | 0x200 => .ie
  | 0x202 => .if_
  | 0x204 => .waitcnt
  | 0x208 => .ime
  | _     => .other

/-- The offset with bit 0 dropped (R64): `a & 0x3FE`. -/
def evenOffset (a : Offset) : Offset := a &&& 0x3FE

/-- One of four, by channel or timer number. -/
def pick {α : Type} (c : Fin 4) (x0 x1 x2 x3 : α) : α :=
  match c with
  | 0 => x0
  | 1 => x1
  | 2 => x2
  | 3 => x3

/-- R91, `W16`: the write operation an offset selects. -/
def selectWrite (a : Offset) (v : Half) : Instr :=
  match Reg.ofOffset a with
  | .dispstat => .wDispstat v
  | .vcount   => .wVcount v
  | .sadL c   => pick c (.wDma0SadL v) (.wDma1SadL v) (.wDma2SadL v) (.wDma3SadL v)
  | .sadH c   => pick c (.wDma0SadH v) (.wDma1SadH v) (.wDma2SadH v) (.wDma3SadH v)
  | .dadL c   => pick c (.wDma0DadL v) (.wDma1DadL v) (.wDma2DadL v) (.wDma3DadL v)
  | .dadH c   => pick c (.wDma0DadH v) (.wDma1DadH v) (.wDma2DadH v) (.wDma3DadH v)
  | .cntL c   => pick c (.wDma0CntL v) (.wDma1CntL v) (.wDma2CntL v) (.wDma3CntL v)
  | .cntH c   => pick c (.wDma0CntH v) (.wDma1CntH v) (.wDma2CntH v) (.wDma3CntH v)
  | .tmL i    => pick i (.wTm0CntL v) (.wTm1CntL v) (.wTm2CntL v) (.wTm3CntL v)
  | .tmH i    => pick i (.wTm0CntH v) (.wTm1CntH v) (.wTm2CntH v) (.wTm3CntH v)
  | .ie       => .wIe v
  | .if_      => .wIf v
  | .waitcnt  => .wWaitcnt v
  | .ime      => .wIme v
  | .other    => .wOther (evenOffset a) v

/-- R91, `R16`: the read operation an offset selects. -/
def selectRead (a : Offset) : Instr :=
  match a.toNat / 2 * 2 with
  | 0x100 => .rTm0CntL
  | 0x104 => .rTm1CntL
  | 0x108 => .rTm2CntL
  | 0x10C => .rTm3CntL
  | _     => .rStored (evenOffset a)

/-! ## The decoder -/

/-- Why a command word is no operation. -/
inductive Reject where
  /-- Format tag 3. -/
  | unknownFormat
  /-- A bit that the format leaves at 0 is 1. -/
  | strayBits
  /-- A read whose value field is not 0 (R90). -/
  | readWithValue
  /-- An event identifier other than 1 to 9. -/
  | unknownEvent
  /-- A host identifier other than 1 to 5. -/
  | unknownHostCall
  deriving DecidableEq, Repr

/-- A port command, `dir ++ a[9:0] ++ v[15:0]` (R90), as a number below 2^27. -/
def decodePort (w : Nat) : Except Reject Instr :=
  let a : Offset := BitVec.ofNat 10 (w / 2 ^ 16)
  let v : Half := BitVec.ofNat 16 w
  if w / 2 ^ 26 = 1 then .ok (selectWrite a v)
  else if v = 0 then .ok (selectRead a)
  else .error .readWithValue

/-- An operation without operands: nothing may stand above its identifier. -/
def plainOp (operands : Nat) (i : Instr) : Except Reject Instr :=
  if operands = 0 then .ok i else .error .strayBits

/-- An event command (R92), the tag taken off. -/
def decodeEvent (w : Nat) : Except Reject Instr :=
  let x := w / 16
  match w % 16 with
  | 1 => plainOp x .evHblankStart
  | 2 => plainOp x .evLineEnd
  | 3 => plainOp x .evVblankLineEnd
  | 4 =>
    if x < 64 then .ok (.evDmaTrigger (BitVec.ofNat 2 x) (BitVec.ofNat 4 (x / 4))) else .error .strayBits
  | 5 => plainOp x .evDmaComplete
  | 6 => plainOp x .evTimerStep
  | 7 => plainOp x .evIrqCheck
  | 8 => if h : x < 4 then .ok (.evTimerApply ⟨x, h⟩) else .error .strayBits
  | 9 => plainOp x .evInsnFetch
  | _ => .error .unknownEvent

/-- A host command (R92), the tag taken off: `low` is bits 26:0, `high` the number above bit 28. -/
def decodeHost (low high : Nat) : Except Reject Instr :=
  let x := low / 8
  match low % 8 with
  | 1 => plainOp (x + high) .reset
  | 2 => plainOp x (.run high)
  | 3 => if high = 0 ∧ x < 16 then .ok (.extIrq (BitVec.ofNat 4 x)) else .error .strayBits
  | 4 => plainOp (x + high) .save
  | 5 => plainOp (x + high) .load
  | _ => .error .unknownHostCall

/-- The decoder: total on every number, rejecting by name. -/
def decode (w : Nat) : Except Reject Instr :=
  let low := w % 2 ^ 27
  let high := w / 2 ^ 29
  match w / 2 ^ 27 % 4 with
  | 0 => if high = 0 then decodePort low else .error .strayBits
  | 1 => if high = 0 then decodeEvent low else .error .strayBits
  | 2 => decodeHost low high
  | _ => .error .unknownFormat

/-- The number a list of bytes stands for. DESIGN CHOICE (log entry 24): R90's word has no form as bytes, and R62's byte
order is not about it; the model takes the first byte as the least significant. -/
def leNat : List Byte → Nat
  | [] => 0
  | b :: bs => b.toNat + 256 * leNat bs

/-- The decoder on bytes, total on every list (log entry 24). -/
def decodeBytes (bs : List Byte) : Except Reject Instr := decode (leNat bs)

/-! ## The encoder -/

/-- `W16 a, v` as a command word (R90). -/
def writeWord (a : Nat) (v : Half) : Nat := 2 ^ 26 + a * 2 ^ 16 + v.toNat

/-- `R16 a` as a command word (R90). -/
def readWord (a : Nat) : Nat := a * 2 ^ 16

/-- An event's command word. -/
def eventWord (id operands : Nat) : Nat := 2 ^ 27 + operands * 16 + id

/-- A host call's command word. -/
def hostWord (id operands budget : Nat) : Nat := budget * 2 ^ 29 + 2 ^ 28 + operands * 8 + id

/-- The command word of an operation. -/
def encode : Instr → Nat
  | .wDispstat v => writeWord 0x004 v
  | .wVcount v   => writeWord 0x006 v
  | .wDma0SadL v => writeWord 0x0B0 v
  | .wDma0SadH v => writeWord 0x0B2 v
  | .wDma0DadL v => writeWord 0x0B4 v
  | .wDma0DadH v => writeWord 0x0B6 v
  | .wDma0CntL v => writeWord 0x0B8 v
  | .wDma0CntH v => writeWord 0x0BA v
  | .wDma1SadL v => writeWord 0x0BC v
  | .wDma1SadH v => writeWord 0x0BE v
  | .wDma1DadL v => writeWord 0x0C0 v
  | .wDma1DadH v => writeWord 0x0C2 v
  | .wDma1CntL v => writeWord 0x0C4 v
  | .wDma1CntH v => writeWord 0x0C6 v
  | .wDma2SadL v => writeWord 0x0C8 v
  | .wDma2SadH v => writeWord 0x0CA v
  | .wDma2DadL v => writeWord 0x0CC v
  | .wDma2DadH v => writeWord 0x0CE v
  | .wDma2CntL v => writeWord 0x0D0 v
  | .wDma2CntH v => writeWord 0x0D2 v
  | .wDma3SadL v => writeWord 0x0D4 v
  | .wDma3SadH v => writeWord 0x0D6 v
  | .wDma3DadL v => writeWord 0x0D8 v
  | .wDma3DadH v => writeWord 0x0DA v
  | .wDma3CntL v => writeWord 0x0DC v
  | .wDma3CntH v => writeWord 0x0DE v
  | .wTm0CntL v  => writeWord 0x100 v
  | .wTm0CntH v  => writeWord 0x102 v
  | .wTm1CntL v  => writeWord 0x104 v
  | .wTm1CntH v  => writeWord 0x106 v
  | .wTm2CntL v  => writeWord 0x108 v
  | .wTm2CntH v  => writeWord 0x10A v
  | .wTm3CntL v  => writeWord 0x10C v
  | .wTm3CntH v  => writeWord 0x10E v
  | .wIe v       => writeWord 0x200 v
  | .wIf v       => writeWord 0x202 v
  | .wWaitcnt v  => writeWord 0x204 v
  | .wIme v      => writeWord 0x208 v
  | .wOther a v  => writeWord a.toNat v
  | .rTm0CntL    => readWord 0x100
  | .rTm1CntL    => readWord 0x104
  | .rTm2CntL    => readWord 0x108
  | .rTm3CntL    => readWord 0x10C
  | .rStored a   => readWord a.toNat
  | .evHblankStart => eventWord 1 0
  | .evLineEnd => eventWord 2 0
  | .evVblankLineEnd => eventWord 3 0
  | .evDmaTrigger reason mask => eventWord 4 (mask.toNat * 4 + reason.toNat)
  | .evDmaComplete => eventWord 5 0
  | .evTimerStep => eventWord 6 0
  | .evIrqCheck => eventWord 7 0
  | .evTimerApply i => eventWord 8 i.val
  | .evInsnFetch => eventWord 9 0
  | .reset => hostWord 1 0 0
  | .run budget => hostWord 2 0 budget
  | .extIrq b => hostWord 3 b.toNat 0
  | .save => hostWord 4 0 0
  | .load => hostWord 5 0 0

/-! ## The numbering of spec/opcode_table.json -/

/-- The command word that stands for a row's bits as opcode_table.json numbers them (log entry 7). The reader's
`fixed` bits of a port row number the OFFSET, not the 27-bit word: a word of at most 16 bits is the offset of a
write; a longer one is R90's command word, save that a read with anything in its value field (which R90 leaves 0)
is the reader's numbering of an `R.TMiCNT_L` row, the offset in the low bits. Rows of at most a byte are
identifiers: of events, or of host calls where only three bits are given. -/
def tableWord (nbits w : Nat) : Nat :=
  if nbits < 4 then hostWord (w % 8) (w / 8) 0
  else if nbits ≤ 8 then eventWord (w % 16) (w / 16)
  else if nbits ≤ 16 then writeWord (w % 1024) 0
  else if w < 2 ^ 26 ∧ w % 2 ^ 16 ≠ 0 then readWord (w % 1024)
  else w

/-- The operation the decoder reads from a row's bits. -/
def decodeTableWord (nbits w : Nat) : Option Instr :=
  match decode (tableWord nbits w) with
  | .ok i => some i
  | .error _ => none

end Sys2Proof
end

