-- ==== Sys2Proof/Config.lean ====
section
/-! DEFINITION. The fixed parameters of R6 and the open parameters of R7. An open parameter is an argument of
the model: it is carried, as plain data, in the field `cfg` of the state, which no operation changes, so that a
statement about every state is a statement about every value of every parameter. -/

namespace Sys2Proof

/-! ## Fixed parameters (R6) -/

/-- Cycles of the drawing phase of a visible scanline. -/
abbrev DRAW_CYCLES : Nat := 960
/-- Cycles of the hblank phase of a visible scanline. -/
abbrev HBLANK_CYCLES : Nat := 272
/-- Cycles of a scanline. -/
abbrev LINE_CYCLES : Nat := 1232
/-- First vblank scanline. -/
abbrev VBLANK_FIRST : Nat := 160
/-- Last vblank scanline, the last line of a frame of 228. -/
abbrev VBLANK_LAST : Nat := 227
/-- Cycles of the interrupt delivery latch. -/
abbrev IRQ_LATENCY : Nat := 7
/-- Constant term of the DMA bus cost. -/
abbrev DMA_SETUP : Nat := 6
/-- Units moved by a sound-FIFO trigger. -/
abbrev FIFO_COUNT : Nat := 4
/-- The savestate format this model writes and the newest it loads (R300, R301). -/
abbrev SUPPORTED_VERSION : Nat := 1

/-! ## Open parameters (R7) -/

/-- One region's entry of the wait tables `WT` (R43): first and sequential access of 16 and of 32 bits. -/
structure WaitRow where
  wait16 : Nat
  seq16  : Nat
  wait32 : Nat
  seq32  : Nat
  deriving DecidableEq, Repr

/-- `WT` (R43): a total function from the 256 regions to a row of cycle numbers. -/
abbrev WaitTables := Vector WaitRow 256

/-- The open parameter `wait_decode` (R7, R102) as data: a function from the 16-bit WAITCNT value to tables,
total and depending on its argument alone. `listed` can spell out any such function. -/
inductive WaitDecoder where
  /-- The table of 93_implementation_defined.md G5, the default of R7. -/
  | published
  /-- The same row for every region and every value (`TESTWT` of 95_test_vectors.md is `uniform` of 2, 2, 2, 2). -/
  | uniform (row : WaitRow)
  /-- The tables of the first listed pair with that value, else `rest`. -/
  | listed (cases : List (Half × WaitTables)) (rest : WaitTables)
  deriving DecidableEq, Repr

/-- An interval of system addresses, both ends included. -/
structure AddrRange where
  lo : Addr
  hi : Addr
  deriving DecidableEq, Repr

/-- The open parameters of R7 that are not collaborators. `MAX_INSN_CYCLES` is not needed: cycle arithmetic is on
naturals. -/
structure Config where
  /-- `IOBASE`, a multiple of 0x400. -/
  ioBase      : Addr
  /-- `CartSpace`, a predicate on addresses, as the intervals where it holds. -/
  cartSpace   : List AddrRange
  /-- `ADDR_TOP_MAX`. -/
  addrTopMax  : BitVec 8
  /-- `other_mask`: the mask of each listed even offset; every other offset has 0xFFFF. -/
  otherMasks  : List (Nat × Half)
  /-- `wait_decode`. -/
  waitDecoder : WaitDecoder
  deriving DecidableEq, Repr

/-- What R7 assumes of the parameters. -/
abbrev Config.wf (cfg : Config) : Prop := cfg.ioBase.toNat % 0x400 = 0

/-- The defaults of R7 (G5, G6 of 93_implementation_defined.md; PRESUMED there, log entry 5). -/
def Config.default : Config where
  ioBase      := 0x04000000
  cartSpace   := [⟨0x08000000, 0x0DFFFFFF⟩]
  addrTopMax  := 0x0F
  otherMasks  := []
  waitDecoder := .published

end Sys2Proof
end

