-- ==== Sys2Proof/Machine/Wait.lean ====
section
/-! DEFINITION. `wait_decode` (R7, R102): the wait tables that a WAITCNT value stands for. -/

namespace Sys2Proof.Machine

/-- A field of `n` bits of `v` from bit `lo` up, as a number. -/
def field (v : Half) (lo n : Nat) : Nat := v.toNat / 2 ^ lo % 2 ^ n

/-- `first` of G5: first-access cycles by a two-bit field. -/
def firstAccess (k : Nat) : Nat :=
  match k with
  | 0 => 4
  | 1 => 3
  | 2 => 2
  | _ => 8

/-- G5: the 32-bit columns derived from the 16-bit ones, for the cartridge regions. -/
def cartRow (w q : Nat) : WaitRow := ⟨w, q, w + q + 1, 2 * q + 1⟩

/-- G5: the published table's row for a region. -/
def publishedRow (v : Half) (region : Nat) : WaitRow :=
  match region with
  | 0x02 => ⟨2, 2, 5, 5⟩
  | 0x05 | 0x06 => ⟨0, 0, 1, 1⟩
  | 0x08 | 0x09 => cartRow (firstAccess (field v 2 2)) (if field v 4 1 = 0 then 2 else 1)
  | 0x0A | 0x0B => cartRow (firstAccess (field v 5 2)) (if field v 7 1 = 0 then 4 else 1)
  | 0x0C | 0x0D => cartRow (firstAccess (field v 8 2)) (if field v 10 1 = 0 then 8 else 1)
  | 0x0E => cartRow (firstAccess (field v 0 2)) (firstAccess (field v 0 2))
  | _ => ⟨0, 0, 0, 0⟩

/-- Tables from a row function. -/
def tablesOf (row : Nat → WaitRow) : WaitTables :=
  ⟨⟨(List.range 256).map row⟩, by simp⟩

/-- `wait_decode` (R102), as the parameter says. -/
def waitDecode (d : WaitDecoder) (v : Half) : WaitTables :=
  match d with
  | .published => tablesOf (publishedRow v)
  | .uniform row => tablesOf fun _ => row
  | .listed cases rest =>
    match cases.find? fun p => p.1 == v with
    | some p => p.2
    | none => rest

end Sys2Proof.Machine
end

