-- ==== Sys2Proof/Machine/Block.lean ====
section
/-! DEFINITION. The machine state `M` of R20, as plain data, its register accessors and its reset values. -/

namespace Sys2Proof.Machine

/-- A latched prescaler selection: the set {0, 6, 8, 10} of `T[i].shift` (R35, R47 (i)). -/
inductive Prescale where
  | by1
  | by64
  | by256
  | by1024
  deriving DecidableEq, Repr

/-- The shadow state of one timer (R35); `reload` is the register entry. -/
structure Timer where
  value     : Half
  shift     : Prescale
  cascade   : Bool
  irqEnable : Bool
  running   : Bool
  ticks     : Nat
  pending   : Bool
  deriving DecidableEq, Repr

/-- The cursors of one DMA channel (R37). -/
structure Cursor where
  src : Addr
  dst : Addr
  deriving DecidableEq, Repr

/-- `L`, the interrupt delivery latch (R39). -/
inductive Latch where
  | idle
  | pending (k : Nat)
  | delivered
  deriving DecidableEq, Repr

/-- `V.mode` (R41). -/
inductive Mode where
  | drawing
  | hblank
  | vblank
  deriving DecidableEq, Repr

/-- `V`, the video timing state (R41). -/
structure Video where
  scanline : Nat
  mode     : Mode
  cim      : Nat
  deriving DecidableEq, Repr

/-- `M` (R20): "these parts and nothing else". -/
structure Block where
  /-- The Register File (R21): entry `a / 2` is the register at the even offset `a`. -/
  io           : Vector Half 512
  timers       : Vector Timer 4
  cursors      : Vector Cursor 4
  dmaStall     : Nat
  latch        : Latch
  video        : Video
  cycleCounter : Nat
  wt           : WaitTables
  deriving DecidableEq, Repr

/-! ## Accessors: the one way to a register entry -/

/-- The entry an offset names; bit 0 is ignored (R64). -/
def slot (a : Nat) : Fin 512 := ⟨a / 2 % 512, Nat.mod_lt _ (by decide)⟩

/-- `io[a]` (R9). -/
def Block.getIo (m : Block) (a : Nat) : Half := m.io[slot a]

/-- `io[a] <- v` (R9): the stored entry, no mask and no side effect. -/
def Block.setIo (m : Block) (a : Nat) (v : Half) : Block := { m with io := m.io.set (slot a) v }

/-- `T[i]`. -/
def Block.timer (m : Block) (i : Fin 4) : Timer := m.timers[i]

/-- `T[i] <- t`. -/
def Block.setTimer (m : Block) (i : Fin 4) (t : Timer) : Block := { m with timers := m.timers.set i t }

/-- `D[c]`. -/
def Block.cursor (m : Block) (c : Fin 4) : Cursor := m.cursors[c]

/-- `D[c] <- d`. -/
def Block.setCursor (m : Block) (c : Fin 4) (d : Cursor) : Block := { m with cursors := m.cursors.set c d }

/-- A row of the wait tables. -/
def Block.waitRow (m : Block) (region : BitVec 8) : WaitRow := m.wt[region.toFin]

/-! ## Reset values (R48) -/

/-- A timer after reset (R48; value and running are the source's). -/
def Timer.reset : Timer := ⟨0, .by1, false, false, false, 0, false⟩

/-- R48: every piece of `M` after `RESET`. -/
def Block.reset (cfg : Config) : Block where
  io           := Vector.replicate 512 0
  timers       := Vector.replicate 4 Timer.reset
  cursors      := Vector.replicate 4 ⟨0, 0⟩
  dmaStall     := 0
  latch        := .idle
  video        := ⟨0, .drawing, 0⟩
  cycleCounter := 0
  wt           := waitDecode cfg.waitDecoder 0

end Sys2Proof.Machine
end

