-- ==== Sys2Proof/Machine/Collab.lean ====
section
/-! DEFINITION. The collaborators of R4 and R296 to R301 as plain data. The block is specified against collaborators
that are parameters; each is held as data general enough to stand for any of them (log entries 1 to 4): the CPU as
the script of what its instructions do, which may turn on every value they have read, with its answers to interrupts;
memory as a byte store and the list of the turns in which it acts otherwise; audio as the list of its answers; render as
a sink. -/

namespace Sys2Proof.Machine

/-- The widths `mem` offers (R297). -/
inductive Width where
  | byte
  | half
  | word
  deriving DecidableEq, Repr

/-- A test a CPU instruction makes of a value it has read: the `back`-th before the last one (0 if there is none), under
a mask, equals a value. -/
structure Test where
  back  : Nat
  mask  : BitVec 32
  value : BitVec 32
  deriving DecidableEq, Repr

/-- What one CPU instruction may do (R104, R296): port operations at a 16-bit offset, accesses of the system space
through `mem`, `EXT_IRQ`, the changes of its own two flags, and what decides how it goes on (log entry 1): acts and
instructions passed over where a test holds, and the cost. -/
inductive CpuOp where
  | w16 (a : BitVec 16) (v : Half)
  | r16 (a : BitVec 16)
  | write (w : Width) (a : Addr) (v : BitVec 32)
  | read (w : Width) (a : Addr)
  | extIrq (b : BitVec 4)
  | irqEn (on : Bool)
  | halt
  /-- Where the test holds the next `n` acts of this instruction are passed over. -/
  | skip (t : Test) (n : Nat)
  /-- Where the test holds the next `n` instructions of the script are passed over. -/
  | jump (t : Test) (n : Nat)
  /-- The instruction's cost is this, whatever it was. -/
  | cost (c : Nat)
  deriving DecidableEq, Repr

/-- `INSN c { … }` (R104): one CPU instruction of cost `c`; cost 0 is the fatal return. -/
structure Insn where
  cost : Nat
  ops  : List CpuOp
  deriving DecidableEq, Repr

/-- How the CPU takes one interrupt (R296, R288): whether it accepts interrupts from then on, and the instructions it is
vectored to; what it was about to execute comes after them. -/
structure Entry where
  irqEnabled : Bool
  handler    : List Insn
  deriving DecidableEq, Repr

/-- The CPU collaborator (R7, R296): the instructions still to come, its two flags, the values it has read, newest first,
and how it will take its next interrupts. With no entries it is `ScriptCPU` (R104). -/
structure Cpu where
  script     : List Insn
  irqEnabled : Bool
  halted     : Bool
  seen       : List (BitVec 32)
  entries    : List Entry
  deriving DecidableEq, Repr

/-- Whether a test holds. -/
def Test.holds (t : Test) (c : Cpu) : Bool := (c.seen.getD t.back 0) &&& t.mask == t.value

/-- One access of the memory collaborator in which it acts otherwise than the byte store does (R7, R297, U18): the data
it answers a read with, a write being lost, and the `EXT_IRQ` calls that arrive before and after the access (R133). -/
structure BusTurn where
  answer : Option (BitVec 32)
  before : List (Fin 14)
  after  : List (Fin 14)
  deriving DecidableEq, Repr

/-- The turn of an access the byte store serves, with no call arriving. -/
def BusTurn.plain : BusTurn := ⟨none, [], []⟩

/-- The system space's bytes: address and byte, addresses strictly rising, no zero byte listed. -/
abbrev Memory := List Host.Cell

/-- A savestate (R300): `(version, cart_id, M, mem_blocks)`. -/
structure Savestate where
  version : Nat
  cartId  : Nat
  m       : Block
  mem     : Memory
  deriving DecidableEq, Repr

/-- What the block hands to the outside, in order: values a port read returns, the accesses it issues to `mem`, and
its calls of `render`, `audio` and `cpu.assertInterrupt`, with the cycle at which each call is made. -/
inductive Event where
  /-- A port read at an even offset returned a value (R231). -/
  | returned (a : Nat) (v : Half)
  /-- A CPU load through `mem` returned a value. -/
  | loaded (w : Width) (a : Addr) (v : BitVec 32)
  /-- `MemRead` of a DMA unit (R176) and the data. -/
  | memRead (w : Width) (a : Addr) (v : BitVec 32)
  /-- `MemWrite` of a DMA unit (R176). -/
  | memWrite (w : Width) (a : Addr) (v : BitVec 32)
  /-- `render.scanline(N, snapshot)` (R265). -/
  | render (line : Nat) (snapshot : Vector Half 512) (cycle : Nat)
  /-- `audio.timerOverflow(i)` and its answer (R205). -/
  | audio (i : Fin 4) (answer : BitVec 4) (cycle : Nat)
  /-- `cpu.assertInterrupt()` (R155, R288). -/
  | interrupt (cycle : Nat)
  deriving DecidableEq, Repr

/-- How the last `RUN` or `LOAD` ended (R281). -/
inductive HostResult where
  /-- No `RUN` or `LOAD` has ended yet. -/
  | none
  | budgetExhausted
  | fatalTrap
  | earlyExit
  | loadVersionMismatch
  | loadCartridgeMismatch
  /-- `LOAD` succeeded. -/
  | loaded
  deriving DecidableEq, Repr

/-- The code of R281. -/
def HostResult.code : HostResult → Option Nat
  | .none => Option.none
  | .budgetExhausted => some 0
  | .fatalTrap => some 1
  | .earlyExit => some 2
  | .loadVersionMismatch => some 3
  | .loadCartridgeMismatch => some 4
  | .loaded => Option.none

/-- The "human-readable reason" of a failed `LOAD` (R301). -/
def HostResult.reason : HostResult → Option String
  | .loadVersionMismatch => some "newer format than supported"
  | .loadCartridgeMismatch => some "savestate is for another cartridge"
  | .none | .budgetExhausted | .fatalTrap | .earlyExit | .loaded => Option.none

end Sys2Proof.Machine
end

