-- ==== Sys2Proof/Machine/State.lean ====
section
/-! DEFINITION. The state: `M`, the collaborators, the host interface and the parameters; the two ways a step stops;
the state after reset. -/

namespace Sys2Proof.Machine

/-- A step that stops. -/
inductive Fault where
  /-- Raised by `Account`, `Burst`, `Pass` and `RUN` where time cannot advance: a countdown of the horizon is 0, or the
  loop's bound of one pass per cycle (R132) is used up. The invariant of R47 rules both out; safe, since the spec's
  own loop would not end there (log entry 11). -/
  | noProgress
  deriving DecidableEq, Repr

/-- An operation without a meaning. -/
inductive Refusal where
  /-- Raised by `exec` only, for an instruction whose meaning is not written; safe. No arm raises it now. -/
  | notModelled (mnemonic : String)
  /-- U1, R175: a trigger that reaches `Transfer` with `SRC` = 3; safe (log entry 12). -/
  | dmaSourceStepReserved
  /-- U3, R183: a unit whose port write takes a channel's `EN` from 0 to 1 with `RSN` = 0; safe (log entry 13). -/
  | dmaNestedTransfer
  /-- U3, R183: a unit that writes the control entry of the channel now transferring; safe (log entry 13). -/
  | dmaWritesOwnControl
  /-- R64: a port operation at an offset of 0x400 or more; safe (log entry 14). -/
  | offsetOutOfRange
  /-- R157: `EXT_IRQ(b)` with `b` above 13; safe (log entry 14). -/
  | extIrqOutOfRange
  /-- R235, R236: `W.OTHER` or `R.STORED` with an operand that is the offset of another row, or odd; no command word
  decodes to one; safe (log entry 14). -/
  | offsetOfAnotherRow
  /-- Raised by `step`: the next command word is no operation; safe (log entry 14). -/
  | undecodable (why : Reject)
  deriving DecidableEq, Repr

/-- Everything the model holds. -/
structure State where
  /-- The open parameters (R7); no operation changes them. -/
  cfg    : Config
  /-- The machine state `M` (R20). -/
  m      : Block
  /-- The CPU collaborator (R296, R104; log entry 1). -/
  cpu    : Cpu
  /-- The memory collaborator's bytes (R297, log entry 2). -/
  mem    : Memory
  /-- The memory collaborator's turns in the accesses to come, then plain ones for ever (R7, R297, R133, log entry 2). -/
  bus    : List BusTurn
  /-- The audio collaborator's answers to come, then 0 for ever (R299, log entry 3). -/
  audio  : List (BitVec 4)
  /-- The commands the host and a test harness have issued and that wait, the next one first. -/
  queue  : List Nat
  /-- The savestate in the host's hands: what `SAVE` returned last, or what the host put there for `LOAD`. -/
  file   : Savestate
  /-- The identifier of the cartridge now loaded (R300, R301). -/
  cartId : Nat
  /-- How the last `RUN` or `LOAD` ended (R281). -/
  result : HostResult
  /-- What the block has handed to the outside, newest first. -/
  trace  : List Event
  deriving DecidableEq, Repr

/-- The state right after reset: `M` as R48 has it, the default parameters of R7, the scripted CPU as R104 starts it,
memory of zeros and plain, nothing queued and nothing handed out. -/
def State.reset : State where
  cfg    := Config.default
  m      := Block.reset Config.default
  cpu    := ⟨[], true, false, [], []⟩
  mem    := []
  bus    := []
  audio  := []
  queue  := []
  file   := ⟨SUPPORTED_VERSION, 0, Block.reset Config.default, []⟩
  cartId := 0
  result := .none
  trace  := []

end Sys2Proof.Machine
end

