-- ==== Sys2Proof/Machine/Ops.lean ====
section
/-! DEFINITION. The shared operations: outcomes in sequence, the byte store, the record of what is handed out, and
taking and leaving an interrupt. -/

namespace Sys2Proof.Machine

/-- An outcome over the model's own reasons to stop. -/
abbrev Res (α : Type) := Host.Outcome α Fault Refusal

/-- One operation after another; a stop ends both. -/
def andThen {α β : Type} (r : Res α) (f : α → Res β) : Res β :=
  match r with
  | .next a => f a
  | .fault e => .fault e
  | .refused e => .refused e

/-- What the CPU has read (R296); its own memory of it. -/
def State.see (s : State) (v : BitVec 32) : State := { s with cpu := { s.cpu with seen := v :: s.cpu.seen } }

/-- Change `M` and nothing else. -/
def State.onBlock (s : State) (f : Block → Block) : State := { s with m := f s.m }

/-- Hand something to the outside. -/
def State.emit (s : State) (e : Event) : State := { s with trace := e :: s.trace }

/-- The cycles at which `assertInterrupt` was called, oldest first: `irq_log` of R104. -/
def State.irqLog (s : State) : List Nat :=
  (s.trace.filterMap fun e => match e with
    | .interrupt cycle => some cycle
    | .returned _ _ | .loaded _ _ _ | .memRead _ _ _ | .memWrite _ _ _ | .render _ _ _ | .audio _ _ _ => none).reverse

/-! ## The byte store (R297, U18; log entry 2) -/

/-- What a byte that nothing has written reads as. -/
def Memory.unlisted : Byte := 0

/-- One byte. -/
def Memory.get : Memory → Nat → Byte
  | [], _ => Memory.unlisted
  | (k, b) :: rest, a => if k = a then b else Memory.get rest a

/-- Write one byte, keeping the canonical form. -/
def Memory.set : Memory → Nat → Byte → Memory
  | [], a, v => if v = Memory.unlisted then [] else [(a, v)]
  | (k, b) :: rest, a, v =>
    if a < k then (if v = Memory.unlisted then (k, b) :: rest else (a, v) :: (k, b) :: rest)
    else if a = k then (if v = Memory.unlisted then rest else (a, v) :: rest)
    else (k, b) :: Memory.set rest a v

/-- The canonical form: addresses of 32 bits, strictly rising, and no byte equal to the unlisted one. -/
def Memory.wf : Memory → Bool
  | [] => true
  | (k, b) :: rest =>
    decide (k < 2 ^ 32) && b != Memory.unlisted && (rest.head?.elim true fun c => decide (k < c.1)) && Memory.wf rest

/-- The bytes of a width. -/
def Width.bytes : Width → Nat
  | .byte => 1
  | .half => 2
  | .word => 4

/-- The bytes of a width out of 32 bits. -/
def Width.clip (w : Width) (v : BitVec 32) : BitVec 32 :=
  match w with
  | .byte => v &&& 0xFF
  | .half => v &&& 0xFFFF
  | .word => v

/-- `a & ~(N - 1)` (R65). -/
def Width.align (w : Width) (a : Addr) : Addr := a &&& ~~~(BitVec.ofNat 32 (w.bytes - 1))

/-- Read `n` bytes, the one at the lower address the less significant: DESIGN CHOICE (log entry 2), R62 orders the register
window alone. -/
def Memory.read (mem : Memory) (a : Addr) : Nat → BitVec 32
  | 0 => 0
  | n + 1 => (mem.get a.toNat).setWidth 32 ||| (Memory.read mem (a + 1) n <<< 8)

/-- Write the low `n` bytes of a value, in the same order. -/
def Memory.write (mem : Memory) (a : Addr) (v : BitVec 32) : Nat → Memory
  | 0 => mem
  | n + 1 => Memory.write (mem.set a.toNat (v.setWidth 8)) (a + 1) (v >>> 8) n

/-! ## The register window (R60, R63) -/

/-- The offset of an address in the window at `IOBASE`, if it lies in it. -/
def windowOffset (cfg : Config) (a : Addr) : Option Offset :=
  if (a - cfg.ioBase).toNat < 0x400 then some ((a - cfg.ioBase).setWidth 10) else none

/-! ## Taking an interrupt and leaving it (R155, R156, R288) -/

/-- `cpu.assertInterrupt()` on the CPU's side (R296): it ends its halt and takes its next entry, which says what it then
accepts and where it is vectored to; with none left it masks itself and goes on with its script, as `ScriptCPU` (R104). -/
def Cpu.vector (c : Cpu) : Cpu :=
  match c.entries with
  | [] => { c with irqEnabled := false, halted := false }
  | e :: rest => { c with script := e.handler ++ c.script, irqEnabled := e.irqEnabled, halted := false, entries := rest }

/-- Interrupt entry: exactly one call of `cpu.assertInterrupt()`. The latch goes to `delivered` and nothing else in
`M` changes; what the CPU does is its own. -/
def takeInterrupt (s : State) : State :=
  { s with
    m := { s.m with latch := .delivered }
    cpu := s.cpu.vector
    trace := .interrupt s.m.cycleCounter :: s.trace }

/-- The block is not told of a return (R289); the latch leaves `delivered` at the next instruction fetch (R156). -/
def leaveDelivered (m : Block) : Block :=
  if m.latch = .delivered then { m with latch := .idle } else m

end Sys2Proof.Machine
end

