-- ==== Sys2Proof/Machine/HostOps.lean ====
section
/-! DEFINITION. The host operations `RESET`, `SAVE`, `LOAD` (R320, R300, R301). -/

namespace Sys2Proof.Machine

/-- `RESET` (R320): all of `M`; the collaborators are the host's to reset. -/
def execReset (s : State) : Res State := .next { s with m := Block.reset s.cfg }

/-- `SAVE` (R300): hands the host a savestate and changes nothing. -/
def execSave (s : State) : Res State := .next { s with file := ⟨SUPPORTED_VERSION, s.cartId, s.m, s.mem⟩ }

/-- `LOAD` (R301) of the savestate in the host's hands: both checks, the version first, come before any write. -/
def execLoad (s : State) : Res State :=
  if s.file.version > SUPPORTED_VERSION then .next { s with result := .loadVersionMismatch }
  else if s.file.cartId ≠ s.cartId then .next { s with result := .loadCartridgeMismatch }
  else
    .next { s with
      m := { s.file.m with wt := waitDecode s.cfg.waitDecoder (s.file.m.getIo 0x204) }
      mem := s.file.mem
      result := .loaded }

end Sys2Proof.Machine
end

