-- ==== Sys2Proof/Machine/Operands.lean ====
section
/-! DEFINITION. Operand assembly from register fields (R97 to R102), the visible count, and the port's read. -/

namespace Sys2Proof.Machine

/-! ## Timers -/

/-- `T[i].reload`: a name for the register entry (R28). -/
def Block.reload (m : Block) (i : Fin 4) : Half := m.getIo (tmBase i)

/-- `PRESCALER_SHIFT` (R6, R99; C1). -/
def Prescale.shift : Prescale → Nat
  | .by1 => 0
  | .by64 => 6
  | .by256 => 8
  | .by1024 => 10

/-- The selection of a control entry's `PS` field (R29, R99). -/
def Prescale.ofControl (ctl : Half) : Prescale :=
  match field ctl 0 2 with
  | 0 => .by1
  | 1 => .by64
  | 2 => .by256
  | _ => .by1024

/-- `Casc(i)` (R35): timer 0 has no predecessor. -/
def casc (i : Fin 4) (t : Timer) : Bool := decide (i ≠ 0) && t.cascade

/-- A free-running timer (R35). -/
def freeRunning (i : Fin 4) (t : Timer) : Bool := t.running && !casc i t

/-- `(0x10000 - count) << shift`: the cycles from a count to the overflow. -/
def cyclesFrom (count : Half) (p : Prescale) : Nat := (0x10000 - count.toNat) * 2 ^ p.shift

/-- `Period(i)` (43_timers.md). -/
def Block.period (m : Block) (i : Fin 4) : Nat := cyclesFrom (m.reload i) (m.timer i).shift

/-- The visible count of a timer (R36). -/
def visibleCount (i : Fin 4) (t : Timer) : Half :=
  if freeRunning i t then 0xFFFF - BitVec.ofNat 16 (t.ticks / 2 ^ t.shift.shift) else t.value

/-- `Visible(i)` (R36). -/
def Block.visible (m : Block) (i : Fin 4) : Half := visibleCount i (m.timer i)

/-! ## The port's read (R231) -/

/-- `PortRead(a)`: the visible count at the four count offsets, the stored entry elsewhere; bit 0 is ignored. -/
def Block.portRead (m : Block) (a : Offset) : Half :=
  match Reg.ofOffset a with
  | .tmL i => m.visible i
  | .dispstat | .vcount | .sadL _ | .sadH _ | .dadL _ | .dadH _ | .cntL _ | .cntH _ | .tmH _ => m.getIo a.toNat
  | .ie | .if_ | .waitcnt | .ime | .other => m.getIo a.toNat

/-! ## DMA operands -/

/-- `SAD(c)` (R97): high half at the higher offset. -/
def Block.sad (m : Block) (c : Fin 4) : Addr := m.getIo (dmaBase c + 2) ++ m.getIo (dmaBase c)

/-- `DAD(c)` (R97). -/
def Block.dad (m : Block) (c : Fin 4) : Addr := m.getIo (dmaBase c + 6) ++ m.getIo (dmaBase c + 4)

/-- DMAcCNT_H. -/
def Block.dmaControl (m : Block) (c : Fin 4) : Half := m.getIo (dmaBase c + 10)

/-- `EN` of a control entry (R27). -/
def dmaEnabled (ctl : Half) : Bool := ctl.getLsbD 15

/-- `RSN` (R27, R101). -/
def dmaReason (ctl : Half) : BitVec 2 := BitVec.ofNat 2 (field ctl 12 2)

/-- `DMA_MAX_COUNT` (R6). -/
def dmaMaxCount (c : Fin 4) : Nat := if c = 3 then 0x10000 else 0x4000

/-- `Count(c)` (R98): 0 means the channel maximum. -/
def Block.count (m : Block) (c : Fin 4) : Nat :=
  if m.getIo (dmaBase c + 8) = 0 then dmaMaxCount c else (m.getIo (dmaBase c + 8)).toNat

/-- `SrcStep` (R100); code 3 has no meaning (U1). -/
def srcStep (code n : Nat) : Option Addr :=
  match code with
  | 0 => some (BitVec.ofNat 32 n)
  | 1 => some (-BitVec.ofNat 32 n)
  | 2 => some 0
  | _ => none

/-- `DstStep` (R100). -/
def dstStep (code n : Nat) : Addr :=
  match code with
  | 0 => BitVec.ofNat 32 n
  | 1 => -BitVec.ofNat 32 n
  | 2 => 0
  | _ => BitVec.ofNat 32 n

/-- The resolved parameters of a transfer (R175). -/
structure Plan where
  width : Width
  count : Nat
  sstep : Addr
  dstep : Addr
  src   : Addr
  dst   : Addr
  deriving DecidableEq, Repr

/-- A FIFO trigger (R175, R180). -/
def isFifo (c : Fin 4) (reason : BitVec 2) : Bool := reason == 3 && (decide (c = 1) || decide (c = 2))

/-- `Transfer`, first part (R175): `none` for `SRC` = 3. -/
def Block.plan (m : Block) (c : Fin 4) (reason : BitVec 2) : Option Plan :=
  let ctl := m.dmaControl c
  let fifo := isFifo c reason
  let w : Width := if fifo || ctl.getLsbD 10 then .word else .half
  (srcStep (field ctl 7 2) w.bytes).map fun sstep =>
    { width := w
      count := if fifo then FIFO_COUNT else m.count c
      sstep := sstep
      dstep := if fifo then 0 else dstStep (field ctl 5 2) w.bytes
      src := w.align (m.cursor c).src
      dst := w.align (m.cursor c).dst }

/-- `Region(addr)` (R68). -/
def region (a : Addr) : BitVec 8 := (a >>> 24).setWidth 8

/-- `CartSpace` (R68), as the parameter lists it. -/
def inCartSpace (cfg : Config) (a : Addr) : Bool := cfg.cartSpace.any fun r => decide (r.lo ≤ a) && decide (a ≤ r.hi)

/-- `OpenBus(s, d)` (R177). -/
def openBus (cfg : Config) (src dst : Addr) : Bool := inCartSpace cfg src && decide (cfg.addrTopMax < region dst)

/-- The bus cost of a transfer (R178). -/
def Block.dmaCost (m : Block) (p : Plan) : Nat :=
  let rs := m.waitRow (region p.src)
  let rd := m.waitRow (region p.dst)
  match p.width with
  | .word => (rs.seq32 + rd.seq32) * (p.count - 1) + DMA_SETUP + rs.wait32 + rd.seq32
  | .byte | .half => (rs.seq16 + rd.seq16) * (p.count - 1) + DMA_SETUP + rs.wait16 + rd.seq16

/-! ## Write masks (R22) -/

/-- The write mask of SAD's high half (R170). -/
def sadHighMask (c : Fin 4) : Half := if c = 0 then 0x07FF else 0x0FFF

/-- The write mask of DAD's high half (R171). -/
def dadHighMask (c : Fin 4) : Half := if c = 3 then 0x0FFF else 0x07FF

/-- The write mask of DMAcCNT_L (R172). -/
def countMask (c : Fin 4) : Half := if c = 3 then 0xFFFF else 0x3FFF

/-- The write mask of DMAcCNT_H (R173). -/
def controlMask (c : Fin 4) : Half := if c = 3 then 0xFFE0 else 0xF7E0

/-- `other_mask(a)` (R7, R34). -/
def otherMask (cfg : Config) (a : Nat) : Half :=
  match cfg.otherMasks.find? fun p => p.1 == a with
  | some p => p.2
  | none => 0xFFFF

/-- The W-mask column of R22, with `other_mask` elsewhere; IF stores nothing of the written value. -/
def writeMask (cfg : Config) (a : Nat) : Half :=
  match Reg.ofOffset (BitVec.ofNat 10 a) with
  | .dispstat => 0xFF38
  | .vcount   => 0x0000
  | .sadL _   => 0xFFFF
  | .sadH c   => sadHighMask c
  | .dadL _   => 0xFFFF
  | .dadH c   => dadHighMask c
  | .cntL c   => countMask c
  | .cntH c   => controlMask c
  | .tmL _    => 0xFFFF
  | .tmH _    => 0x00C7
  | .ie       => 0x3FFF
  | .if_      => 0x0000
  | .waitcnt  => 0x5FFF
  | .ime      => 0x0001
  | .other    => otherMask cfg a

/-! ## System-space reads (R63, R297) -/

/-- What `mem` answers to a read of a width at an address aligned to it: the register window through the port, every
other address from the byte store. -/
def memRead (w : Width) (a : Addr) (s : State) : BitVec 32 :=
  let a := w.align a
  match windowOffset s.cfg a, w with
  | some o, .byte =>
    let h := s.m.portRead o
    if o.getLsbD 0 then (h >>> 8).setWidth 32 else (h &&& 0xFF).setWidth 32
  | some o, .half => (s.m.portRead o).setWidth 32
  | some o, .word => s.m.portRead (o + 2) ++ s.m.portRead o
  | none, w => s.mem.read a w.bytes

end Sys2Proof.Machine
end

