-- ==== Sys2Proof/Machine/Flags.lean ====
section
/-! DEFINITION. Every flag computation: IF and the latch (R153, R154, R40), the DISPSTAT flags (R23, R264), and the
internal writes of R237. -/

namespace Sys2Proof.Machine

/-- `RaiseIF(b)` (R153). -/
def Block.raiseIf (m : Block) (b : Nat) : Block := m.setIo 0x202 (m.getIo 0x202 ||| ((1 : Half) <<< b))

/-- `RaiseIF(b)` where a gate is open. -/
def Block.raiseIfGated (m : Block) (gate : Bool) (b : Nat) : Block := if gate then m.raiseIf b else m

/-- `Deliverable(M)` (R40); the CPU's flag is an input. -/
def Block.deliverable (m : Block) (irqEnabled : Bool) : Bool :=
  (m.getIo 0x208).getLsbD 0 && (m.getIo 0x200 &&& m.getIo 0x202) != 0 && irqEnabled

/-- `IrqEval()` (R154). -/
def Block.irqEval (m : Block) (irqEnabled : Bool) : Block :=
  if m.latch = .idle ∧ m.deliverable irqEnabled then { m with latch := .pending IRQ_LATENCY } else m

/-- `IrqEval()` with the CPU's flag as it is now. -/
def irqEval (s : State) : State := s.onBlock fun m => m.irqEval s.cpu.irqEnabled

/-- Set the DISPSTAT bits of a mask (R237 (b)). -/
def Block.setDispstat (m : Block) (bits : Half) : Block := m.setIo 0x004 (m.getIo 0x004 ||| bits)

/-- Clear the DISPSTAT bits of a mask (R237 (b)). -/
def Block.clearDispstat (m : Block) (bits : Half) : Block := m.setIo 0x004 (m.getIo 0x004 &&& ~~~bits)

/-- Rewrite VCOUNT from the scanline (R24). -/
def Block.setVcount (m : Block) : Block := m.setIo 0x006 (BitVec.ofNat 16 m.video.scanline)

/-- `VcountCompare()` (R264). -/
def Block.vcountCompare (m : Block) : Block :=
  if m.video.scanline = field (m.getIo 0x004) 8 8 then
    let m := m.setDispstat 0x0004
    m.raiseIfGated ((m.getIo 0x004).getLsbD 5) 2
  else m.clearDispstat 0x0004

end Sys2Proof.Machine
end

