-- ==== Sys2Proof/Machine/Registers.lean ====
section
/-! DEFINITION. Register dispatch: the port operations that belong to no other component (R232 to R236). -/

namespace Sys2Proof.Machine

/-- The value a port read returns is handed out; `M` does not change (R231). -/
def returnValue (a : Nat) (v : Half) (s : State) : State := s.emit (.returned a v)

/-- `W.DISPSTAT` (R232): the three status flags are kept. -/
def execWDispstat (v : Half) (s : State) : Res State :=
  .next (s.onBlock fun m => m.setIo 0x004 ((m.getIo 0x004 &&& 0x0007) ||| (v &&& 0xFF38)))

/-- `W.VCOUNT` (R233): the write mask is 0. -/
def execWVcount (_v : Half) (s : State) : Res State := .next s

/-- `W.WAITCNT` (R234): store, and decode all four tables anew. -/
def execWWaitcnt (v : Half) (s : State) : Res State :=
  .next (s.onBlock fun m =>
    let m := m.setIo 0x204 (v &&& 0x5FFF)
    { m with wt := waitDecode s.cfg.waitDecoder (m.getIo 0x204) })

/-- The masked store of a storage offset (R34, R235). -/
def storeOther (a : Offset) (v : Half) (s : State) : State :=
  s.onBlock fun m => m.setIo (evenOffset a).toNat (v &&& otherMask s.cfg (evenOffset a).toNat)

/-- `W.OTHER` (R235). An operand that names another row's register, or is odd, is no operand of this row. -/
def execWOther (a : Offset) (v : Half) (s : State) : Res State :=
  if otherOffset a then .next (storeOther a v s) else .refused .offsetOfAnotherRow

/-- `R.STORED` (R236). -/
def execRStored (a : Offset) (s : State) : Res State :=
  if storedOffset a then .next (returnValue a.toNat (s.m.getIo a.toNat) s) else .refused .offsetOfAnotherRow

end Sys2Proof.Machine
end

