-- ==== Sys2Proof/Machine/DmaRegs.lean ====
section
/-! DEFINITION. The DMA engine's address and count registers (R170 to R172), and the store half of its control
register (R173). -/

namespace Sys2Proof.Machine

/-- `W.DMAcSAD_L` (R170): no side effect, the cursor is not touched. -/
def writeSadL (c : Fin 4) (v : Half) (s : State) : State := s.onBlock fun m => m.setIo (dmaBase c) v
/-- `W.DMAcSAD_H` (R170). -/
def writeSadH (c : Fin 4) (v : Half) (s : State) : State :=
  s.onBlock fun m => m.setIo (dmaBase c + 2) (v &&& sadHighMask c)
/-- `W.DMAcDAD_L` (R171). -/
def writeDadL (c : Fin 4) (v : Half) (s : State) : State := s.onBlock fun m => m.setIo (dmaBase c + 4) v
/-- `W.DMAcDAD_H` (R171). -/
def writeDadH (c : Fin 4) (v : Half) (s : State) : State :=
  s.onBlock fun m => m.setIo (dmaBase c + 6) (v &&& dadHighMask c)
/-- `W.DMAcCNT_L` (R172). -/
def writeCntL (c : Fin 4) (v : Half) (s : State) : State :=
  s.onBlock fun m => m.setIo (dmaBase c + 8) (v &&& countMask c)

/-- The write turns `EN` from 0 to 1 (R173). -/
def arms (m : Block) (c : Fin 4) (v : Half) : Bool := !dmaEnabled (m.dmaControl c) && dmaEnabled v

/-- The store of `W.DMAcCNT_H` and, on `EN` 0 to 1, the latching of the cursors (R173). -/
def Block.storeControl (m : Block) (c : Fin 4) (v : Half) : Block :=
  let stored := m.setIo (dmaBase c + 10) (v &&& controlMask c)
  if arms m c v then stored.setCursor c ⟨m.sad c, m.dad c⟩ else stored

/-- `W.DMA0SAD_L` (R170). -/
def execWDma0SadL (v : Half) (s : State) : Res State := .next (writeSadL 0 v s)
/-- `W.DMA0SAD_H` (R170). -/
def execWDma0SadH (v : Half) (s : State) : Res State := .next (writeSadH 0 v s)
/-- `W.DMA0DAD_L` (R171). -/
def execWDma0DadL (v : Half) (s : State) : Res State := .next (writeDadL 0 v s)
/-- `W.DMA0DAD_H` (R171). -/
def execWDma0DadH (v : Half) (s : State) : Res State := .next (writeDadH 0 v s)
/-- `W.DMA0CNT_L` (R172). -/
def execWDma0CntL (v : Half) (s : State) : Res State := .next (writeCntL 0 v s)
/-- `W.DMA1SAD_L` (R170). -/
def execWDma1SadL (v : Half) (s : State) : Res State := .next (writeSadL 1 v s)
/-- `W.DMA1SAD_H` (R170). -/
def execWDma1SadH (v : Half) (s : State) : Res State := .next (writeSadH 1 v s)
/-- `W.DMA1DAD_L` (R171). -/
def execWDma1DadL (v : Half) (s : State) : Res State := .next (writeDadL 1 v s)
/-- `W.DMA1DAD_H` (R171). -/
def execWDma1DadH (v : Half) (s : State) : Res State := .next (writeDadH 1 v s)
/-- `W.DMA1CNT_L` (R172). -/
def execWDma1CntL (v : Half) (s : State) : Res State := .next (writeCntL 1 v s)
/-- `W.DMA2SAD_L` (R170). -/
def execWDma2SadL (v : Half) (s : State) : Res State := .next (writeSadL 2 v s)
/-- `W.DMA2SAD_H` (R170). -/
def execWDma2SadH (v : Half) (s : State) : Res State := .next (writeSadH 2 v s)
/-- `W.DMA2DAD_L` (R171). -/
def execWDma2DadL (v : Half) (s : State) : Res State := .next (writeDadL 2 v s)
/-- `W.DMA2DAD_H` (R171). -/
def execWDma2DadH (v : Half) (s : State) : Res State := .next (writeDadH 2 v s)
/-- `W.DMA2CNT_L` (R172). -/
def execWDma2CntL (v : Half) (s : State) : Res State := .next (writeCntL 2 v s)
/-- `W.DMA3SAD_L` (R170). -/
def execWDma3SadL (v : Half) (s : State) : Res State := .next (writeSadL 3 v s)
/-- `W.DMA3SAD_H` (R170). -/
def execWDma3SadH (v : Half) (s : State) : Res State := .next (writeSadH 3 v s)
/-- `W.DMA3DAD_L` (R171). -/
def execWDma3DadL (v : Half) (s : State) : Res State := .next (writeDadL 3 v s)
/-- `W.DMA3DAD_H` (R171). -/
def execWDma3DadH (v : Half) (s : State) : Res State := .next (writeDadH 3 v s)
/-- `W.DMA3CNT_L` (R172). -/
def execWDma3CntL (v : Half) (s : State) : Res State := .next (writeCntL 3 v s)

end Sys2Proof.Machine
end

