-- ==== Sys2Proof/Machine/Interrupts.lean ====
section
/-! DEFINITION. The interrupt controller: `W.IE`, `W.IF`, `W.IME`, `EXT_IRQ`, `EV.IRQ_CHECK`, `EV.INSN_FETCH`
(R150 to R157). -/

namespace Sys2Proof.Machine

/-- `W.IE` (R150). -/
def execWIe (v : Half) (s : State) : Res State :=
  .next (irqEval (s.onBlock fun m => m.setIo 0x200 (v &&& 0x3FFF)))

/-- `W.IF` (R151): a write clears flags and never sets one. -/
def execWIf (v : Half) (s : State) : Res State :=
  .next (s.onBlock fun m => m.setIo 0x202 (m.getIo 0x202 &&& ~~~v))

/-- `W.IME` (R152). -/
def execWIme (v : Half) (s : State) : Res State :=
  .next (irqEval (s.onBlock fun m => m.setIo 0x208 (v &&& 0x0001)))

/-- The first half of `IrqCheck()` (R155): at the end of the countdown deliver, or cancel where the condition no
longer holds. -/
def expireLatch (s : State) : State :=
  if s.m.latch = .pending 0 then
    if s.m.deliverable s.cpu.irqEnabled then takeInterrupt s else s.onBlock fun m => { m with latch := .idle }
  else s

/-- `EV.IRQ_CHECK` (R155): expiry, then arming. -/
def execEvIrqCheck (s : State) : Res State := .next (irqEval (expireLatch s))

/-- `EV.INSN_FETCH` (R156). -/
def execEvInsnFetch (s : State) : Res State := .next (s.onBlock leaveDelivered)

/-- `RaiseIF(b); IrqEval()` (R157). -/
def raiseAndEval (b : Nat) (s : State) : State := irqEval (s.onBlock fun m => m.raiseIf b)

/-- `EXT_IRQ(b)` (R157). -/
def execExtIrq (b : BitVec 4) (s : State) : Res State :=
  if b.toNat ≤ 13 then .next (raiseAndEval b.toNat s) else .refused .extIrqOutOfRange

/-- `EXT_IRQ` calls that arrive inside an access of the memory collaborator (R133), one after the other. -/
def arrive : List (Fin 14) → State → State
  | [], s => s
  | b :: bs, s => arrive bs (raiseAndEval b.val s)

end Sys2Proof.Machine
end

