-- ==== Sys2Proof/Machine/TimerRegs.lean ====
section
/-! DEFINITION. The timer bank's port operations (R200, R201, R206) and the deferred apply (R202). -/

namespace Sys2Proof.Machine

/-- `W.TMiCNT_L` (R200): the reload register and nothing else. -/
def writeReload (i : Fin 4) (v : Half) (s : State) : State := s.onBlock fun m => m.setIo (tmBase i) v

/-- `W.TMiCNT_H` (R201): store at once, apply later. -/
def writeTimerControl (i : Fin 4) (v : Half) (s : State) : State :=
  s.onBlock fun m =>
    (m.setIo (tmBase i + 2) (v &&& 0x00C7)).setTimer i { m.timer i with pending := true }

/-- `R.TMiCNT_L` (R206). -/
def readCount (i : Fin 4) (s : State) : State := returnValue (tmBase i) (s.m.visible i) s

/-- `W.TM0CNT_L` (R200). -/
def execWTm0CntL (v : Half) (s : State) : Res State := .next (writeReload 0 v s)
/-- `W.TM1CNT_L` (R200). -/
def execWTm1CntL (v : Half) (s : State) : Res State := .next (writeReload 1 v s)
/-- `W.TM2CNT_L` (R200). -/
def execWTm2CntL (v : Half) (s : State) : Res State := .next (writeReload 2 v s)
/-- `W.TM3CNT_L` (R200). -/
def execWTm3CntL (v : Half) (s : State) : Res State := .next (writeReload 3 v s)

/-- `W.TM0CNT_H` (R201). -/
def execWTm0CntH (v : Half) (s : State) : Res State := .next (writeTimerControl 0 v s)
/-- `W.TM1CNT_H` (R201). -/
def execWTm1CntH (v : Half) (s : State) : Res State := .next (writeTimerControl 1 v s)
/-- `W.TM2CNT_H` (R201). -/
def execWTm2CntH (v : Half) (s : State) : Res State := .next (writeTimerControl 2 v s)
/-- `W.TM3CNT_H` (R201). -/
def execWTm3CntH (v : Half) (s : State) : Res State := .next (writeTimerControl 3 v s)

/-- `R.TM0CNT_L` (R206). -/
def execRTm0CntL (s : State) : Res State := .next (readCount 0 s)
/-- `R.TM1CNT_L` (R206). -/
def execRTm1CntL (s : State) : Res State := .next (readCount 1 s)
/-- `R.TM2CNT_L` (R206). -/
def execRTm2CntL (s : State) : Res State := .next (readCount 2 s)
/-- `R.TM3CNT_L` (R206). -/
def execRTm3CntL (s : State) : Res State := .next (readCount 3 s)

/-- `TimerApply(i)` (R202): latch the control fields, then start, stop, or carry the count over a change of the
cascade bit. -/
def applyTimer (i : Fin 4) (ctl reload : Half) (t : Timer) : Timer :=
  let oldVisible := visibleCount i t
  let latched : Timer :=
    { t with
      shift := Prescale.ofControl ctl
      cascade := ctl.getLsbD 2
      irqEnable := ctl.getLsbD 6
      pending := false }
  match t.running, ctl.getLsbD 7 with
  | false, true => { latched with value := reload, ticks := cyclesFrom reload latched.shift, running := true }
  | true, false => { latched with value := oldVisible, running := false }
  | true, true =>
    match casc i t, casc i latched with
    | true, false => { latched with ticks := cyclesFrom t.value latched.shift }
    | false, true => { latched with value := oldVisible }
    | true, true | false, false => latched
  | false, false => latched

/-- `TimerApply(i)` on `M`. -/
def Block.timerApply (m : Block) (i : Fin 4) : Block :=
  m.setTimer i (applyTimer i (m.getIo (tmBase i + 2)) (m.reload i) (m.timer i))

/-- `EV.TIMER_APPLY` (R202). -/
def execEvTimerApply (i : Fin 4) (s : State) : Res State := .next (s.onBlock fun m => m.timerApply i)

end Sys2Proof.Machine
end

