-- ==== Sys2Proof/Machine/Port.lean ====
section
/-! DEFINITION. `PortWrite(a, v)` (R230) and writes of the system space (R63), both over the treatment of a write of
DMAcCNT_H, which differs for a write a DMA unit makes (R183). -/

namespace Sys2Proof.Machine

/-- `PortWrite(a, v)` (R230): the write operation the offset selects; `cntH` is the one for DMAcCNT_H. -/
def portWriteWith (cntH : Fin 4 → Half → State → Res State) (a : Offset) (v : Half) (s : State) : Res State :=
  match Reg.ofOffset a with
  | .dispstat => execWDispstat v s
  | .vcount   => execWVcount v s
  | .sadL c   => .next (writeSadL c v s)
  | .sadH c   => .next (writeSadH c v s)
  | .dadL c   => .next (writeDadL c v s)
  | .dadH c   => .next (writeDadH c v s)
  | .cntL c   => .next (writeCntL c v s)
  | .cntH c   => cntH c v s
  | .tmL i    => .next (writeReload i v s)
  | .tmH i    => .next (writeTimerControl i v s)
  | .ie       => execWIe v s
  | .if_      => execWIf v s
  | .waitcnt  => execWWaitcnt v s
  | .ime      => execWIme v s
  | .other    => .next (storeOther a v s)

/-- What `mem` does with a write at an address aligned to its width: inside the register window R63's port writes,
the lower offset first and a byte as a read-modify-write; elsewhere the byte store. -/
def memWriteWith (pw : Offset → Half → State → Res State) (w : Width) (a : Addr) (v : BitVec 32) (s : State) :
    Res State :=
  let a := w.align a
  match windowOffset s.cfg a, w with
  | some o, .byte =>
    let old := s.m.portRead o
    pw o (if o.getLsbD 0 then (old &&& 0x00FF) ||| ((v.setWidth 8).setWidth 16 <<< 8)
          else (old &&& 0xFF00) ||| (v.setWidth 8).setWidth 16) s
  | some o, .half => pw o (v.setWidth 16) s
  | some o, .word => andThen (pw o (v.setWidth 16) s) fun s => pw (o + 2) ((v >>> 16).setWidth 16) s
  | none, w => .next { s with mem := s.mem.write a v w.bytes }

end Sys2Proof.Machine
end

