-- ==== Sys2Proof/Machine/Bus.lean ====
section
/-! DEFINITION. The accesses of the memory collaborator (R7, R297, U18): each takes the next of its turns. In a plain turn
the byte store serves the access; in another, mem answers a read with data of its own and loses a write. The register
window is served by the port in every turn (R63). `EXT_IRQ` may arrive before and after the access (R133). -/

namespace Sys2Proof.Machine

/-- The turn of the next access. -/
def State.turn (s : State) : BusTurn := s.bus.headD BusTurn.plain

/-- The turn is taken, and the calls that come before the access arrive. -/
def State.startAccess (s : State) : State := arrive s.turn.before { s with bus := s.bus.tail }

/-- What the collaborator says instead of the byte store, if the access lies outside the register window. -/
def BusTurn.answerAt (t : BusTurn) (cfg : Config) (w : Width) (a : Addr) : Option (BitVec 32) :=
  match windowOffset cfg (w.align a) with
  | some _ => none
  | none => t.answer

/-- `mem.read` of a width: the data, and the state after the access. -/
def busRead (w : Width) (a : Addr) (s : State) : BitVec 32 × State :=
  let t := s.turn
  let s := s.startAccess
  (match t.answerAt s.cfg w a with
   | some v => w.clip v
   | none => memRead w a s, arrive t.after s)

/-- `mem.write` of a width, over the treatment of port writes. -/
def busWriteWith (pw : Offset → Half → State → Res State) (w : Width) (a : Addr) (v : BitVec 32) (s : State) :
    Res State :=
  let t := s.turn
  let s := s.startAccess
  andThen (match t.answerAt s.cfg w a with
    | some _ => .next s
    | none => memWriteWith pw w a v s) fun s => .next (arrive t.after s)

end Sys2Proof.Machine
end

