-- ==== Sys2Proof/Machine/Dma.lean ====
section
/-! DEFINITION. The DMA engine: `W.DMAcCNT_H` (R173), `EV.DMA_TRIGGER` (R174 to R180), `EV.DMA_COMPLETE` (R126), and
transfers into the register window (R183). -/

namespace Sys2Proof.Machine

/-- A write of DMAcCNT_H made by a unit of channel `ch`'s transfer (R183, U3): its two meaningless cases are
refused, any other is a port write; it starts no transfer, since with `RSN` ≠ 0 the trigger check finds nothing. -/
def controlWriteByUnit (ch c : Fin 4) (v : Half) (s : State) : Res State :=
  if c = ch then .refused .dmaWritesOwnControl
  else if arms s.m c v && dmaReason v == 0 then .refused .dmaNestedTransfer
  else .next (s.onBlock fun m => m.storeControl c v)

/-- The read of one unit (R176): one `MemRead`, or none and 0 in the open-bus case (R177). -/
def unitRead (w : Width) (src dst : Addr) (s : State) : BitVec 32 × State :=
  if openBus s.cfg src dst then (0, s)
  else
    let (v, s) := busRead w src s
    (v, s.emit (.memRead w src v))

/-- One unit (R176): its read, then one write of the same width. -/
def dmaUnit (ch : Fin 4) (w : Width) (src dst : Addr) (s : State) : Res State :=
  let (v, s) := unitRead w src dst s
  busWriteWith (portWriteWith (controlWriteByUnit ch)) w dst v (s.emit (.memWrite w dst v))

/-- `Transfer`, second part (R176): `n` units from `src`, `dst`; the cursors are written at the end. -/
def dmaUnits (ch : Fin 4) (p : Plan) : Nat → Addr → Addr → State → Res State
  | 0, src, dst, s => .next (s.onBlock fun m => m.setCursor ch ⟨src, dst⟩)
  | n + 1, src, dst, s =>
    andThen (dmaUnit ch p.width src dst s) fun s => dmaUnits ch p n (src + p.sstep) (dst + p.dstep) s

/-- After the transfer (R179, R180); `ctl` is the sample taken at its start. -/
def afterTransfer (ch : Fin 4) (reason : BitVec 2) (ctl : Half) (m : Block) : Block :=
  let fifo := isFifo ch reason
  let m :=
    if !fifo && (!ctl.getLsbD 9 || reason == 0) then m.setIo (dmaBase ch + 10) (m.dmaControl ch &&& 0x7FFF)
    else if !fifo && field ctl 5 2 == 3 then m.setCursor ch { m.cursor ch with dst := m.dad ch }
    else m
  m.raiseIfGated (ctl.getLsbD 14) (8 + ch.val)

/-- `Transfer(c, reason)` (R175 to R180): control, parameters and price are taken as they are at its start. -/
def transfer (ch : Fin 4) (reason : BitVec 2) (s : State) : Res State :=
  let ctl := s.m.dmaControl ch
  match s.m.plan ch reason with
  | none => .refused .dmaSourceStepReserved
  | some p =>
    let cost := s.m.dmaCost p
    andThen (dmaUnits ch p p.count p.src p.dst s) fun s =>
      .next (s.onBlock fun m => afterTransfer ch reason ctl { m with dmaStall := m.dmaStall + cost })

/-- The test of R174, read when the channel's turn comes. -/
def Block.triggered (m : Block) (reason : BitVec 2) (mask : BitVec 4) (c : Fin 4) : Bool :=
  mask.getLsbD c.val && dmaEnabled (m.dmaControl c) && dmaReason (m.dmaControl c) == reason

/-- One channel's turn (R174). -/
def triggerChannel (reason : BitVec 2) (mask : BitVec 4) (c : Fin 4) (s : State) : Res State :=
  if s.m.triggered reason mask c then transfer c reason s else .next s

/-- `CheckAndTrigger(reason, mask)` (R174): channels in ascending order, each to completion before the next. -/
def checkAndTrigger (reason : BitVec 2) (mask : BitVec 4) (s : State) : Res State :=
  andThen (triggerChannel reason mask 0 s) fun s =>
  andThen (triggerChannel reason mask 1 s) fun s =>
  andThen (triggerChannel reason mask 2 s) fun s =>
  triggerChannel reason mask 3 s

/-- `EV.DMA_TRIGGER` (R174). -/
def execEvDmaTrigger (reason : BitVec 2) (mask : BitVec 4) (s : State) : Res State := checkAndTrigger reason mask s

/-- `EV.DMA_COMPLETE` (R126): "it changes no state". -/
def execEvDmaComplete (s : State) : Res State := .next s

/-- `W.DMAcCNT_H` (R173): store, latch, and check the written channel for the immediate reason. -/
def writeCntH (c : Fin 4) (v : Half) (s : State) : Res State :=
  let stored := s.onBlock fun m => m.storeControl c v
  if arms s.m c v then checkAndTrigger 0 (1 <<< c.val) stored else .next stored

/-- `W.DMA0CNT_H` (R173). -/
def execWDma0CntH (v : Half) (s : State) : Res State := writeCntH 0 v s
/-- `W.DMA1CNT_H` (R173). -/
def execWDma1CntH (v : Half) (s : State) : Res State := writeCntH 1 v s
/-- `W.DMA2CNT_H` (R173). -/
def execWDma2CntH (v : Half) (s : State) : Res State := writeCntH 2 v s
/-- `W.DMA3CNT_H` (R173). -/
def execWDma3CntH (v : Half) (s : State) : Res State := writeCntH 3 v s

/-- `PortWrite(a, v)` (R230) as the CPU and the host issue it. -/
def portWrite (a : Offset) (v : Half) (s : State) : Res State := portWriteWith writeCntH a v s

/-- A write of the system space by the CPU (R63, R297), in a plain turn of the memory collaborator. -/
def memWrite (w : Width) (a : Addr) (v : BitVec 32) (s : State) : Res State := memWriteWith portWrite w a v s

/-- A write of the system space by the CPU, in the memory collaborator's next turn. -/
def busWrite (w : Width) (a : Addr) (v : BitVec 32) (s : State) : Res State := busWriteWith portWrite w a v s

end Sys2Proof.Machine
end

