-- ==== Sys2Proof/Machine/TimerEvents.lean ====
section
/-! DEFINITION. `EV.TIMER_STEP`: overflow, cascade and its effects (R203 to R205). -/

namespace Sys2Proof.Machine

/-- `audio.timerOverflow(i)` (R299): the next answer, 0 when none is left. -/
def signalAudio (i : Fin 4) (s : State) : State × BitVec 4 :=
  let answer := s.audio.headD 0
  ({ s with audio := s.audio.tail, trace := .audio i answer s.m.cycleCounter :: s.trace }, answer)

/-- `Overflow(i)` (R205): signal audio, raise the flag by the latched enable, ask for FIFO transfers. -/
def overflow (i : Fin 4) (s : State) : Res State :=
  let (s, answer) := signalAudio i s
  let s := s.onBlock fun m => m.raiseIfGated (m.timer i).irqEnable (3 + i.val)
  if answer ≠ 0 then checkAndTrigger 3 (answer &&& 0b0110) s else .next s

/-- What timer `i` counts in a sub-step, given whether its predecessor overflowed (R203, R204): the timer after it
and whether it overflows. -/
def tick (i : Fin 4) (reload : Half) (before : Bool) (t : Timer) : Timer × Bool :=
  if t.running then
    if casc i t then
      if before then
        if t.value + 1 = 0 then ({ t with value := reload }, true) else ({ t with value := t.value + 1 }, false)
      else (t, false)
    else if t.ticks = 0 then ({ t with ticks := t.ticks + cyclesFrom reload t.shift }, true)
    else (t, false)
  else (t, false)

/-- One turn of the loop of R203: the state after it and whether this timer overflowed. -/
def stepTimer (i : Fin 4) (before : Bool) (s : State) : Res (State × Bool) :=
  let (t, ovf) := tick i (s.m.reload i) before (s.m.timer i)
  let s := s.onBlock fun m => m.setTimer i t
  if ovf then andThen (overflow i s) fun s => .next (s, true) else .next (s, false)

/-- `TimerStep()` (R203): in index order, each overflow handed to the next timer. -/
def timerStep (s : State) : Res State :=
  andThen (stepTimer 0 false s) fun (s, ovf) =>
  andThen (stepTimer 1 ovf s) fun (s, ovf) =>
  andThen (stepTimer 2 ovf s) fun (s, ovf) =>
  andThen (stepTimer 3 ovf s) fun (s, _) => .next s

/-- `EV.TIMER_STEP` (R203). -/
def execEvTimerStep (s : State) : Res State := timerStep s

end Sys2Proof.Machine
end

