-- ==== Sys2Proof/Machine/Video.lean ====
section
/-! DEFINITION. The video timing state machine (R260 to R265). -/

namespace Sys2Proof.Machine

/-- `ModeLen(V)` (R41). -/
def modeLen : Mode → Nat
  | .drawing => DRAW_CYCLES
  | .hblank => HBLANK_CYCLES
  | .vblank => LINE_CYCLES

/-- `render.scanline(V.scanline, io)` (R265). -/
def requestRender (s : State) : State := s.emit (.render s.m.video.scanline s.m.io s.m.cycleCounter)

/-- The part of `HblankStart()` before its DMA trigger (R261). -/
def Block.enterHblank (m : Block) : Block :=
  let m := { m with video := { m.video with mode := .hblank, cim := 0 } }
  let m := m.setDispstat 0x0002
  m.raiseIfGated ((m.getIo 0x004).getLsbD 4) 1

/-- `EV.HBLANK_START` (R261). -/
def execEvHblankStart (s : State) : Res State :=
  checkAndTrigger 2 0xF ((requestRender s).onBlock Block.enterHblank)

/-- `LineEnd()` up to the choice of the next mode (R262): the flag, the line, the counter. -/
def Block.endLine (m : Block) : Block :=
  let m := m.clearDispstat 0x0002
  let m := { m with video := { m.video with scanline := m.video.scanline + 1, cim := 0 } }
  m.setVcount

/-- `LineEnd()` into vblank, before its DMA trigger (R262). -/
def Block.enterVblank (m : Block) : Block :=
  let m := { m with video := { m.video with mode := .vblank } }
  let m := m.setDispstat 0x0001
  let m := m.vcountCompare
  m.raiseIfGated ((m.getIo 0x004).getLsbD 3) 0

/-- `LineEnd()` into the next visible line (R262). -/
def Block.enterDrawing (m : Block) : Block :=
  let m := { m with video := { m.video with mode := .drawing } }
  m.vcountCompare

/-- `EV.LINE_END` (R262). -/
def execEvLineEnd (s : State) : Res State :=
  let s := s.onBlock Block.endLine
  if s.m.video.scanline = VBLANK_FIRST then checkAndTrigger 1 0xF (s.onBlock Block.enterVblank)
  else .next (s.onBlock Block.enterDrawing)

/-- `VblankLineEnd()` (R263). -/
def Block.endVblankLine (m : Block) : Block :=
  let m := { m with video := { m.video with cim := 0 } }
  let m :=
    if m.video.scanline = VBLANK_LAST then
      let m := { m with video := { m.video with scanline := 0, mode := .drawing } }
      m.clearDispstat 0x0001
    else { m with video := { m.video with scanline := m.video.scanline + 1 } }
  m.setVcount.vcountCompare

/-- `EV.VBLANK_LINE_END` (R263). -/
def execEvVblankLineEnd (s : State) : Res State := .next (s.onBlock Block.endVblankLine)

/-- `VideoEdge()` (R260). -/
def videoEdge (s : State) : Res State :=
  match s.m.video.mode with
  | .drawing => execEvHblankStart s
  | .hblank => execEvLineEnd s
  | .vblank => execEvVblankLineEnd s

end Sys2Proof.Machine
end

