-- ==== Sys2Proof/Machine/Scheduler.lean ====
section
/-! DEFINITION. The event scheduler: the CPU collaborator's instruction (R104, R296), the horizon, sub-step,
accounting, burst, pass and `RUN` (R120 to R131). -/

namespace Sys2Proof.Machine

/-! ## One CPU instruction (R104, R296) -/

/-- One act of a CPU instruction. A port operation at an offset of 0x400 or more is none of the block's (R64). -/
def runOp (op : CpuOp) (s : State) : Res State :=
  match op with
  | .w16 a v => if a.toNat < 0x400 then portWrite (a.setWidth 10) v s else .refused .offsetOutOfRange
  | .r16 a =>
    if a.toNat < 0x400 then
      let v := s.m.portRead (a.setWidth 10)
      .next ((returnValue (evenOffset (a.setWidth 10)).toNat v s).see (v.setWidth 32))
    else .refused .offsetOutOfRange
  | .write w a v => busWrite w a v s
  | .read w a =>
    let (v, s) := busRead w a s
    .next ((s.emit (.loaded w (w.align a) v)).see v)
  | .extIrq b => execExtIrq b s
  | .irqEn on => .next { s with cpu := { s.cpu with irqEnabled := on } }
  | .halt => .next { s with cpu := { s.cpu with halted := true } }
  | .jump t n =>
    .next (if t.holds s.cpu then { s with cpu := { s.cpu with script := s.cpu.script.drop n } } else s)
  | .skip _ _ | .cost _ => .next s

/-- How many acts an act passes over. -/
def CpuOp.skips (op : CpuOp) (c : Cpu) : Nat :=
  match op with
  | .skip t n => if t.holds c then n else 0
  | .w16 _ _ | .r16 _ | .write _ _ _ | .read _ _ | .extIrq _ | .irqEn _ | .halt | .jump _ _ | .cost _ => 0

/-- The instruction's cost after an act. -/
def CpuOp.price (op : CpuOp) (cost : Nat) : Nat :=
  match op with
  | .cost c => c
  | .w16 _ _ | .r16 _ | .write _ _ _ | .read _ _ | .extIrq _ | .irqEn _ | .halt | .jump _ _ | .skip _ _ => cost

/-- The acts of an instruction, in order, but for those passed over: the state after them and the cost. -/
def runOps : List CpuOp → (skip cost : Nat) → State → Res (State × Nat)
  | [], _, cost, s => .next (s, cost)
  | _ :: ops, skip + 1, cost, s => runOps ops skip cost s
  | op :: ops, 0, cost, s => andThen (runOp op s) fun s => runOps ops (op.skips s.cpu) (op.price cost) s

/-- `cpu.executeOne()`: the next instruction of the script, `INSN 1 { }` when none is left; its cost, 0 when fatal. -/
def executeOne (s : State) : Res (State × Nat) :=
  match s.cpu.script with
  | [] => .next (s, 1)
  | i :: rest => runOps i.ops 0 i.cost { s with cpu := { s.cpu with script := rest } }

/-! ## Horizon, sub-step, accounting -/

/-- The members of the horizon (R123); the video countdown is always one. -/
def Block.countdowns (m : Block) : List Nat :=
  [modeLen m.video.mode - m.video.cim]
  ++ ((List.finRange 4).filter fun i => freeRunning i (m.timer i)).map (fun i => (m.timer i).ticks)
  ++ (if m.dmaStall > 0 then [m.dmaStall] else [])
  ++ (match m.latch with
      | .pending k => [k]
      | .idle | .delivered => [])

/-- `Horizon()` (R123); `none` is infinity. -/
def Block.horizon (m : Block) : Option Nat := m.countdowns.min?

/-- `min(Horizon(), n)`. -/
def Block.capped (m : Block) (n : Nat) : Nat :=
  match m.horizon with
  | none => n
  | some h => min h n

/-- Where the cycles of a pass come from (R121). -/
inductive Source where
  | cpu
  | stall
  | halt
  deriving DecidableEq, Repr

/-- A countdown of a timer lowered by a span (R125). -/
def Timer.advance (i : Fin 4) (n : Nat) (t : Timer) : Timer :=
  if freeRunning i t then { t with ticks := t.ticks - n } else t

/-- The latch's countdown lowered by a span (R125). -/
def Latch.advance (n : Nat) : Latch → Latch
  | .idle => .idle
  | .pending k => .pending (k - n)
  | .delivered => .delivered

/-- Step 1 of a sub-step (R125): every countdown advances by `n` cycles. -/
def Block.advance (m : Block) (n : Nat) (src : Source) : Block :=
  { m with
    cycleCounter := m.cycleCounter + n
    video := { m.video with cim := m.video.cim + n }
    timers := m.timers.mapFinIdx fun i t h => t.advance ⟨i, h⟩ n
    latch := m.latch.advance n
    dmaStall := if src = .stall then m.dmaStall - n else m.dmaStall }

/-- Step 2 (R125). -/
def videoStep (s : State) : Res State :=
  if s.m.video.cim ≥ modeLen s.m.video.mode then videoEdge s else .next s

/-- Step 3 (R125, R126). -/
def completionStep (src : Source) (s : State) : Res State :=
  if src = .stall ∧ s.m.dmaStall = 0 then execEvDmaComplete s else .next s

/-- `SubStep(n, src)` (R125): advance, then video edge, DMA completion, timers, interrupt check. -/
def subStep (n : Nat) (src : Source) (s : State) : Res State :=
  andThen (videoStep (s.onBlock fun m => m.advance n src)) fun s =>
  andThen (completionStep src s) fun s =>
  andThen (timerStep s) execEvIrqCheck

/-- `Account` (R124) with a bound on its sub-steps: each is of at least one cycle. -/
def accountLoop (src : Source) : Nat → Nat → State → Res State
  | _, 0, s => .next s
  | 0, _ + 1, _ => .fault .noProgress
  | fuel + 1, rem + 1, s =>
    let n := s.m.capped (rem + 1)
    if n = 0 then .fault .noProgress
    else andThen (subStep n src s) (accountLoop src fuel (rem + 1 - n))

/-- `Account(n, src)` (R124). -/
def account (n : Nat) (src : Source) (s : State) : Res State := accountLoop src n n s

/-! ## Burst, pass, run -/

/-- How a pass ends. -/
inductive PassEnd where
  /-- It accounted that many cycles. -/
  | ran (n : Nat)
  | fatalTrap
  | earlyExit
  deriving DecidableEq, Repr

/-- What ends a burst besides its target (R122). -/
def burstBreak (s : State) : Bool :=
  decide (s.m.dmaStall > 0) || s.cpu.halted ||
    ((s.m.timer 0).pending || (s.m.timer 1).pending || (s.m.timer 2).pending || (s.m.timer 3).pending)

/-- The loop of `Burst` (R122), at most one turn a cycle: fetch, execute, evaluate, account. -/
def burstLoop (target : Nat) : Nat → Nat → State → Res (State × PassEnd)
  | 0, _, _ => .fault .noProgress
  | fuel + 1, consumed, s =>
    andThen (execEvInsnFetch s) fun s =>
    andThen (executeOne s) fun (s, c) =>
      if c = 0 then .next (s, .fatalTrap)
      else
        andThen (account c .cpu (irqEval s)) fun s =>
          if consumed + c ≥ target || burstBreak s then .next (s, .ran (consumed + c))
          else burstLoop target fuel (consumed + c) s

/-- `Burst(target)` (R122). -/
def burst (target : Nat) (s : State) : Res (State × PassEnd) := burstLoop target target 0 s

/-- The apply of one timer at the end of a pass (R130). -/
def applyPending (i : Fin 4) (s : State) : Res State :=
  if (s.m.timer i).pending then execEvTimerApply i s else .next s

/-- `EndOfPass()` (R130). -/
def endOfPass (s : State) : Res State :=
  andThen (applyPending 0 s) fun s =>
  andThen (applyPending 1 s) fun s =>
  andThen (applyPending 2 s) fun s =>
  applyPending 3 s

/-- A pass's cycles, then its deferred actions (R121). -/
def finishPass (n : Nat) (s : State) : Res (State × PassEnd) :=
  andThen (endOfPass s) fun s => .next (s, .ran n)

/-- `Pass(left)` (R121): a queued DMA cost first, then a halted CPU, then a burst. -/
def onePass (left : Nat) (s : State) : Res (State × PassEnd) :=
  if s.m.dmaStall > 0 then
    let n := min s.m.dmaStall left
    andThen (account n .stall s) (finishPass n)
  else if s.cpu.halted then
    match s.m.horizon with
    | none => .next (s, .earlyExit)
    | some h => andThen (account (min h left) .halt s) (finishPass (min h left))
  else
    andThen (burst (s.m.capped left) s) fun (s, e) =>
      match e with
      | .ran n => finishPass n s
      | .fatalTrap => .next (s, .fatalTrap)
      | .earlyExit => .next (s, .earlyExit)

/-- `RUN` (R120), at most one pass a cycle (R132). -/
def runLoop : Nat → Nat → State → Res State
  | _, 0, s => .next { s with result := .budgetExhausted }
  | 0, _ + 1, _ => .fault .noProgress
  | fuel + 1, left + 1, s =>
    andThen (onePass (left + 1) s) fun (s, e) =>
      match e with
      | .ran n => runLoop fuel (left + 1 - n) s
      | .fatalTrap => .next { s with result := .fatalTrap }
      | .earlyExit => .next { s with result := .earlyExit }

/-- `RUN(budget)` (R120). -/
def execRun (budget : Nat) (s : State) : Res State := runLoop budget budget s

end Sys2Proof.Machine
end

