-- ==== Sys2Proof/Machine/Dispatch.lean ====
section
/-! DEFINITION. One arm per operation. -/

namespace Sys2Proof.Machine

def exec (i : Instr) (s : State) : Host.Outcome State Fault Refusal :=
  match i with
  | .wDispstat v => Sys2Proof.Machine.execWDispstat v s
  | .wVcount v => Sys2Proof.Machine.execWVcount v s
  | .wDma0SadL v => Sys2Proof.Machine.execWDma0SadL v s
  | .wDma0SadH v => Sys2Proof.Machine.execWDma0SadH v s
  | .wDma0DadL v => Sys2Proof.Machine.execWDma0DadL v s
  | .wDma0DadH v => Sys2Proof.Machine.execWDma0DadH v s
  | .wDma0CntL v => Sys2Proof.Machine.execWDma0CntL v s
  | .wDma0CntH v => Sys2Proof.Machine.execWDma0CntH v s
  | .wDma1SadL v => Sys2Proof.Machine.execWDma1SadL v s
  | .wDma1SadH v => Sys2Proof.Machine.execWDma1SadH v s
  | .wDma1DadL v => Sys2Proof.Machine.execWDma1DadL v s
  | .wDma1DadH v => Sys2Proof.Machine.execWDma1DadH v s
  | .wDma1CntL v => Sys2Proof.Machine.execWDma1CntL v s
  | .wDma1CntH v => Sys2Proof.Machine.execWDma1CntH v s
  | .wDma2SadL v => Sys2Proof.Machine.execWDma2SadL v s
  | .wDma2SadH v => Sys2Proof.Machine.execWDma2SadH v s
  | .wDma2DadL v => Sys2Proof.Machine.execWDma2DadL v s
  | .wDma2DadH v => Sys2Proof.Machine.execWDma2DadH v s
  | .wDma2CntL v => Sys2Proof.Machine.execWDma2CntL v s
  | .wDma2CntH v => Sys2Proof.Machine.execWDma2CntH v s
  | .wDma3SadL v => Sys2Proof.Machine.execWDma3SadL v s
  | .wDma3SadH v => Sys2Proof.Machine.execWDma3SadH v s
  | .wDma3DadL v => Sys2Proof.Machine.execWDma3DadL v s
  | .wDma3DadH v => Sys2Proof.Machine.execWDma3DadH v s
  | .wDma3CntL v => Sys2Proof.Machine.execWDma3CntL v s
  | .wDma3CntH v => Sys2Proof.Machine.execWDma3CntH v s
  | .wTm0CntL v => Sys2Proof.Machine.execWTm0CntL v s
  | .wTm0CntH v => Sys2Proof.Machine.execWTm0CntH v s
  | .wTm1CntL v => Sys2Proof.Machine.execWTm1CntL v s
  | .wTm1CntH v => Sys2Proof.Machine.execWTm1CntH v s
  | .wTm2CntL v => Sys2Proof.Machine.execWTm2CntL v s
  | .wTm2CntH v => Sys2Proof.Machine.execWTm2CntH v s
  | .wTm3CntL v => Sys2Proof.Machine.execWTm3CntL v s
  | .wTm3CntH v => Sys2Proof.Machine.execWTm3CntH v s
  | .wIe v => Sys2Proof.Machine.execWIe v s
  | .wIf v => Sys2Proof.Machine.execWIf v s
  | .wWaitcnt v => Sys2Proof.Machine.execWWaitcnt v s
  | .wIme v => Sys2Proof.Machine.execWIme v s
  | .wOther a v => Sys2Proof.Machine.execWOther a v s
  | .rTm0CntL => Sys2Proof.Machine.execRTm0CntL s
  | .rTm1CntL => Sys2Proof.Machine.execRTm1CntL s
  | .rTm2CntL => Sys2Proof.Machine.execRTm2CntL s
  | .rTm3CntL => Sys2Proof.Machine.execRTm3CntL s
  | .rStored a => Sys2Proof.Machine.execRStored a s
  | .evHblankStart => Sys2Proof.Machine.execEvHblankStart s
  | .evLineEnd => Sys2Proof.Machine.execEvLineEnd s
  | .evVblankLineEnd => Sys2Proof.Machine.execEvVblankLineEnd s
  | .evDmaTrigger reason mask => Sys2Proof.Machine.execEvDmaTrigger reason mask s
  | .evDmaComplete => Sys2Proof.Machine.execEvDmaComplete s
  | .evTimerStep => Sys2Proof.Machine.execEvTimerStep s
  | .evIrqCheck => Sys2Proof.Machine.execEvIrqCheck s
  | .evTimerApply k => Sys2Proof.Machine.execEvTimerApply k s
  | .evInsnFetch => Sys2Proof.Machine.execEvInsnFetch s
  | .reset => Sys2Proof.Machine.execReset s
  | .run budget => Sys2Proof.Machine.execRun budget s
  | .extIrq b => Sys2Proof.Machine.execExtIrq b s
  | .save => Sys2Proof.Machine.execSave s
  | .load => Sys2Proof.Machine.execLoad s

end Sys2Proof.Machine
end

