-- ==== Sys2Proof/Machine/Step.lean ====
section
/-! DEFINITION. One step: the next command that waits, decoded and executed. -/

namespace Sys2Proof.Machine

/-- One step. With no command waiting nothing moves (R302, R72); else the next one is taken off the queue, decoded
and executed. -/
def step (s : State) : Host.Outcome State Fault Refusal :=
  match s.queue with
  | [] => .next s
  | w :: rest =>
    match decode w with
    | .ok i => exec i { s with queue := rest }
    | .error why => .refused (.undecodable why)

/-- The command that stands for a row's bits, placed where `step` takes its next one from. -/
def State.withFetchWord (s : State) (nbits w : Nat) : State := { s with queue := tableWord nbits w :: s.queue }

end Sys2Proof.Machine
end

