-- ==== Sys2Proof/Safety.lean ====
section
/-! DEFINITION. What counts as a good state: the invariants of R47, of `M` and of the whole state, and the few
predicates claims are stated with. -/

namespace Sys2Proof.Machine

/-! ## The invariants of R47 -/

/-- R47 of `M`. Clause (f) is the type of `dmaStall`, clause (i) the type of a timer's shift. -/
structure Block.Inv (cfg : Config) (m : Block) : Prop where
  /-- (a) -/
  cim : m.video.cim < modeLen m.video.mode
  /-- (b) -/
  line : m.video.scanline ≤ VBLANK_LAST
  /-- (b) -/
  mode : m.video.mode = .vblank ↔ VBLANK_FIRST ≤ m.video.scanline
  /-- (c) -/
  vbl : (m.getIo 0x004).getLsbD 0 = true ↔ m.video.mode = .vblank
  /-- (c) -/
  hbl : (m.getIo 0x004).getLsbD 1 = true ↔ m.video.mode = .hblank
  /-- (c) -/
  vcount : m.getIo 0x006 = BitVec.ofNat 16 m.video.scanline
  /-- (c) -/
  dispstat : m.getIo 0x004 &&& 0x00C0 = 0
  /-- (d) -/
  ticks : ∀ i, freeRunning i (m.timer i) = true → 1 ≤ (m.timer i).ticks ∧ (m.timer i).ticks ≤ 0x10000 * 2 ^ 10
  /-- (e) -/
  latch : ∀ k, m.latch = .pending k → 1 ≤ k ∧ k ≤ IRQ_LATENCY
  /-- (g) -/
  masks : ∀ a < 0x400, a % 2 = 0 → a ∉ [0x004, 0x006, 0x202] → m.getIo a &&& ~~~writeMask cfg a = 0
  /-- (g) -/
  flags : m.getIo 0x202 &&& 0xC000 = 0
  /-- (h) -/
  wt : m.wt = waitDecode cfg.waitDecoder (m.getIo 0x204)

/-- A command that asks the scheduler's own events of the block; only a test harness issues one (R133: "Events are
dispatched only by rules R125 and R130"). -/
def isEvent : Instr → Bool
  | .evHblankStart | .evLineEnd | .evVblankLineEnd | .evDmaTrigger _ _ | .evDmaComplete => true
  | .evTimerStep | .evIrqCheck | .evTimerApply _ | .evInsnFetch => true
  | .wDispstat _ | .wVcount _ => false
  | .wDma0SadL _ | .wDma0SadH _ | .wDma0DadL _ | .wDma0DadH _ | .wDma0CntL _ | .wDma0CntH _ => false
  | .wDma1SadL _ | .wDma1SadH _ | .wDma1DadL _ | .wDma1DadH _ | .wDma1CntL _ | .wDma1CntH _ => false
  | .wDma2SadL _ | .wDma2SadH _ | .wDma2DadL _ | .wDma2DadH _ | .wDma2CntL _ | .wDma2CntH _ => false
  | .wDma3SadL _ | .wDma3SadH _ | .wDma3DadL _ | .wDma3DadH _ | .wDma3CntL _ | .wDma3CntH _ => false
  | .wTm0CntL _ | .wTm0CntH _ | .wTm1CntL _ | .wTm1CntH _ => false
  | .wTm2CntL _ | .wTm2CntH _ | .wTm3CntL _ | .wTm3CntH _ => false
  | .wIe _ | .wIf _ | .wWaitcnt _ | .wIme _ | .wOther _ _ => false
  | .rTm0CntL | .rTm1CntL | .rTm2CntL | .rTm3CntL | .rStored _ => false
  | .reset | .run _ | .extIrq _ | .save | .load => false

/-- The invariant of the whole state: R7's assumption of the parameters, R47 of `M` and of the savestate in the host's
hands, the byte stores in canonical form, and no waiting command that is an event. -/
structure State.Inv (s : State) : Prop where
  cfg : s.cfg.wf
  m : s.m.Inv s.cfg
  mem : s.mem.wf = true
  fileM : s.file.m.Inv s.cfg
  fileMem : s.file.mem.wf = true
  commands : ∀ w ∈ s.queue, ∀ i, decode w = .ok i → isEvent i = false

/-- R129: "A model should treat the state after `FatalTrap` as faulted"; the other results are good. -/
def State.trapped (s : State) : Bool := s.result == .fatalTrap

/-! ## Words for claims -/

/-- No DMA channel has its enable bit set. -/
def Block.noneArmed (m : Block) : Prop := ∀ c, dmaEnabled (m.dmaControl c) = false

/-- Every byte a planned transfer stores to lies outside the register window. -/
def Plan.outside (cfg : Config) (p : Plan) : Prop :=
  ∀ j < p.count, windowOffset cfg (p.dst + BitVec.ofNat 32 j * p.dstep) = none

/-- The accesses of `mem` that one unit makes: a write, and a read before it but in the open-bus case (R176, R177). -/
def unitAccesses (cfg : Config) (src dst : Addr) : Nat := if openBus cfg src dst then 1 else 2

/-- The accesses of `mem` that a planned transfer makes. -/
def Plan.accesses (cfg : Config) (p : Plan) : Nat :=
  ((List.range p.count).map fun j =>
    unitAccesses cfg (p.src + BitVec.ofNat 32 j * p.sstep) (p.dst + BitVec.ofNat 32 j * p.dstep)).sum

/-- Every register entry but those at `offs` reads as before. -/
def sameEntries (offs : List Nat) (s t : State) : Prop :=
  ∀ a < 0x400, a % 2 = 0 → a ∉ offs → t.m.getIo a = s.m.getIo a

/-- Every byte of memory reads as before. -/
def sameBytes (s t : State) : Prop := ∀ b, t.mem.get b = s.mem.get b

/-- `t` is `s` but for register entries, and of those only the entries at `offs` may differ. -/
def onlyIo (offs : List Nat) (s t : State) : Prop :=
  t = { s with m := { s.m with io := t.m.io } } ∧ sameEntries offs s t ∧ sameBytes s t

/-- The address of byte `k` of unit `j` of a transfer that began at `base` with steps of `step`. -/
def unitByte (base step : Addr) (j k : Nat) : Nat :=
  (base + BitVec.ofNat 32 j * step + BitVec.ofNat 32 k).toNat

/-- The cycles, newest first, at which a record says that timer `i` overflowed: audio is told of every overflow
(R205). -/
def overflowTimes (i : Fin 4) (record : List Event) : List Nat :=
  record.filterMap fun e => match e with
    | .audio j _ cycle => if j = i then some cycle else none
    | .returned _ _ | .loaded _ _ _ | .memRead _ _ _ | .memWrite _ _ _ | .render _ _ _ | .interrupt _ => none

/-- The timers, newest first, whose overflows a record holds. -/
def overflowOrder (record : List Event) : List (Fin 4) :=
  record.filterMap fun e => match e with
    | .audio j _ _ => some j
    | .returned _ _ | .loaded _ _ _ | .memRead _ _ _ | .memWrite _ _ _ | .render _ _ _ | .interrupt _ => none

/-- The width and address of a DMA unit's write, where an event is one. -/
def Event.unitWrite : Event → Option (Width × Addr)
  | .memWrite w a _ => some (w, a)
  | .returned _ _ | .loaded _ _ _ | .memRead _ _ _ | .render _ _ _ | .audio _ _ _ | .interrupt _ => none

/-- The width and address of a DMA unit's read, where an event is one. -/
def Event.unitRead : Event → Option (Width × Addr)
  | .memRead w a _ => some (w, a)
  | .returned _ _ | .loaded _ _ _ | .memWrite _ _ _ | .render _ _ _ | .audio _ _ _ | .interrupt _ => none

/-- The position in the frame (R266): cycles since the first cycle of line 0. -/
def framePos (v : Video) : Nat :=
  LINE_CYCLES * v.scanline + (if v.mode = .hblank then DRAW_CYCLES else 0) + v.cim

/-- The cycles of a frame (R333). -/
abbrev FRAME_CYCLES : Nat := 280896

end Sys2Proof.Machine
end

