-- ==== Sys2Proof/Certificates/Slice0/Obligations.lean ====
section
/-! DEFINITION. The statements for the provers. Each is about every state (and so about every value of every parameter
of R7) unless its hypotheses say otherwise. Where a statement speaks of `trace` it is the model's record of what the block
hands out (log entry 4), of `mem` and `bus` the memory collaborator's bytes and turns (log entry 2), of `audio` the list of
answers (log entry 3), of `cpu` the CPU collaborator as data (log entry 1), of `result`, `file` and `cartId` the model's
host interface (log entry 9). -/

open Sys2Proof Sys2Proof.Machine

/-! ## Encoding -/

/-- R90 to R92 (the words of events and host calls are log entry 6's): decoding the word of a well-formed operation gives
the operation back, with every operand at every value. -/
def Obligations.DecodeOfEncodeIsTheOperation : Prop :=
  ∀ i : Instr, i.wellFormed = true → decode (encode i) = .ok i

/-- R90, R91 (log entry 6): a number that decodes is the word of what it decodes to, but that a port command may have
the ignored bit 0 of its offset set; what it decodes to is well-formed but for a source number of `EXT_IRQ` above 13. -/
def Obligations.DecodedWordIsTheEncoding : Prop :=
  ∀ (w : Nat) (i : Instr), decode w = .ok i →
    (w = encode i ∨ w = encode i + 2 ^ 16) ∧ (i.wellFormed = true ∨ ∃ b, i = .extIrq b ∧ 13 < b.toNat)

/-- The command words of 95_test_vectors.md's programs, and words written out from R90, decode to the operations they
stand for. -/
def Obligations.SpecCommandWordsDecode : Prop :=
  decode 0x6000008 = .ok (.wIe 0x0008) ∧ decode 0x6080001 = .ok (.wIme 0x0001) ∧
  decode 0x500FFF0 = .ok (.wTm0CntL 0xFFF0) ∧ decode 0x50200C0 = .ok (.wTm0CntH 0x00C0) ∧
  decode 0x4D60200 = .ok (.wDma3SadH 0x0200) ∧ decode 0x4DEC400 = .ok (.wDma3CntH 0xC400) ∧
  decode 0x0DE0000 = .ok (.rStored 0x0DE) ∧ decode 0x4040028 = .ok (.wDispstat 0x0028) ∧
  decode 0x50600C4 = .ok (.wTm1CntH 0x00C4) ∧ decode 0x4BAA260 = .ok (.wDma0CntH 0xA260) ∧
  decode 0x1000000 = .ok .rTm0CntL ∧ decode 0x4001234 = .ok (.wOther 0x000 0x1234)

/-- R230, R231, R91, R64: a port write at an offset is the write operation the offset selects, a port read the read
operation, and bit 0 of the offset is ignored by both. And the port acts of a CPU instruction (R104): at an offset below
0x400 `W16` is the write operation that the offset selects and `R16` the read operation, whose value the CPU has then read
(log entry 1); at an offset of 0x400 or more neither is an operation of the block and the model refuses it (R64). -/
def Obligations.PortOperationIsTheOneItsOffsetSelects : Prop :=
  (∀ (a : Offset) (v : Half) (s : State),
    portWrite a v s = exec (selectWrite a v) s ∧
    exec (selectRead a) s = .next { s with trace := .returned (a &&& 0x3FE).toNat (s.m.portRead a) :: s.trace } ∧
    selectWrite (a ||| 1) v = selectWrite (a &&& 0x3FE) v ∧ selectRead (a ||| 1) = selectRead (a &&& 0x3FE) ∧
    s.m.portRead (a ||| 1) = s.m.portRead (a &&& 0x3FE)) ∧
  ∀ (a : BitVec 16) (v : Half) (s : State),
    (a.toNat < 0x400 →
      runOp (.w16 a v) s = exec (selectWrite (a.setWidth 10) v) s ∧
      runOp (.r16 a) s = andThen (exec (selectRead (a.setWidth 10)) s) fun t =>
        .next { t with cpu := { t.cpu with seen := (s.m.portRead (a.setWidth 10)).setWidth 32 :: s.cpu.seen } }) ∧
    (0x400 ≤ a.toNat → runOp (.w16 a v) s = .refused .offsetOutOfRange ∧ runOp (.r16 a) s = .refused .offsetOutOfRange)

/-- R302, R72, R104 (log entry 6): a step runs the decoded operation of the next command that waits, on the state without
that command; with none waiting nothing moves; a command that is no operation is refused. -/
def Obligations.StepRunsTheDecodedOperation : Prop :=
  ∀ s : State,
    (s.queue = [] → step s = .next s) ∧
    ∀ w rest, s.queue = w :: rest →
      (∀ i, decode w = .ok i → step s = exec i { s with queue := rest }) ∧
      ∀ why, decode w = .error why → step s = .refused (.undecodable why)

/-! ## Registers -/

/-- R232. -/
def Obligations.DispstatWriteKeepsItsFlags : Prop :=
  ∀ (v : Half) (s : State), ∃ t, exec (.wDispstat v) s = .next t ∧
    t.m.getIo 0x004 = (s.m.getIo 0x004 &&& 0x0007) ||| (v &&& 0xFF38) ∧ onlyIo [0x004] s t

/-- R233. -/
def Obligations.VcountWriteChangesNothing : Prop :=
  ∀ (v : Half) (s : State), exec (.wVcount v) s = .next s

/-- R170: both halves, every channel; the cursors and all else stay. -/
def Obligations.DmaSourceWriteStoresUnderItsMask : Prop :=
  ∀ (c : Fin 4) (v : Half) (s : State),
    (∃ t, exec (pick c (.wDma0SadL v) (.wDma1SadL v) (.wDma2SadL v) (.wDma3SadL v)) s = .next t ∧
      t.m.getIo (0x0B0 + 12 * c.val) = v ∧ onlyIo [0x0B0 + 12 * c.val] s t) ∧
    ∃ t, exec (pick c (.wDma0SadH v) (.wDma1SadH v) (.wDma2SadH v) (.wDma3SadH v)) s = .next t ∧
      t.m.getIo (0x0B0 + 12 * c.val + 2) = v &&& (if c = 0 then 0x07FF else 0x0FFF) ∧
      onlyIo [0x0B0 + 12 * c.val + 2] s t

/-- R171: both halves, every channel; the cursors and all else stay. -/
def Obligations.DmaDestinationWriteStoresUnderItsMask : Prop :=
  ∀ (c : Fin 4) (v : Half) (s : State),
    (∃ t, exec (pick c (.wDma0DadL v) (.wDma1DadL v) (.wDma2DadL v) (.wDma3DadL v)) s = .next t ∧
      t.m.getIo (0x0B0 + 12 * c.val + 4) = v ∧ onlyIo [0x0B0 + 12 * c.val + 4] s t) ∧
    ∃ t, exec (pick c (.wDma0DadH v) (.wDma1DadH v) (.wDma2DadH v) (.wDma3DadH v)) s = .next t ∧
      t.m.getIo (0x0B0 + 12 * c.val + 6) = v &&& (if c = 3 then 0x0FFF else 0x07FF) ∧
      onlyIo [0x0B0 + 12 * c.val + 6] s t

/-- R172, every channel; and R98: what the stored count then stands for. -/
def Obligations.DmaCountWriteStoresUnderItsMask : Prop :=
  ∀ (c : Fin 4) (v : Half) (s : State),
    ∃ t, exec (pick c (.wDma0CntL v) (.wDma1CntL v) (.wDma2CntL v) (.wDma3CntL v)) s = .next t ∧
      t.m.getIo (0x0B0 + 12 * c.val + 8) = v &&& (if c = 3 then 0xFFFF else 0x3FFF) ∧
      onlyIo [0x0B0 + 12 * c.val + 8] s t ∧
      t.m.count c = (if t.m.getIo (0x0B0 + 12 * c.val + 8) = 0 then (if c = 3 then 0x10000 else 0x4000)
        else (t.m.getIo (0x0B0 + 12 * c.val + 8)).toNat)

/-- R200, every timer. -/
def Obligations.TimerReloadWriteChangesTheReloadAlone : Prop :=
  ∀ (i : Fin 4) (v : Half) (s : State),
    ∃ t, exec (pick i (.wTm0CntL v) (.wTm1CntL v) (.wTm2CntL v) (.wTm3CntL v)) s = .next t ∧
      t.m.getIo (0x100 + 4 * i.val) = v ∧ onlyIo [0x100 + 4 * i.val] s t

/-- R201, every timer: the entry changes at once, the timer only marks the write as waiting. -/
def Obligations.TimerControlWriteIsDeferred : Prop :=
  ∀ (i : Fin 4) (v : Half) (s : State),
    ∃ t, exec (pick i (.wTm0CntH v) (.wTm1CntH v) (.wTm2CntH v) (.wTm3CntH v)) s = .next t ∧
      t.m.getIo (0x102 + 4 * i.val) = v &&& 0x00C7 ∧
      (∀ j, t.m.timer j = if j = i then { s.m.timer i with pending := true } else s.m.timer j) ∧
      t = { s with m := { s.m with io := t.m.io, timers := t.m.timers } } ∧
      sameEntries [0x102 + 4 * i.val] s t ∧ sameBytes s t

/-- R206, R36, every timer: the read hands out the visible count, never the entry, and changes nothing else. -/
def Obligations.TimerCountReadReturnsTheVisibleCount : Prop :=
  ∀ (i : Fin 4) (s : State),
    exec (pick i .rTm0CntL .rTm1CntL .rTm2CntL .rTm3CntL) s =
      .next { s with
        trace := .returned (0x100 + 4 * i.val)
          (if (s.m.timer i).running = true ∧ ¬(i ≠ 0 ∧ (s.m.timer i).cascade = true) then
            BitVec.ofInt 16 (0xFFFF - ((s.m.timer i).ticks / 2 ^ (s.m.timer i).shift.shift : Nat))
          else (s.m.timer i).value) :: s.trace }

/-- R206's corner case: free-running, no prescaler, `k` cycles after a start or an overflow with reload `r`. -/
def Obligations.VisibleCountRunsFromReloadMinusOne : Prop :=
  ∀ (m : Block) (i : Fin 4) (r : Half) (k : Nat), freeRunning i (m.timer i) = true → (m.timer i).shift = .by1 →
    k < 0x10000 - r.toNat → (m.timer i).ticks = 0x10000 - r.toNat - k →
    m.visible i = r - 1 + BitVec.ofNat 16 k

/-- R150: the enable mask, and the latch armed at once where the condition holds. -/
def Obligations.IeWriteStoresAndEvaluates : Prop :=
  ∀ (v : Half) (s : State), ∃ t, exec (.wIe v) s = .next t ∧
    t.m.getIo 0x200 = v &&& 0x3FFF ∧
    t.m.latch = (if s.m.latch = .idle ∧ (s.m.getIo 0x208).getLsbD 0 = true ∧
        (v &&& 0x3FFF) &&& s.m.getIo 0x202 ≠ 0 ∧ s.cpu.irqEnabled = true then .pending 7 else s.m.latch) ∧
    t = { s with m := { s.m with io := t.m.io, latch := t.m.latch } } ∧ sameEntries [0x200] s t ∧ sameBytes s t

/-- R151: a write clears the flags it names and sets none; the latch stays. -/
def Obligations.IfWriteClearsFlagsOnly : Prop :=
  ∀ (v : Half) (s : State), ∃ t, exec (.wIf v) s = .next t ∧
    (∀ b, (t.m.getIo 0x202).getLsbD b = ((s.m.getIo 0x202).getLsbD b && !v.getLsbD b)) ∧
    t.m.getIo 0x202 = s.m.getIo 0x202 ^^^ (v &&& s.m.getIo 0x202) ∧ onlyIo [0x202] s t

/-- R152: the master enable, and the latch armed at once where the condition holds. -/
def Obligations.ImeWriteStoresAndEvaluates : Prop :=
  ∀ (v : Half) (s : State), ∃ t, exec (.wIme v) s = .next t ∧
    t.m.getIo 0x208 = v &&& 0x0001 ∧
    t.m.latch = (if s.m.latch = .idle ∧ v.getLsbD 0 = true ∧
        s.m.getIo 0x200 &&& s.m.getIo 0x202 ≠ 0 ∧ s.cpu.irqEnabled = true then .pending 7 else s.m.latch) ∧
    t = { s with m := { s.m with io := t.m.io, latch := t.m.latch } } ∧ sameEntries [0x208] s t ∧ sameBytes s t

/-- R234: the masked store, and all four tables decoded anew from the stored value. -/
def Obligations.WaitcntWriteDecodesTheTables : Prop :=
  ∀ (v : Half) (s : State), ∃ t, exec (.wWaitcnt v) s = .next t ∧
    t.m.getIo 0x204 = v &&& 0x5FFF ∧ t.m.wt = waitDecode s.cfg.waitDecoder (v &&& 0x5FFF) ∧
    t = { s with m := { s.m with io := t.m.io, wt := t.m.wt } } ∧ sameEntries [0x204] s t ∧ sameBytes s t

/-- R235: storage under the parameter's mask at every even offset outside the CORE set; at any other operand the row has
no meaning (log entry 14). -/
def Obligations.OtherWriteIsStorage : Prop :=
  ∀ (a : Offset) (v : Half) (s : State),
    (a.toNat % 2 = 0 ∧ a.toNat ∉ coreOffsets → ∃ t, exec (.wOther a v) s = .next t ∧
      t.m.getIo a.toNat = v &&& otherMask s.cfg a.toNat ∧ onlyIo [a.toNat] s t) ∧
    (¬(a.toNat % 2 = 0 ∧ a.toNat ∉ coreOffsets) → exec (.wOther a v) s = .refused .offsetOfAnotherRow)

/-- R236: the stored entry at every even offset but the four counts'; at any other operand the row has no meaning (log
entry 14). -/
def Obligations.StoredReadReturnsTheEntry : Prop :=
  ∀ (a : Offset) (s : State),
    (a.toNat % 2 = 0 ∧ a.toNat ∉ [0x100, 0x104, 0x108, 0x10C] →
      exec (.rStored a) s = .next { s with trace := .returned a.toNat (s.m.getIo a.toNat) :: s.trace }) ∧
    (¬(a.toNat % 2 = 0 ∧ a.toNat ∉ [0x100, 0x104, 0x108, 0x10C]) →
      exec (.rStored a) s = .refused .offsetOfAnotherRow)

/-- R63: how accesses of other widths reach the register window. -/
def Obligations.WindowAccessesSplitAndJoin : Prop :=
  ∀ (a b : Offset) (v : BitVec 32) (s : State), s.cfg.wf → a.toNat % 4 = 0 →
    (memWrite .word (s.cfg.ioBase + a.setWidth 32) v s =
      andThen (portWrite a (v.extractLsb' 0 16) s) fun s => portWrite (a + 2) (v.extractLsb' 16 16) s) ∧
    memRead .word (s.cfg.ioBase + a.setWidth 32) s = s.m.portRead (a + 2) ++ s.m.portRead a ∧
    (memWrite .byte (s.cfg.ioBase + b.setWidth 32) v s =
      portWrite b (if b.getLsbD 0 = false then (s.m.portRead b &&& 0xFF00) ||| (v &&& 0xFF).setWidth 16
        else (s.m.portRead b &&& 0x00FF) ||| ((v &&& 0xFF).setWidth 16 <<< 8)) s) ∧
    memRead .byte (s.cfg.ioBase + b.setWidth 32) s =
      (if b.getLsbD 0 = false then (s.m.portRead b).extractLsb' 0 8 else (s.m.portRead b).extractLsb' 8 8).setWidth 32

/-! ## Interrupts -/

/-- R155 with R154, R288: expiry, delivery by exactly one call, or cancellation; then arming. What the CPU does with the
call is its next entry's, or with none left ScriptCPU's (R104, log entry 1). -/
def Obligations.IrqCheckDeliversCancelsOrArms : Prop :=
  ∀ s : State,
    (s.m.latch = .pending 0 ∧ s.m.deliverable s.cpu.irqEnabled = true →
      exec .evIrqCheck s = .next { s with
        m := { s.m with latch := .delivered }
        cpu := s.cpu.vector
        trace := .interrupt s.m.cycleCounter :: s.trace }) ∧
    (s.cpu.entries = [] → s.cpu.vector = { s.cpu with irqEnabled := false, halted := false }) ∧
    (∀ e rest, s.cpu.entries = e :: rest → s.cpu.vector = { s.cpu with
      script := e.handler ++ s.cpu.script, irqEnabled := e.irqEnabled, halted := false, entries := rest }) ∧
    (s.m.latch = .pending 0 ∧ s.m.deliverable s.cpu.irqEnabled = false →
      exec .evIrqCheck s = .next { s with m := { s.m with latch := .idle } }) ∧
    (s.m.latch = .idle ∧ s.m.deliverable s.cpu.irqEnabled = true →
      exec .evIrqCheck s = .next { s with m := { s.m with latch := .pending 7 } }) ∧
    (s.m.latch ≠ .pending 0 ∧ ¬(s.m.latch = .idle ∧ s.m.deliverable s.cpu.irqEnabled = true) →
      exec .evIrqCheck s = .next s) ∧
    (s.m.deliverable s.cpu.irqEnabled = true ↔ (s.m.getIo 0x208).getLsbD 0 = true ∧
      s.m.getIo 0x200 &&& s.m.getIo 0x202 ≠ 0 ∧ s.cpu.irqEnabled = true)

/-- R156. -/
def Obligations.InsnFetchLeavesDelivered : Prop :=
  ∀ s : State, exec .evInsnFetch s =
    .next { s with m := { s.m with latch := if s.m.latch = .delivered then .idle else s.m.latch } }

/-- R157: the flag, and the latch armed where the condition then holds; above 13 refused. -/
def Obligations.ExtIrqRaisesAndEvaluates : Prop :=
  ∀ (b : BitVec 4) (s : State),
    (b.toNat ≤ 13 → ∃ t, exec (.extIrq b) s = .next t ∧
      t.m.getIo 0x202 = s.m.getIo 0x202 ||| ((1 : Half) <<< b.toNat) ∧
      t.m.latch = (if s.m.latch = .idle ∧ (s.m.getIo 0x208).getLsbD 0 = true ∧
          s.m.getIo 0x200 &&& (s.m.getIo 0x202 ||| ((1 : Half) <<< b.toNat)) ≠ 0 ∧ s.cpu.irqEnabled = true
        then .pending 7 else s.m.latch) ∧
      t = { s with m := { s.m with io := t.m.io, latch := t.m.latch } } ∧ sameEntries [0x202] s t ∧ sameBytes s t) ∧
    (13 < b.toNat → exec (.extIrq b) s = .refused .extIrqOutOfRange)

/-- R323, R155: under the invariant, with the condition true, no DMA channel armed and `k` cycles of the latch left, the
next `k` cycles, whatever their source (R155: an instruction, a stall or a halt), end in the delivery, at exactly the
cycle `k` later; the CPU's own part is log entry 1's. -/
def Obligations.LatchDeliversAfterItsCycles : Prop :=
  ∀ (s : State) (k : Nat) (src : Source), s.m.Inv s.cfg → s.m.noneArmed → s.m.latch = .pending k →
    s.m.deliverable s.cpu.irqEnabled = true →
    ∃ t, account k src s = .next t ∧ t.m.latch = .delivered ∧ t.m.cycleCounter = s.m.cycleCounter + k ∧
      t.irqLog = s.irqLog ++ [s.m.cycleCounter + k] ∧ t.cpu = s.cpu.vector ∧
      t.m.getIo 0x200 = s.m.getIo 0x200 ∧ t.m.getIo 0x208 = s.m.getIo 0x208 ∧
      ∀ b, (s.m.getIo 0x202).getLsbD b = true → (t.m.getIo 0x202).getLsbD b = true

/-! ## DMA -/

/-- R173: the masked store; on `EN` 0 to 1 the cursors are latched and the channel's immediate trigger is checked, and
with `RSN` ≠ 0, as with no such change, nothing is transferred. -/
def Obligations.DmaControlWriteLatchesAndChecks : Prop :=
  ∀ (c : Fin 4) (v : Half) (s : State),
    ∃ u : State,
      u.m.getIo (0x0B0 + 12 * c.val + 10) = v &&& (if c = 3 then 0xFFE0 else 0xF7E0) ∧
      (∀ e, u.m.cursor e = if e = c ∧ (s.m.getIo (0x0B0 + 12 * c.val + 10)).getLsbD 15 = false ∧ v.getLsbD 15 = true
        then ⟨s.m.getIo (0x0B0 + 12 * c.val + 2) ++ s.m.getIo (0x0B0 + 12 * c.val),
          s.m.getIo (0x0B0 + 12 * c.val + 6) ++ s.m.getIo (0x0B0 + 12 * c.val + 4)⟩
        else s.m.cursor e) ∧
      u = { s with m := { s.m with io := u.m.io, cursors := u.m.cursors } } ∧
      sameEntries [0x0B0 + 12 * c.val + 10] s u ∧ sameBytes s u ∧
      (exec (pick c (.wDma0CntH v) (.wDma1CntH v) (.wDma2CntH v) (.wDma3CntH v)) s =
        if (s.m.getIo (0x0B0 + 12 * c.val + 10)).getLsbD 15 = false ∧ v.getLsbD 15 = true
        then exec (.evDmaTrigger 0 ((1 : BitVec 4) <<< c.val)) u else .next u) ∧
      (¬((s.m.getIo (0x0B0 + 12 * c.val + 10)).getLsbD 15 = false ∧ v.getLsbD 15 = true ∧ v &&& 0x3000 = 0) →
        exec (pick c (.wDma0CntH v) (.wDma1CntH v) (.wDma2CntH v) (.wDma3CntH v)) s = .next u)

/-- R174: a channel outside the mask, not enabled, or armed for another reason is not served. -/
def Obligations.TriggerLeavesOtherChannelsAlone : Prop :=
  ∀ (reason : BitVec 2) (mask : BitVec 4) (s : State),
    (∀ c : Fin 4, ¬(mask.getLsbD c.val = true ∧ (s.m.getIo (0x0B0 + 12 * c.val + 10)).getLsbD 15 = true ∧
      (s.m.getIo (0x0B0 + 12 * c.val + 10)).extractLsb' 12 2 = reason)) →
    exec (.evDmaTrigger reason mask) s = .next s

/-- R174: the channels of a trigger are served in ascending order, each to completion before the next, and each test is
made when the channel's turn comes. -/
def Obligations.TriggerServesChannelsInOrder : Prop :=
  ∀ (reason : BitVec 2) (mask : BitVec 4) (s : State),
    exec (.evDmaTrigger reason mask) s =
      andThen (exec (.evDmaTrigger reason (mask &&& 1)) s) fun s =>
      andThen (exec (.evDmaTrigger reason (mask &&& 2)) s) fun s =>
      andThen (exec (.evDmaTrigger reason (mask &&& 4)) s) fun s =>
      exec (.evDmaTrigger reason (mask &&& 8)) s

/-- R175, R98, R100, R180, R65, R284: what a trigger resolves to. -/
def Obligations.TransferPlanResolves : Prop :=
  ∀ (m : Block) (c : Fin 4) (reason : BitVec 2),
    (m.plan c reason = none ↔ (m.getIo (0x0B0 + 12 * c.val + 10)).extractLsb' 7 2 = 3) ∧
    ∀ p, m.plan c reason = some p →
      (p.width = if (reason = 3 ∧ (c = 1 ∨ c = 2)) ∨ (m.getIo (0x0B0 + 12 * c.val + 10)).getLsbD 10 = true
        then .word else .half) ∧
      (p.count = if reason = 3 ∧ (c = 1 ∨ c = 2) then 4 else
        if m.getIo (0x0B0 + 12 * c.val + 8) = 0 then (if c = 3 then 0x10000 else 0x4000)
        else (m.getIo (0x0B0 + 12 * c.val + 8)).toNat) ∧
      (1 ≤ p.count ∧ p.count ≤ 0x10000) ∧
      (p.sstep = if (m.getIo (0x0B0 + 12 * c.val + 10)).extractLsb' 7 2 = 0 then BitVec.ofNat 32 p.width.bytes else
        if (m.getIo (0x0B0 + 12 * c.val + 10)).extractLsb' 7 2 = 1 then -BitVec.ofNat 32 p.width.bytes else 0) ∧
      (p.dstep = if (reason = 3 ∧ (c = 1 ∨ c = 2)) ∨ (m.getIo (0x0B0 + 12 * c.val + 10)).extractLsb' 5 2 = 2 then 0 else
        if (m.getIo (0x0B0 + 12 * c.val + 10)).extractLsb' 5 2 = 1 then -BitVec.ofNat 32 p.width.bytes
        else BitVec.ofNat 32 p.width.bytes) ∧
      p.src.toNat = (m.cursor c).src.toNat / p.width.bytes * p.width.bytes ∧
      p.dst.toNat = (m.cursor c).dst.toNat / p.width.bytes * p.width.bytes

/-- U1 (R175): a trigger on one channel that holds `SRC` = 3 has no meaning and is refused. -/
def Obligations.ReservedSourceStepIsRefused : Prop :=
  ∀ (c : Fin 4) (reason : BitVec 2) (s : State),
    (s.m.getIo (0x0B0 + 12 * c.val + 10)).getLsbD 15 = true →
    (s.m.getIo (0x0B0 + 12 * c.val + 10)).extractLsb' 12 2 = reason →
    (s.m.getIo (0x0B0 + 12 * c.val + 10)).extractLsb' 7 2 = 3 →
    exec (.evDmaTrigger reason ((1 : BitVec 4) <<< c.val)) s = .refused .dmaSourceStepReserved

/-- R176, R177, R133: one unit outside the register window: one access of `mem` that reads and then one of the same width
that writes, or in the open-bus case no read and a write of 0 (U4: the spec's own zero, log entry 15). Each access takes
the collaborator's next turn: a plain turn is the byte store's, another answers the read or loses the write, and the
`EXT_IRQ` calls of a turn arrive before and after its access (log entry 2), each of them as the operation `EXT_IRQ`. -/
def Obligations.DmaUnitReadsThenWrites : Prop :=
  (∀ (ch : Fin 4) (w : Width) (src dst : Addr) (s : State), w.align dst = dst → windowOffset s.cfg dst = none →
    ∃ (v : BitVec 32) (u : State), dmaUnit ch w src dst s = .next (arrive u.turn.after
        { u.startAccess with mem := if u.turn.answer = none then u.startAccess.mem.write dst v w.bytes
                             else u.startAccess.mem }) ∧
      ((inCartSpace s.cfg src = true ∧ s.cfg.addrTopMax < dst.extractLsb' 24 8) →
        v = 0 ∧ u = { s with trace := .memWrite w dst 0 :: s.trace }) ∧
      (¬(inCartSpace s.cfg src = true ∧ s.cfg.addrTopMax < dst.extractLsb' 24 8) →
        v = (busRead w src s).1 ∧ u = { (busRead w src s).2 with
          trace := .memWrite w dst v :: .memRead w src v :: (busRead w src s).2.trace })) ∧
  (∀ (w : Width) (a : Addr) (s : State),
    (s.bus = [] → s.turn = ⟨none, [], []⟩ ∧ s.startAccess = s ∧ busRead w a s = (memRead w a s, s)) ∧
    ∀ turn rest, s.bus = turn :: rest → s.turn = turn ∧ s.startAccess = arrive turn.before { s with bus := rest } ∧
      busRead w a s = (match windowOffset s.cfg (w.align a), turn.answer with
          | none, some v => w.clip v
          | _, _ => memRead w a s.startAccess, arrive turn.after s.startAccess)) ∧
  ∀ (b : Fin 14) (bs : List (Fin 14)) (s : State), arrive [] s = s ∧
    exec (.extIrq (BitVec.ofNat 4 b.val)) s = .next (arrive [b] s) ∧ arrive (b :: bs) s = arrive bs (arrive [b] s)

/-- R174, R176, R178, R179, whatever the destinations: the event is the units of the first channel it serves, in ascending
order, each from the state the one before it left (the one-unit statements say what a unit does outside the window and in
it), then the channel's cursors, its cost, its enable bit, reload and flag, and then the event of the channels above it.
And where that channel is the only one and its destination lies outside the register window the event completes: one turn
of `mem` is taken for each read and each write, the cost is queued, the cursors are written, the enable bit and the flag
are treated as R179 says, and nothing else changes but the bytes of the units and what the `EXT_IRQ` calls of those turns
do (R133). -/
def Obligations.TransferOfOneChannelCompletes : Prop :=
  ∀ (c : Fin 4) (reason : BitVec 2) (mask : BitVec 4) (s : State) (p : Plan),
    s.m.triggered reason mask c = true → s.m.plan c reason = some p →
    let ctl : Half := s.m.getIo (0x0B0 + 12 * c.val + 10)
    let cost : Nat := match p.width with
      | .word => ((s.m.waitRow (region p.src)).seq32 + (s.m.waitRow (region p.dst)).seq32) * (p.count - 1) + 6 +
          (s.m.waitRow (region p.src)).wait32 + (s.m.waitRow (region p.dst)).seq32
      | .byte | .half => ((s.m.waitRow (region p.src)).seq16 + (s.m.waitRow (region p.dst)).seq16) * (p.count - 1) + 6 +
          (s.m.waitRow (region p.src)).wait16 + (s.m.waitRow (region p.dst)).seq16
    ((∀ e, e < c → s.m.triggered reason mask e = false) →
      ∃ after : State → State,
        exec (.evDmaTrigger reason mask) s =
          (andThen ((List.range p.count).foldl (fun r j => andThen r (dmaUnit c p.width
              (p.src + BitVec.ofNat 32 j * p.sstep) (p.dst + BitVec.ofNat 32 j * p.dstep))) (.next s)) fun u =>
            exec (.evDmaTrigger reason (mask &&& ((0b1110 : BitVec 4) <<< c.val))) (after u)) ∧
        ∀ u : State,
          (after u).m.dmaStall = u.m.dmaStall + cost ∧
          (after u).m.getIo (0x0B0 + 12 * c.val + 10) =
            (if ¬(reason = 3 ∧ (c = 1 ∨ c = 2)) ∧ (ctl.getLsbD 9 = false ∨ reason = 0)
              then u.m.getIo (0x0B0 + 12 * c.val + 10) &&& 0x7FFF else u.m.getIo (0x0B0 + 12 * c.val + 10)) ∧
          (after u).m.getIo 0x202 = (if ctl.getLsbD 14 = true
            then u.m.getIo 0x202 ||| ((1 : Half) <<< (8 + c.val)) else u.m.getIo 0x202) ∧
          (∀ e, (after u).m.cursor e = if e = c then
            ⟨p.src + BitVec.ofNat 32 p.count * p.sstep,
              if ¬(reason = 3 ∧ (c = 1 ∨ c = 2)) ∧ ctl.getLsbD 9 = true ∧ reason ≠ 0 ∧ ctl.extractLsb' 5 2 = 3
                then u.m.getIo (0x0B0 + 12 * c.val + 6) ++ u.m.getIo (0x0B0 + 12 * c.val + 4)
                else p.dst + BitVec.ofNat 32 p.count * p.dstep⟩
            else u.m.cursor e) ∧
          after u = { u with m := { u.m with
            io := (after u).m.io, cursors := (after u).m.cursors, dmaStall := (after u).m.dmaStall } } ∧
          sameEntries [0x0B0 + 12 * c.val + 10, 0x202] u (after u)) ∧
    ((∀ e, e ≠ c → s.m.triggered reason mask e = false) → p.outside s.cfg →
      ∃ t u, exec (.evDmaTrigger reason mask) s = .next t ∧
        u = arrive ((s.bus.take (p.accesses s.cfg)).flatMap fun turn => turn.before ++ turn.after) s ∧
        t.bus = s.bus.drop (p.accesses s.cfg) ∧
        t.m.dmaStall = s.m.dmaStall + cost ∧
        t.m.getIo (0x0B0 + 12 * c.val + 10) =
          (if ¬(reason = 3 ∧ (c = 1 ∨ c = 2)) ∧ (ctl.getLsbD 9 = false ∨ reason = 0) then ctl &&& 0x7FFF else ctl) ∧
        t.m.getIo 0x202 = (if ctl.getLsbD 14 = true
          then u.m.getIo 0x202 ||| ((1 : Half) <<< (8 + c.val)) else u.m.getIo 0x202) ∧
        t.m.latch = u.m.latch ∧
        (t.m.cursor c).src = p.src + BitVec.ofNat 32 p.count * p.sstep ∧
        (t.m.cursor c).dst =
          (if ¬(reason = 3 ∧ (c = 1 ∨ c = 2)) ∧ ctl.getLsbD 9 = true ∧ reason ≠ 0 ∧ ctl.extractLsb' 5 2 = 3
            then s.m.getIo (0x0B0 + 12 * c.val + 6) ++ s.m.getIo (0x0B0 + 12 * c.val + 4)
            else p.dst + BitVec.ofNat 32 p.count * p.dstep) ∧
        (∀ e, e ≠ c → t.m.cursor e = s.m.cursor e) ∧
        t = { s with
          m := { s.m with io := t.m.io, cursors := t.m.cursors, dmaStall := t.m.dmaStall, latch := t.m.latch }
          mem := t.mem
          bus := t.bus
          trace := t.trace } ∧
        sameEntries [0x0B0 + 12 * c.val + 10, 0x202] s t ∧
        ∀ b, (∀ j < p.count, ∀ k < p.width.bytes, unitByte p.dst p.dstep j k ≠ b) → t.mem.get b = s.mem.get b)

/-- R176: where `mem` leaves every access to the byte store (log entry 2), no unit is an open-bus one and the destination
units overlap neither each other nor a source unit, each destination unit afterwards reads as its source unit read before. -/
def Obligations.TransferMovesTheData : Prop :=
  ∀ (c : Fin 4) (reason : BitVec 2) (mask : BitVec 4) (s t : State) (p : Plan),
    s.m.triggered reason mask c = true → (∀ e, e ≠ c → s.m.triggered reason mask e = false) →
    s.m.plan c reason = some p → p.outside s.cfg → s.mem.wf = true → (∀ turn ∈ s.bus, turn.answer = none) →
    (∀ j < p.count, windowOffset s.cfg (p.src + BitVec.ofNat 32 j * p.sstep) = none) →
    (∀ j < p.count, openBus s.cfg (p.src + BitVec.ofNat 32 j * p.sstep) (p.dst + BitVec.ofNat 32 j * p.dstep) = false) →
    (∀ i < p.count, ∀ j < p.count, ∀ k < p.width.bytes, ∀ l < p.width.bytes,
      unitByte p.dst p.dstep i k ≠ unitByte p.src p.sstep j l) →
    (∀ i < p.count, ∀ j < p.count, i ≠ j → ∀ k < p.width.bytes, ∀ l < p.width.bytes,
      unitByte p.dst p.dstep i k ≠ unitByte p.dst p.dstep j l) →
    exec (.evDmaTrigger reason mask) s = .next t →
    ∀ j < p.count, memRead p.width (p.dst + BitVec.ofNat 32 j * p.dstep) t =
      memRead p.width (p.src + BitVec.ofNat 32 j * p.sstep) s

/-- R180, whatever the destination: a FIFO trigger of channel 1 or 2 is exactly four word units, from addresses one source
step apart to one and the same address, and keeps the channel enabled; its cost is that of four words, its destination
cursor stays. It completes where the destination lies outside the register window, and where it lies in the window and the
word is no control entry's (V33's FIFO). -/
def Obligations.FifoTriggerMovesFourWords : Prop :=
  ∀ (c : Fin 4) (s : State), c = 1 ∨ c = 2 →
    (s.m.getIo (0x0B0 + 12 * c.val + 10)).getLsbD 15 = true →
    (s.m.getIo (0x0B0 + 12 * c.val + 10)).extractLsb' 12 2 = 3 →
    (s.m.getIo (0x0B0 + 12 * c.val + 10)).extractLsb' 7 2 ≠ 3 →
    let ctl : Half := s.m.getIo (0x0B0 + 12 * c.val + 10)
    let src : Addr := Width.word.align (s.m.cursor c).src
    let dst : Addr := Width.word.align (s.m.cursor c).dst
    let step : Addr := if ctl.extractLsb' 7 2 = 0 then 4 else if ctl.extractLsb' 7 2 = 1 then -4 else 0
    let rs := s.m.waitRow (region src)
    let rd := s.m.waitRow (region dst)
    (∃ after : State → State,
      exec (.evDmaTrigger 3 ((1 : BitVec 4) <<< c.val)) s =
        (andThen (dmaUnit c .word src dst s) fun u =>
        andThen (dmaUnit c .word (src + step) dst u) fun u =>
        andThen (dmaUnit c .word (src + 2 * step) dst u) fun u =>
        andThen (dmaUnit c .word (src + 3 * step) dst u) fun u => .next (after u)) ∧
      ∀ u : State,
        (after u).m.dmaStall = u.m.dmaStall + ((rs.seq32 + rd.seq32) * 3 + 6 + rs.wait32 + rd.seq32) ∧
        (after u).m.getIo 0x202 = (if ctl.getLsbD 14 = true
          then u.m.getIo 0x202 ||| ((1 : Half) <<< (8 + c.val)) else u.m.getIo 0x202) ∧
        (∀ e, (after u).m.cursor e = if e = c then ⟨src + 4 * step, dst⟩ else u.m.cursor e) ∧
        after u = { u with m := { u.m with
          io := (after u).m.io, cursors := (after u).m.cursors, dmaStall := (after u).m.dmaStall } } ∧
        sameEntries [0x202] u (after u)) ∧
    (windowOffset s.cfg dst = none ∨
        (s.cfg.wf ∧ ∃ o, windowOffset s.cfg dst = some o ∧ ∀ e, Reg.ofOffset (o + 2) ≠ .cntH e) →
      ∃ t new, exec (.evDmaTrigger 3 ((1 : BitVec 4) <<< c.val)) s = .next t ∧ t.trace = new ++ s.trace ∧
        new.filterMap Event.unitWrite = List.replicate 4 (.word, dst) ∧
        t.m.getIo (0x0B0 + 12 * c.val + 10) = ctl ∧ t.m.cursor c = ⟨src + 4 * step, dst⟩)

/-- R65, R66: every access a trigger makes is of 16 or 32 bits and aligned to its width. -/
def Obligations.DmaAccessesAreAligned : Prop :=
  ∀ (reason : BitVec 2) (mask : BitVec 4) (s t : State), exec (.evDmaTrigger reason mask) s = .next t →
    ∃ new, t.trace = new ++ s.trace ∧
      ∀ w a, (w, a) ∈ new.filterMap Event.unitRead ++ new.filterMap Event.unitWrite →
        w ≠ .byte ∧ a.toNat % w.bytes = 0

/-- R183, R63, R177: a unit whose destination lies in the register window, of either width and with its data read or 0 in
the open-bus case. A halfword unit acts as the port write of its offset; a word unit as the port writes of its two halves,
the lower offset first. A control entry is written only by a halfword unit at its offset or by the upper half of a word
unit, and its two cases of U3 are refused (log entry 13: of a word unit, the whole). Each access takes `mem`'s next turn,
whose `EXT_IRQ` calls arrive before and after it (log entry 2). -/
def Obligations.UnitIntoTheWindowIsAPortWrite : Prop :=
  ∀ (ch : Fin 4) (w : Width) (src dst : Addr) (o : Offset) (s u : State) (v : BitVec 32), s.cfg.wf → w ≠ .byte →
    w.align dst = dst → windowOffset s.cfg dst = some o →
    ((openBus s.cfg src dst = true ∧ v = 0 ∧ u = { s with trace := .memWrite w dst 0 :: s.trace }) ∨
      (openBus s.cfg src dst = false ∧ v = (busRead w src s).1 ∧ u = { (busRead w src s).2 with
        trace := .memWrite w dst v :: .memRead w src v :: (busRead w src s).2.trace })) →
    let last : Offset := if w = .word then o + 2 else o
    let half : Half := if w = .word then v.extractLsb' 16 16 else v.extractLsb' 0 16
    let arms : Fin 4 → Prop := fun c =>
      (s.m.getIo (0x0B0 + 12 * c.val + 10)).getLsbD 15 = false ∧ half.getLsbD 15 = true ∧ half &&& 0x3000 = 0
    ((∀ c, Reg.ofOffset last ≠ .cntH c) ∨ (∃ c, c ≠ ch ∧ Reg.ofOffset last = .cntH c ∧ ¬arms c) →
      dmaUnit ch w src dst s =
        andThen (if w = .word then portWrite o (v.extractLsb' 0 16) u.startAccess else .next u.startAccess) fun x =>
        andThen (portWrite last half x) fun x => .next (arrive u.turn.after x)) ∧
    (Reg.ofOffset last = .cntH ch → dmaUnit ch w src dst s = .refused .dmaWritesOwnControl) ∧
    ∀ c, c ≠ ch → Reg.ofOffset last = .cntH c → arms c → dmaUnit ch w src dst s = .refused .dmaNestedTransfer

/-- R126: "it changes no state". -/
def Obligations.DmaCompletionChangesNothing : Prop := ∀ s : State, exec .evDmaComplete s = .next s

/-! ## Timers -/

/-- R202: the deferred apply latches every control field and starts, stops or carries the count over. -/
def Obligations.TimerApplyLatchesStartsAndStops : Prop :=
  ∀ (i : Fin 4) (s : State), ∃ t, exec (.evTimerApply i) s = .next t ∧
    (t.m.timer i).shift.shift =
      (if (s.m.getIo (0x102 + 4 * i.val)).extractLsb' 0 2 = 0 then 0 else
       if (s.m.getIo (0x102 + 4 * i.val)).extractLsb' 0 2 = 1 then 6 else
       if (s.m.getIo (0x102 + 4 * i.val)).extractLsb' 0 2 = 2 then 8 else 10) ∧
    (t.m.timer i).cascade = (s.m.getIo (0x102 + 4 * i.val)).getLsbD 2 ∧
    (t.m.timer i).irqEnable = (s.m.getIo (0x102 + 4 * i.val)).getLsbD 6 ∧
    (t.m.timer i).running = (s.m.getIo (0x102 + 4 * i.val)).getLsbD 7 ∧
    (t.m.timer i).pending = false ∧
    (t.m.timer i).value =
      (if (s.m.timer i).running = false ∧ (s.m.getIo (0x102 + 4 * i.val)).getLsbD 7 = true
        then s.m.getIo (0x100 + 4 * i.val) else
       if (s.m.timer i).running = true ∧ ((s.m.getIo (0x102 + 4 * i.val)).getLsbD 7 = false ∨
          (¬(i ≠ 0 ∧ (s.m.timer i).cascade = true) ∧ i ≠ 0 ∧ (s.m.getIo (0x102 + 4 * i.val)).getLsbD 2 = true))
        then s.m.visible i else (s.m.timer i).value) ∧
    (t.m.timer i).ticks =
      (if (s.m.timer i).running = false ∧ (s.m.getIo (0x102 + 4 * i.val)).getLsbD 7 = true
        then (0x10000 - (s.m.getIo (0x100 + 4 * i.val)).toNat) * 2 ^ (t.m.timer i).shift.shift else
       if (s.m.timer i).running = true ∧ (s.m.getIo (0x102 + 4 * i.val)).getLsbD 7 = true ∧
          i ≠ 0 ∧ (s.m.timer i).cascade = true ∧ (s.m.getIo (0x102 + 4 * i.val)).getLsbD 2 = false
        then (0x10000 - (s.m.timer i).value.toNat) * 2 ^ (t.m.timer i).shift.shift else (s.m.timer i).ticks) ∧
    (∀ j, j ≠ i → t.m.timer j = s.m.timer j) ∧
    t = { s with m := { s.m with timers := t.m.timers } } ∧ sameEntries [] s t ∧ sameBytes s t

/-- R203, R204, R205: with no DMA channel armed a timer step completes; who overflows, in index order with each overflow
handed to the next timer, what each timer holds afterwards, which flags are raised, and what audio is told and answers, in
that order. And whatever is armed, where one timer alone overflows: audio is told, the flag is raised, and a nonzero answer
of audio is then the trigger of reason 3 for the channels 1 and 2 among it. And whatever is armed and whoever overflows: the
step is the turns of the four timers in index order, each from the state the one before it left and told whether that one
overflowed; a turn without an overflow counts a cascaded timer whose predecessor overflowed and does nothing else; a turn
with one reloads, tells audio, raises the flag and makes the trigger, all before the next turn. -/
def Obligations.TimerStepOverflowsAndCascades : Prop :=
  (∀ s : State, s.m.noneArmed →
    ∃ (t : State) (ovf : Fin 4 → Bool), exec .evTimerStep s = .next t ∧
      (∀ i : Fin 4, ovf i = true ↔ (s.m.timer i).running = true ∧
        (if i ≠ 0 ∧ (s.m.timer i).cascade = true then ovf (i - 1) = true ∧ (s.m.timer i).value = 0xFFFF
          else (s.m.timer i).ticks = 0)) ∧
      (∀ i : Fin 4, t.m.timer i =
        if i ≠ 0 ∧ (s.m.timer i).cascade = true then
          (if ovf i = true then { s.m.timer i with value := s.m.getIo (0x100 + 4 * i.val) }
           else if (s.m.timer i).running = true ∧ ovf (i - 1) = true
            then { s.m.timer i with value := (s.m.timer i).value + 1 } else s.m.timer i)
        else if ovf i = true then { s.m.timer i with
            ticks := (0x10000 - (s.m.getIo (0x100 + 4 * i.val)).toNat) * 2 ^ (s.m.timer i).shift.shift }
          else s.m.timer i) ∧
      (∀ b, (t.m.getIo 0x202).getLsbD b = ((s.m.getIo 0x202).getLsbD b ||
        decide (∃ i : Fin 4, b = 3 + i.val ∧ ovf i = true ∧ (s.m.timer i).irqEnable = true))) ∧
      t.trace = ((([0, 1, 2, 3] : List (Fin 4)).filter ovf).mapIdx
        fun k i => Event.audio i (s.audio.getD k 0) s.m.cycleCounter).reverse ++ s.trace ∧
      t.audio = s.audio.drop (([0, 1, 2, 3] : List (Fin 4)).filter ovf).length ∧
      t = { s with
        m := { s.m with io := t.m.io, timers := t.m.timers }
        audio := t.audio
        trace := t.trace } ∧
      sameEntries [0x202] s t ∧ sameBytes s t) ∧
  (∀ (s : State) (i : Fin 4), freeRunning i (s.m.timer i) = true → (s.m.timer i).ticks = 0 →
    (∀ j, j ≠ i → (s.m.timer j).running = false ∨ (freeRunning j (s.m.timer j) = true ∧ (s.m.timer j).ticks ≠ 0)) →
    ∃ u : State,
      (∀ j, u.m.timer j = if j = i then { s.m.timer i with
        ticks := (0x10000 - (s.m.getIo (0x100 + 4 * i.val)).toNat) * 2 ^ (s.m.timer i).shift.shift } else s.m.timer j) ∧
      u.m.getIo 0x202 = (if (s.m.timer i).irqEnable = true then s.m.getIo 0x202 ||| ((1 : Half) <<< (3 + i.val))
        else s.m.getIo 0x202) ∧
      u = { s with
        m := { s.m with io := u.m.io, timers := u.m.timers }
        audio := s.audio.tail
        trace := .audio i (s.audio.headD 0) s.m.cycleCounter :: s.trace } ∧
      sameEntries [0x202] s u ∧
      exec .evTimerStep s = if s.audio.headD 0 ≠ 0 then exec (.evDmaTrigger 3 (s.audio.headD 0 &&& 0b0110)) u else .next u) ∧
  ∃ turn : Fin 4 → Bool → State → Res (State × Bool),
    (∀ s : State, exec .evTimerStep s =
      andThen (turn 0 false s) fun (s, ovf) =>
      andThen (turn 1 ovf s) fun (s, ovf) =>
      andThen (turn 2 ovf s) fun (s, ovf) =>
      andThen (turn 3 ovf s) fun (s, _) => .next s) ∧
    ∀ (i : Fin 4) (before : Bool) (s : State),
      let old := s.m.timer i
      let cascaded : Prop := i ≠ 0 ∧ old.cascade = true
      let overflows : Prop := old.running = true ∧
        ((cascaded ∧ before = true ∧ old.value = 0xFFFF) ∨ (¬cascaded ∧ old.ticks = 0))
      (¬overflows → ∃ u : State, turn i before s = .next (u, false) ∧
        (∀ j, j ≠ i → u.m.timer j = s.m.timer j) ∧
        (old.running = true ∧ cascaded ∧ before = true → u.m.timer i = { old with value := old.value + 1 }) ∧
        (¬(old.running = true ∧ cascaded ∧ before = true) → u.m.timer i = old) ∧
        u = { s with m := { s.m with timers := u.m.timers } }) ∧
      (overflows → ∃ u : State,
        (turn i before s = if s.audio.headD 0 ≠ 0
          then andThen (exec (.evDmaTrigger 3 (s.audio.headD 0 &&& 0b0110)) u) fun t => .next (t, true)
          else .next (u, true)) ∧
        (∀ j, j ≠ i → u.m.timer j = s.m.timer j) ∧
        (cascaded → u.m.timer i = { old with value := s.m.getIo (0x100 + 4 * i.val) }) ∧
        (¬cascaded → u.m.timer i = { old with
          ticks := (0x10000 - (s.m.getIo (0x100 + 4 * i.val)).toNat) * 2 ^ old.shift.shift }) ∧
        u.m.getIo 0x202 = (if old.irqEnable = true then s.m.getIo 0x202 ||| ((1 : Half) <<< (3 + i.val))
          else s.m.getIo 0x202) ∧
        u = { s with
          m := { s.m with io := u.m.io, timers := u.m.timers }
          audio := s.audio.tail
          trace := .audio i (s.audio.headD 0) s.m.cycleCounter :: s.trace } ∧
        sameEntries [0x202] s u)

/-- R208, the period law: under the invariant and with no DMA channel armed, while `n` cycles of any source are accounted
a free-running timer overflows first after its countdown and then exactly every period, at those cycles of the cycle
counter and at no others. -/
def Obligations.TimerOverflowsOncePerPeriod : Prop :=
  ∀ (i : Fin 4) (n : Nat) (src : Source) (s t : State), s.m.Inv s.cfg → s.m.noneArmed →
    freeRunning i (s.m.timer i) = true → account n src s = .next t →
    ∃ new, t.trace = new ++ s.trace ∧
      (overflowTimes i new).reverse =
        (List.range (if n < (s.m.timer i).ticks then 0 else (n - (s.m.timer i).ticks) / s.m.period i + 1)).map
          (fun k => s.m.cycleCounter + (s.m.timer i).ticks + k * s.m.period i) ∧
      (t.m.timer i).ticks =
        (if n < (s.m.timer i).ticks then (s.m.timer i).ticks - n
          else s.m.period i - (n - (s.m.timer i).ticks) % s.m.period i)

/-! ## Video -/

/-- R261: the line is rendered first, then the mode, the flag and the interrupt flag, then the hblank trigger of all four
channels; with none armed for hblank the event completes there. -/
def Obligations.HblankStartRendersFlagsAndTriggers : Prop :=
  ∀ s : State, ∃ t : State,
    t.m.video = ⟨s.m.video.scanline, .hblank, 0⟩ ∧
    t.m.getIo 0x004 = s.m.getIo 0x004 ||| 0x0002 ∧
    t.m.getIo 0x202 = (if (s.m.getIo 0x004).getLsbD 4 = true then s.m.getIo 0x202 ||| 0x0002 else s.m.getIo 0x202) ∧
    t.trace = .render s.m.video.scanline s.m.io s.m.cycleCounter :: s.trace ∧
    t = { s with m := { s.m with io := t.m.io, video := t.m.video }, trace := t.trace } ∧
    sameEntries [0x004, 0x202] s t ∧ sameBytes s t ∧
    exec .evHblankStart s = exec (.evDmaTrigger 2 0xF) t ∧
    ((∀ c : Fin 4, ¬((s.m.getIo (0x0B0 + 12 * c.val + 10)).getLsbD 15 = true ∧
        (s.m.getIo (0x0B0 + 12 * c.val + 10)).extractLsb' 12 2 = 2)) → exec .evHblankStart s = .next t)

/-- R262 with R264: the next line, its compare, and at line 160 vblank with its flag, its interrupt flag and the vblank
trigger of all four channels; with none armed for vblank, and on every other line, the event completes there. -/
def Obligations.LineEndEntersTheNextLine : Prop :=
  ∀ s : State, ∃ t : State,
    t.m.video = ⟨s.m.video.scanline + 1, if s.m.video.scanline + 1 = 160 then .vblank else .drawing, 0⟩ ∧
    t.m.getIo 0x006 = BitVec.ofNat 16 (s.m.video.scanline + 1) ∧
    t.m.getIo 0x004 =
      (let d := (s.m.getIo 0x004 &&& 0xFFF8) ||| (s.m.getIo 0x004 &&& 0x0001) |||
        (if s.m.video.scanline + 1 = 160 then 0x0001 else 0)
       if s.m.video.scanline + 1 = ((s.m.getIo 0x004).extractLsb' 8 8).toNat then d ||| 0x0004 else d) ∧
    t.m.getIo 0x202 = s.m.getIo 0x202 |||
      (if s.m.video.scanline + 1 = ((s.m.getIo 0x004).extractLsb' 8 8).toNat ∧ (s.m.getIo 0x004).getLsbD 5 = true
        then 0x0004 else 0) |||
      (if s.m.video.scanline + 1 = 160 ∧ (s.m.getIo 0x004).getLsbD 3 = true then 0x0001 else 0) ∧
    t = { s with m := { s.m with io := t.m.io, video := t.m.video } } ∧
    sameEntries [0x004, 0x006, 0x202] s t ∧ sameBytes s t ∧
    (exec .evLineEnd s = if s.m.video.scanline + 1 = 160 then exec (.evDmaTrigger 1 0xF) t else .next t) ∧
    ((∀ c : Fin 4, ¬((s.m.getIo (0x0B0 + 12 * c.val + 10)).getLsbD 15 = true ∧
        (s.m.getIo (0x0B0 + 12 * c.val + 10)).extractLsb' 12 2 = 1)) → exec .evLineEnd s = .next t)

/-- R263 with R264: the next vblank line, or after line 227 line 0 with the vblank flag cleared. -/
def Obligations.VblankLineEndEntersTheNextLine : Prop :=
  ∀ s : State, ∃ t : State, exec .evVblankLineEnd s = .next t ∧
    t.m.video = (if s.m.video.scanline = 227 then ⟨0, .drawing, 0⟩
      else ⟨s.m.video.scanline + 1, s.m.video.mode, 0⟩) ∧
    t.m.getIo 0x006 = BitVec.ofNat 16 t.m.video.scanline ∧
    t.m.getIo 0x004 =
      (let d := (if s.m.video.scanline = 227 then s.m.getIo 0x004 &&& 0xFFFE else s.m.getIo 0x004) &&& 0xFFFB
       if t.m.video.scanline = ((s.m.getIo 0x004).extractLsb' 8 8).toNat then d ||| 0x0004 else d) ∧
    t.m.getIo 0x202 = s.m.getIo 0x202 |||
      (if t.m.video.scanline = ((s.m.getIo 0x004).extractLsb' 8 8).toNat ∧ (s.m.getIo 0x004).getLsbD 5 = true
        then 0x0004 else 0) ∧
    t = { s with m := { s.m with io := t.m.io, video := t.m.video } } ∧
    sameEntries [0x004, 0x006, 0x202] s t ∧ sameBytes s t

/-- R266, the frame law: whatever a `RUN` does (transfers, stalls, halts, interrupts, a fatal trap), the position in the
frame moves by exactly the cycles it accounted, modulo a frame of 280896. -/
def Obligations.RunMovesTheFrameByItsCycles : Prop :=
  ∀ (budget : Nat) (s t : State), s.m.Inv s.cfg → exec (.run budget) s = .next t →
    s.m.cycleCounter ≤ t.m.cycleCounter ∧
    framePos t.m.video = (framePos s.m.video + (t.m.cycleCounter - s.m.cycleCounter)) % 280896

/-- R266 with R47: where in the frame the flags stand, in every state that meets the invariant. -/
def Obligations.FrameFlagsFollowThePosition : Prop :=
  ∀ (cfg : Config) (m : Block), m.Inv cfg →
    framePos m.video < 280896 ∧
    m.getIo 0x006 = BitVec.ofNat 16 (framePos m.video / 1232) ∧
    ((m.getIo 0x004).getLsbD 0 = true ↔ 197120 ≤ framePos m.video) ∧
    ((m.getIo 0x004).getLsbD 1 = true ↔ framePos m.video < 197120 ∧ 960 ≤ framePos m.video % 1232)

/-! ## The scheduler -/

/-- R123: under the invariant the horizon is finite, between 1 and 1232, and the least of the countdowns. -/
def Obligations.HorizonIsTheLeastCountdown : Prop :=
  ∀ (cfg : Config) (m : Block), m.Inv cfg →
    ∃ h, m.horizon = some h ∧ 1 ≤ h ∧ h ≤ 1232 ∧
      h ≤ modeLen m.video.mode - m.video.cim ∧
      (∀ i, freeRunning i (m.timer i) = true → h ≤ (m.timer i).ticks) ∧
      (0 < m.dmaStall → h ≤ m.dmaStall) ∧
      (∀ k, m.latch = .pending k → h ≤ k) ∧
      (h = modeLen m.video.mode - m.video.cim ∨ (∃ i, freeRunning i (m.timer i) = true ∧ h = (m.timer i).ticks) ∨
        (0 < m.dmaStall ∧ h = m.dmaStall) ∨ m.latch = .pending h)

/-- R120, R133: no operation but `RUN`, `RESET` and `LOAD` moves time: the video state, the cycle counter and every
timer's counts stand still, and the latch is at most armed. (The events, which only the scheduler dispatches, are not
operations a program or the host issues.) -/
def Obligations.OnlyRunMovesTime : Prop :=
  ∀ (i : Instr) (s t : State), isEvent i = false → i ≠ .reset → i ≠ .load → (∀ n, i ≠ .run n) →
    exec i s = .next t →
    t.m.video = s.m.video ∧ t.m.cycleCounter = s.m.cycleCounter ∧
    (∀ j, t.m.timer j = { s.m.timer j with pending := (t.m.timer j).pending }) ∧
    (t.m.latch = s.m.latch ∨ (s.m.latch = .idle ∧ t.m.latch = .pending 7)) ∧ t.cpu = s.cpu ∧
    t.m.getIo 0x006 = s.m.getIo 0x006 ∧ t.m.getIo 0x004 &&& 0x0007 = s.m.getIo 0x004 &&& 0x0007

/-- R121, R126: while a DMA cost is queued a pass accounts the lesser of cost and budget, and the CPU executes nothing, but
that it may be vectored, once (R155); with no channel armed the cost falls by exactly that. -/
def Obligations.StallPassDoesNotStepTheCpu : Prop :=
  ∀ (left : Nat) (s t : State) (e : PassEnd), s.m.Inv s.cfg → 1 ≤ left → 0 < s.m.dmaStall →
    onePass left s = .next (t, e) →
    e = .ran (min s.m.dmaStall left) ∧ (t.cpu = s.cpu ∨ t.cpu = s.cpu.vector) ∧
    t.m.cycleCounter = s.m.cycleCounter + min s.m.dmaStall left ∧
    s.m.dmaStall - min s.m.dmaStall left ≤ t.m.dmaStall ∧
    (s.m.noneArmed → t.m.dmaStall = s.m.dmaStall - min s.m.dmaStall left)

/-- R127: with no cost queued and the CPU halted a pass goes to the horizon or the end of the budget, and the CPU
executes nothing, but that it may be vectored, once (R155). -/
def Obligations.HaltPassDoesNotStepTheCpu : Prop :=
  ∀ (left h : Nat) (s t : State) (e : PassEnd), s.m.Inv s.cfg → 1 ≤ left → s.m.dmaStall = 0 → s.cpu.halted = true →
    s.m.horizon = some h → onePass left s = .next (t, e) →
    e = .ran (min h left) ∧ (t.cpu = s.cpu ∨ t.cpu = s.cpu.vector) ∧ t.m.cycleCounter = s.m.cycleCounter + min h left

/-- R129: when the next instruction's cost comes out as 0, a `RUN` ends in the fatal trap at once: what the instruction's
acts did stays, nothing is evaluated, accounted or applied. -/
def Obligations.FatalTrapEndsTheRun : Prop :=
  ∀ (budget cost : Nat) (ops : List CpuOp) (rest : List Insn) (s u : State), s.m.Inv s.cfg → 1 ≤ budget →
    s.m.dmaStall = 0 → s.cpu.halted = false → s.cpu.script = ⟨cost, ops⟩ :: rest →
    runOps ops 0 cost { s with
      m := { s.m with latch := if s.m.latch = .delivered then .idle else s.m.latch }
      cpu := { s.cpu with script := rest } } = .next (u, 0) →
    exec (.run budget) s = .next { u with result := .fatalTrap }

/-- R124, R125: under the invariant accounting is one sub-step, to the horizon or the end of the span, and then the
accounting of the rest; and a sub-step is, in this order, the advance of every countdown, the video edge that is due, the
end of a DMA cost, the timers, the interrupt check. -/
def Obligations.AccountingRunsSubStepsInOrder : Prop :=
  (∀ (n h : Nat) (src : Source) (s : State), s.m.Inv s.cfg → 1 ≤ n → s.m.horizon = some h →
    account n src s = andThen (subStep (min h n) src s) (account (n - min h n) src)) ∧
  (∀ (src : Source) (s : State), account 0 src s = .next s) ∧
  ∀ (n : Nat) (src : Source) (s : State), ∃ a : State,
    a.m.cycleCounter = s.m.cycleCounter + n ∧ a.m.video = { s.m.video with cim := s.m.video.cim + n } ∧
    (∀ i, a.m.timer i = if (s.m.timer i).running = true ∧ ¬(i ≠ 0 ∧ (s.m.timer i).cascade = true)
      then { s.m.timer i with ticks := (s.m.timer i).ticks - n } else s.m.timer i) ∧
    (∀ k, s.m.latch = .pending k → a.m.latch = .pending (k - n)) ∧
    ((∀ k, s.m.latch ≠ .pending k) → a.m.latch = s.m.latch) ∧
    a.m.dmaStall = (if src = .stall then s.m.dmaStall - n else s.m.dmaStall) ∧
    a = { s with m := { s.m with
      timers := a.m.timers, dmaStall := a.m.dmaStall, latch := a.m.latch, video := a.m.video,
      cycleCounter := a.m.cycleCounter } } ∧
    subStep n src s =
      andThen (if (match a.m.video.mode with | .drawing => 960 | .hblank => 272 | .vblank => 1232) ≤ a.m.video.cim
        then (match a.m.video.mode with
          | .drawing => exec .evHblankStart a
          | .hblank => exec .evLineEnd a
          | .vblank => exec .evVblankLineEnd a) else .next a) fun b =>
      andThen (if src = .stall ∧ b.m.dmaStall = 0 then exec .evDmaComplete b else .next b) fun b =>
      andThen (exec .evTimerStep b) fun b => exec .evIrqCheck b

/-- R121, R122, R126, R127, R130, R120: under the invariant a `RUN` is its first turn, the deferred applies that then wait,
in index order, and the `RUN` of what is left of the budget. The first turn is, while a DMA cost is queued, a stall of the
lesser of cost and budget; else, with the CPU halted, a halt to the horizon or the end of the budget; else one instruction:
the fetch, its acts, a fatal end at cost 0, the evaluation of the latch with the CPU's flag as it is then, and the
accounting of its cost. Where the instruction neither queued a cost nor halted nor wrote a timer's control no apply waits
and the burst's next instruction follows, so that the ends of passes show in the applies alone. What an instruction's acts are is log entry 1's: they are made in order, but for
those that a test of a value read passes over; `read` and `write` are accesses of `mem` in its next turn (R297, log entry 2:
outside the window the byte store's, or in a turn that answers, that answer and a lost write; in the window the port's, a
halfword as it is, the other widths as R63 has them), each with the `EXT_IRQ` calls of its turn before and after it (R133);
the port acts are PortOperationIsTheOneItsOffsetSelects's. -/
def Obligations.RunIsItsFirstTurnAndTheRest : Prop :=
  (∀ (budget : Nat) (s : State), s.m.Inv s.cfg → 1 ≤ budget →
    let apply : Fin 4 → State → Res State := fun i v => if (v.m.timer i).pending then exec (.evTimerApply i) v else .next v
    let goOn : Nat → State → Res State := fun n v =>
      andThen (apply 0 v) fun v => andThen (apply 1 v) fun v => andThen (apply 2 v) fun v => andThen (apply 3 v)
        fun v => exec (.run (budget - n)) v
    (0 < s.m.dmaStall → exec (.run budget) s =
      andThen (account (min s.m.dmaStall budget) .stall s) (goOn (min s.m.dmaStall budget))) ∧
    (∀ h, s.m.dmaStall = 0 → s.cpu.halted = true → s.m.horizon = some h → exec (.run budget) s =
      andThen (account (min h budget) .halt s) (goOn (min h budget))) ∧
    (s.m.dmaStall = 0 → s.cpu.halted = false → exec (.run budget) s =
      andThen (exec .evInsnFetch s) fun f =>
      andThen (match f.cpu.script with
        | [] => .next (f, 1)
        | i :: rest => runOps i.ops 0 i.cost { f with cpu := { f.cpu with script := rest } }) fun (u, c) =>
      if c = 0 then .next { u with result := .fatalTrap }
      else
        let l : Latch := if u.m.latch = .idle ∧ u.m.deliverable u.cpu.irqEnabled = true then .pending 7 else u.m.latch
        andThen (account c .cpu { u with m := { u.m with latch := l } }) (goOn c))) ∧
  (∀ (op : CpuOp) (ops : List CpuOp) (skip cost : Nat) (s : State),
    runOps [] skip cost s = .next (s, cost) ∧ runOps (op :: ops) (skip + 1) cost s = runOps ops skip cost s ∧
    runOps (op :: ops) 0 cost s = andThen (runOp op s) fun u =>
      runOps ops (match op with
          | .skip test n => if u.cpu.seen.getD test.back 0 &&& test.mask = test.value then n else 0
          | _ => 0)
        (match op with
          | .cost c => c
          | _ => cost) u) ∧
  ∀ (w : Width) (a : Addr) (v : BitVec 32) (b : BitVec 4) (on : Bool) (test : Test) (n : Nat) (s : State),
    (runOp (.read w a) s = let (x, u) := busRead w a s
      .next { u with cpu := { u.cpu with seen := x :: u.cpu.seen }, trace := .loaded w (w.align a) x :: u.trace }) ∧
    (runOp (.write w a v) s =
      andThen (if windowOffset s.cfg (w.align a) = none ∧ s.turn.answer ≠ none then .next s.startAccess
        else memWrite w a v s.startAccess) fun u => .next (arrive s.turn.after u)) ∧
    (windowOffset s.cfg (w.align a) = none → memRead w a s = s.mem.read (w.align a) w.bytes ∧
      memWrite w a v s = .next { s with mem := s.mem.write (w.align a) v w.bytes }) ∧
    (∀ o, windowOffset s.cfg (Width.half.align a) = some o → memRead .half a s = (s.m.portRead o).setWidth 32 ∧
      memWrite .half a v s = portWrite o (v.extractLsb' 0 16) s) ∧
    runOp (.extIrq b) s = exec (.extIrq b) s ∧
    runOp (.irqEn on) s = .next { s with cpu := { s.cpu with irqEnabled := on } } ∧
    runOp .halt s = .next { s with cpu := { s.cpu with halted := true } } ∧
    (runOp (.jump test n) s = .next { s with cpu := { s.cpu with
      script := if s.cpu.seen.getD test.back 0 &&& test.mask = test.value then s.cpu.script.drop n else s.cpu.script } }) ∧
    runOp (.skip test n) s = .next s ∧ runOp (.cost n) s = .next s

/-- R120, R131: a `RUN` whose budget is used up accounted at least the budget, and leaves no timer write waiting; `RUN 0`
does nothing. -/
def Obligations.RunAccountsItsBudget : Prop :=
  (∀ s : State, exec (.run 0) s = .next { s with result := .budgetExhausted }) ∧
  ∀ (budget : Nat) (s t : State), s.m.Inv s.cfg → 1 ≤ budget → exec (.run budget) s = .next t →
    t.result = .budgetExhausted →
    s.m.cycleCounter + budget ≤ t.m.cycleCounter ∧ ∀ i, (t.m.timer i).pending = false

/-- R120, R104, R121, R132: from every state that meets the invariant with no DMA channel armed and the script at its end,
and interrupts vectored nowhere, `RUN` completes and accounts exactly its budget, through stalls, halts, edges, overflows
and interrupts. That a script at its end goes on with instructions of one cycle is R104's ScriptCPU (log entry 1). -/
def Obligations.RunOfAnIdleCpuTakesExactlyItsBudget : Prop :=
  ∀ (budget : Nat) (s : State), s.m.Inv s.cfg → s.m.noneArmed → s.cpu.script = [] →
    (∀ e ∈ s.cpu.entries, e.handler = []) →
    ∃ t, exec (.run budget) s = .next t ∧ t.result = .budgetExhausted ∧
      t.m.cycleCounter = s.m.cycleCounter + budget ∧ t.m.Inv t.cfg ∧ t.m.noneArmed ∧
      t.m.dmaStall ≤ s.m.dmaStall ∧ t.cpu.script = [] ∧ sameEntries [0x004, 0x006, 0x202] s t ∧ sameBytes s t ∧
      t.m.getIo 0x004 &&& 0xFFF8 = s.m.getIo 0x004 &&& 0xFFF8 ∧
      (∀ b, (s.m.getIo 0x202).getLsbD b = true → (t.m.getIo 0x202).getLsbD b = true) ∧
      t.m.cursors = s.m.cursors ∧ t.m.wt = s.m.wt ∧ t.bus = s.bus ∧ t.cpu.seen = s.cpu.seen ∧
      t.cfg = s.cfg ∧ t.queue = s.queue ∧ t.file = s.file ∧ t.cartId = s.cartId

/-! ## The invariant -/

/-- R47, R284: every step of the machine keeps the invariant (its clauses on the byte stores, the savestate in the
host's hands and the queue speak of the model's own fields, log entries 2, 6, 9). -/
def Obligations.StepKeepsTheInvariant : Prop :=
  ∀ s t : State, s.Inv → step s = .next t → t.Inv

/-- R47, R48: the invariant holds after reset; what the fields beside `M` hold there is log entry 10's. -/
def Obligations.ResetMeetsTheInvariant : Prop := State.reset.Inv

/-- R132, R284: from a state that meets the invariant no step runs out of progress (the fault is log entry 11's). -/
def Obligations.StepNeverFaults : Prop :=
  ∀ (s : State) (e : Fault), s.Inv → step s ≠ .fault e

/-! ## Host operations -/

/-- R320, R48: every piece of `M`, whatever the state; the collaborators are left alone. -/
def Obligations.ResetClearsTheWholeBlock : Prop :=
  ∀ s : State, ∃ t, exec .reset s = .next t ∧
    (∀ a < 0x400, a % 2 = 0 → t.m.getIo a = 0) ∧
    (∀ i, t.m.timer i = ⟨0, .by1, false, false, false, 0, false⟩) ∧
    (∀ c, t.m.cursor c = ⟨0, 0⟩) ∧
    t.m.dmaStall = 0 ∧ t.m.latch = .idle ∧ t.m.video = ⟨0, .drawing, 0⟩ ∧ t.m.cycleCounter = 0 ∧
    t.m.wt = waitDecode s.cfg.waitDecoder 0 ∧
    t = { s with m := t.m } ∧ sameBytes s t

/-- R300, R301, the round-trip law: `SAVE` changes nothing but what the host holds, and a `LOAD` of it restores `M` and
memory exactly (the savestate and the result stand in the state by log entry 9, its content by log entry 21). -/
def Obligations.LoadOfSaveRestoresTheState : Prop :=
  ∀ s : State, s.m.wt = waitDecode s.cfg.waitDecoder (s.m.getIo 0x204) →
    exec .save s = .next { s with file := ⟨1, s.cartId, s.m, s.mem⟩ } ∧
    ∀ u : State, u.cfg = s.cfg → u.file = ⟨1, s.cartId, s.m, s.mem⟩ → u.cartId = s.cartId →
      exec .load u = .next { u with m := s.m, mem := s.mem, result := .loaded }

/-- R301, R281, R283: both checks come before any write, the version's first; else everything is replaced. That the
result stands in the state is log entry 9's. -/
def Obligations.LoadIsAllOrNothing : Prop :=
  ∀ s : State,
    (1 < s.file.version → exec .load s = .next { s with result := .loadVersionMismatch }) ∧
    (s.file.version ≤ 1 ∧ s.file.cartId ≠ s.cartId → exec .load s = .next { s with result := .loadCartridgeMismatch }) ∧
    (s.file.version ≤ 1 ∧ s.file.cartId = s.cartId → ∃ t, exec .load s = .next t ∧
      t.m = { s.file.m with wt := waitDecode s.cfg.waitDecoder (s.file.m.getIo 0x204) } ∧ t.mem = s.file.mem ∧
      t = { s with m := t.m, mem := t.mem, result := .loaded })
end

