-- ==== Sys2Proof/Laws/State.lean ====
section
/-! SUPPORT. The small lemmas of the state: register entries, timers and cursors read after a write, and one lemma per
field per update. -/

namespace Sys2Proof.Machine

/-! ## Entries of `M` -/

theorem slot_val (a : Nat) : (slot a).val = a / 2 % 512 := rfl

theorem slot_eq_iff (a b : Nat) : slot a = slot b ↔ a / 2 % 512 = b / 2 % 512 := by
  simp [slot, Fin.ext_iff]

/-- Within the 0x400 offsets, two even offsets name the same entry only if they are equal. -/
theorem slot_ne_of_ne {a b : Nat} (ha : a < 0x400) (hb : b < 0x400) (ea : a % 2 = 0) (eb : b % 2 = 0) (h : a ≠ b) :
    slot a ≠ slot b := by
  rw [Ne, slot_eq_iff]; omega

theorem getIo_setIo (m : Block) (a b : Nat) (v : Half) :
    (m.setIo a v).getIo b = if slot a = slot b then v else m.getIo b := by
  simp [Block.setIo, Block.getIo, Vector.getElem_set, Fin.ext_iff]

@[simp] theorem getIo_setIo_same (m : Block) (a : Nat) (v : Half) : (m.setIo a v).getIo a = v := by
  simp [getIo_setIo]

theorem getIo_setIo_ne (m : Block) {a b : Nat} (v : Half) (h : slot a ≠ slot b) :
    (m.setIo a v).getIo b = m.getIo b := by
  simp [getIo_setIo, h]

@[simp] theorem timer_setTimer_same (m : Block) (i : Fin 4) (t : Timer) : (m.setTimer i t).timer i = t := by
  simp [Block.setTimer, Block.timer]

theorem timer_setTimer (m : Block) (i j : Fin 4) (t : Timer) :
    (m.setTimer i t).timer j = if i = j then t else m.timer j := by
  simp [Block.setTimer, Block.timer, Vector.getElem_set, Fin.ext_iff]

@[simp] theorem setTimer_self (m : Block) (i : Fin 4) : m.setTimer i (m.timer i) = m := by
  simp [Block.setTimer, Block.timer]

@[simp] theorem cursor_setCursor_same (m : Block) (c : Fin 4) (d : Cursor) : (m.setCursor c d).cursor c = d := by
  simp [Block.setCursor, Block.cursor]

theorem cursor_setCursor (m : Block) (c e : Fin 4) (d : Cursor) :
    (m.setCursor c d).cursor e = if c = e then d else m.cursor e := by
  simp [Block.setCursor, Block.cursor, Vector.getElem_set, Fin.ext_iff]

/-! ## `setIo` leaves every other part alone -/

@[simp] theorem setIo_timers (m : Block) (a : Nat) (v : Half) : (m.setIo a v).timers = m.timers := rfl
@[simp] theorem setIo_cursors (m : Block) (a : Nat) (v : Half) : (m.setIo a v).cursors = m.cursors := rfl
@[simp] theorem setIo_dmaStall (m : Block) (a : Nat) (v : Half) : (m.setIo a v).dmaStall = m.dmaStall := rfl
@[simp] theorem setIo_latch (m : Block) (a : Nat) (v : Half) : (m.setIo a v).latch = m.latch := rfl
@[simp] theorem setIo_video (m : Block) (a : Nat) (v : Half) : (m.setIo a v).video = m.video := rfl
@[simp] theorem setIo_cycleCounter (m : Block) (a : Nat) (v : Half) : (m.setIo a v).cycleCounter = m.cycleCounter := rfl
@[simp] theorem setIo_wt (m : Block) (a : Nat) (v : Half) : (m.setIo a v).wt = m.wt := rfl
@[simp] theorem setIo_timer (m : Block) (a : Nat) (v : Half) (i : Fin 4) : (m.setIo a v).timer i = m.timer i := rfl
@[simp] theorem setIo_cursor (m : Block) (a : Nat) (v : Half) (c : Fin 4) : (m.setIo a v).cursor c = m.cursor c := rfl
@[simp] theorem setIo_waitRow (m : Block) (a : Nat) (v : Half) (r : BitVec 8) : (m.setIo a v).waitRow r = m.waitRow r := rfl

/-! ## `setTimer` and `setCursor` -/

@[simp] theorem setTimer_io (m : Block) (i : Fin 4) (t : Timer) : (m.setTimer i t).io = m.io := rfl
@[simp] theorem setTimer_getIo (m : Block) (i : Fin 4) (t : Timer) (a : Nat) : (m.setTimer i t).getIo a = m.getIo a := rfl
@[simp] theorem setTimer_cursors (m : Block) (i : Fin 4) (t : Timer) : (m.setTimer i t).cursors = m.cursors := rfl
@[simp] theorem setTimer_cursor (m : Block) (i : Fin 4) (t : Timer) (c : Fin 4) : (m.setTimer i t).cursor c = m.cursor c := rfl
@[simp] theorem setTimer_dmaStall (m : Block) (i : Fin 4) (t : Timer) : (m.setTimer i t).dmaStall = m.dmaStall := rfl
@[simp] theorem setTimer_latch (m : Block) (i : Fin 4) (t : Timer) : (m.setTimer i t).latch = m.latch := rfl
@[simp] theorem setTimer_video (m : Block) (i : Fin 4) (t : Timer) : (m.setTimer i t).video = m.video := rfl
@[simp] theorem setTimer_cycleCounter (m : Block) (i : Fin 4) (t : Timer) : (m.setTimer i t).cycleCounter = m.cycleCounter := rfl
@[simp] theorem setTimer_wt (m : Block) (i : Fin 4) (t : Timer) : (m.setTimer i t).wt = m.wt := rfl

@[simp] theorem setCursor_io (m : Block) (c : Fin 4) (d : Cursor) : (m.setCursor c d).io = m.io := rfl
@[simp] theorem setCursor_getIo (m : Block) (c : Fin 4) (d : Cursor) (a : Nat) : (m.setCursor c d).getIo a = m.getIo a := rfl
@[simp] theorem setCursor_timers (m : Block) (c : Fin 4) (d : Cursor) : (m.setCursor c d).timers = m.timers := rfl
@[simp] theorem setCursor_timer (m : Block) (c : Fin 4) (d : Cursor) (i : Fin 4) : (m.setCursor c d).timer i = m.timer i := rfl
@[simp] theorem setCursor_dmaStall (m : Block) (c : Fin 4) (d : Cursor) : (m.setCursor c d).dmaStall = m.dmaStall := rfl
@[simp] theorem setCursor_latch (m : Block) (c : Fin 4) (d : Cursor) : (m.setCursor c d).latch = m.latch := rfl
@[simp] theorem setCursor_video (m : Block) (c : Fin 4) (d : Cursor) : (m.setCursor c d).video = m.video := rfl
@[simp] theorem setCursor_cycleCounter (m : Block) (c : Fin 4) (d : Cursor) : (m.setCursor c d).cycleCounter = m.cycleCounter := rfl
@[simp] theorem setCursor_wt (m : Block) (c : Fin 4) (d : Cursor) : (m.setCursor c d).wt = m.wt := rfl

/-! ## `onBlock`, `emit` and `see` -/

@[simp] theorem onBlock_m (s : State) (f : Block → Block) : (s.onBlock f).m = f s.m := rfl
@[simp] theorem onBlock_cfg (s : State) (f : Block → Block) : (s.onBlock f).cfg = s.cfg := rfl
@[simp] theorem onBlock_cpu (s : State) (f : Block → Block) : (s.onBlock f).cpu = s.cpu := rfl
@[simp] theorem onBlock_mem (s : State) (f : Block → Block) : (s.onBlock f).mem = s.mem := rfl
@[simp] theorem onBlock_bus (s : State) (f : Block → Block) : (s.onBlock f).bus = s.bus := rfl
@[simp] theorem onBlock_audio (s : State) (f : Block → Block) : (s.onBlock f).audio = s.audio := rfl
@[simp] theorem onBlock_queue (s : State) (f : Block → Block) : (s.onBlock f).queue = s.queue := rfl
@[simp] theorem onBlock_file (s : State) (f : Block → Block) : (s.onBlock f).file = s.file := rfl
@[simp] theorem onBlock_cartId (s : State) (f : Block → Block) : (s.onBlock f).cartId = s.cartId := rfl
@[simp] theorem onBlock_result (s : State) (f : Block → Block) : (s.onBlock f).result = s.result := rfl
@[simp] theorem onBlock_trace (s : State) (f : Block → Block) : (s.onBlock f).trace = s.trace := rfl

@[simp] theorem emit_m (s : State) (e : Event) : (s.emit e).m = s.m := rfl
@[simp] theorem emit_cfg (s : State) (e : Event) : (s.emit e).cfg = s.cfg := rfl
@[simp] theorem emit_cpu (s : State) (e : Event) : (s.emit e).cpu = s.cpu := rfl
@[simp] theorem emit_mem (s : State) (e : Event) : (s.emit e).mem = s.mem := rfl
@[simp] theorem emit_bus (s : State) (e : Event) : (s.emit e).bus = s.bus := rfl
@[simp] theorem emit_audio (s : State) (e : Event) : (s.emit e).audio = s.audio := rfl
@[simp] theorem emit_queue (s : State) (e : Event) : (s.emit e).queue = s.queue := rfl
@[simp] theorem emit_file (s : State) (e : Event) : (s.emit e).file = s.file := rfl
@[simp] theorem emit_cartId (s : State) (e : Event) : (s.emit e).cartId = s.cartId := rfl
@[simp] theorem emit_result (s : State) (e : Event) : (s.emit e).result = s.result := rfl
@[simp] theorem emit_trace (s : State) (e : Event) : (s.emit e).trace = e :: s.trace := rfl

@[simp] theorem see_m (s : State) (v : BitVec 32) : (s.see v).m = s.m := rfl
@[simp] theorem see_cfg (s : State) (v : BitVec 32) : (s.see v).cfg = s.cfg := rfl
@[simp] theorem see_mem (s : State) (v : BitVec 32) : (s.see v).mem = s.mem := rfl
@[simp] theorem see_bus (s : State) (v : BitVec 32) : (s.see v).bus = s.bus := rfl
@[simp] theorem see_audio (s : State) (v : BitVec 32) : (s.see v).audio = s.audio := rfl
@[simp] theorem see_queue (s : State) (v : BitVec 32) : (s.see v).queue = s.queue := rfl
@[simp] theorem see_file (s : State) (v : BitVec 32) : (s.see v).file = s.file := rfl
@[simp] theorem see_cartId (s : State) (v : BitVec 32) : (s.see v).cartId = s.cartId := rfl
@[simp] theorem see_result (s : State) (v : BitVec 32) : (s.see v).result = s.result := rfl
@[simp] theorem see_trace (s : State) (v : BitVec 32) : (s.see v).trace = s.trace := rfl
@[simp] theorem see_cpu (s : State) (v : BitVec 32) : (s.see v).cpu = { s.cpu with seen := v :: s.cpu.seen } := rfl

/-! ## Outcomes in sequence -/

@[simp] theorem andThen_next {α β : Type} (a : α) (f : α → Res β) : andThen (.next a) f = f a := rfl
@[simp] theorem andThen_fault {α β : Type} (e : Fault) (f : α → Res β) : andThen (.fault e) f = .fault e := rfl
@[simp] theorem andThen_refused {α β : Type} (e : Refusal) (f : α → Res β) : andThen (.refused e) f = .refused e := rfl

/-- Operations that agree on what the first one answers. -/
theorem andThen_congr {α β : Type} {r : Res α} {f g : α → Res β} (h : ∀ a, r = .next a → f a = g a) :
    andThen r f = andThen r g := by
  cases r with
  | next a => exact h a rfl
  | fault e => rfl
  | refused e => rfl

theorem andThen_assoc {α β γ : Type} (r : Res α) (f : α → Res β) (g : β → Res γ) :
    andThen (andThen r f) g = andThen r fun a => andThen (f a) g := by cases r <;> rfl

/-- A sequence answers a next state exactly when both parts do. -/
theorem andThen_eq_next {α β : Type} {r : Res α} {f : α → Res β} {b : β} :
    andThen r f = .next b ↔ ∃ a, r = .next a ∧ f a = .next b := by
  cases r <;> simp

/-- A sequence faults where its first part does, or its second after it. -/
theorem andThen_eq_fault {α β : Type} {r : Res α} {f : α → Res β} {e : Fault} :
    andThen r f = .fault e ↔ r = .fault e ∨ ∃ a, r = .next a ∧ f a = .fault e := by
  cases r <;> simp

end Sys2Proof.Machine
end

