-- ==== Sys2Proof/Laws/Flags.lean ====
section
/-! SUPPORT. What the flag computations do: RaiseIF, IrqEval, the DISPSTAT flags, and interrupt entry. -/

namespace Sys2Proof.Machine

/-! ## RaiseIF (R153) -/

theorem raiseIf_getIo (m : Block) (b a : Nat) :
    (m.raiseIf b).getIo a = if slot 0x202 = slot a then m.getIo 0x202 ||| ((1 : Half) <<< b) else m.getIo a := by
  simp [Block.raiseIf, getIo_setIo]

@[simp] theorem raiseIf_timer (m : Block) (b : Nat) (i : Fin 4) : (m.raiseIf b).timer i = m.timer i := rfl
@[simp] theorem raiseIf_cursor (m : Block) (b : Nat) (c : Fin 4) : (m.raiseIf b).cursor c = m.cursor c := rfl
@[simp] theorem raiseIf_video (m : Block) (b : Nat) : (m.raiseIf b).video = m.video := rfl
@[simp] theorem raiseIf_latch (m : Block) (b : Nat) : (m.raiseIf b).latch = m.latch := rfl
@[simp] theorem raiseIf_dmaStall (m : Block) (b : Nat) : (m.raiseIf b).dmaStall = m.dmaStall := rfl
@[simp] theorem raiseIf_wt (m : Block) (b : Nat) : (m.raiseIf b).wt = m.wt := rfl
@[simp] theorem raiseIf_cycleCounter (m : Block) (b : Nat) : (m.raiseIf b).cycleCounter = m.cycleCounter := rfl

theorem raiseIfGated_eq (m : Block) (gate : Bool) (b : Nat) :
    m.raiseIfGated gate b = if gate then m.raiseIf b else m := rfl

theorem raiseIfGated_getIo_ne (m : Block) (gate : Bool) (b : Nat) {a : Nat} (h : slot 0x202 ≠ slot a) :
    (m.raiseIfGated gate b).getIo a = m.getIo a := by
  cases gate <;> simp [raiseIfGated_eq, raiseIf_getIo, h]

@[simp] theorem raiseIfGated_timer (m : Block) (g : Bool) (b : Nat) (i : Fin 4) :
    (m.raiseIfGated g b).timer i = m.timer i := by cases g <;> rfl
@[simp] theorem raiseIfGated_cursor (m : Block) (g : Bool) (b : Nat) (c : Fin 4) :
    (m.raiseIfGated g b).cursor c = m.cursor c := by cases g <;> rfl
@[simp] theorem raiseIfGated_video (m : Block) (g : Bool) (b : Nat) : (m.raiseIfGated g b).video = m.video := by
  cases g <;> rfl
@[simp] theorem raiseIfGated_latch (m : Block) (g : Bool) (b : Nat) : (m.raiseIfGated g b).latch = m.latch := by
  cases g <;> rfl
@[simp] theorem raiseIfGated_dmaStall (m : Block) (g : Bool) (b : Nat) :
    (m.raiseIfGated g b).dmaStall = m.dmaStall := by cases g <;> rfl
@[simp] theorem raiseIfGated_wt (m : Block) (g : Bool) (b : Nat) : (m.raiseIfGated g b).wt = m.wt := by cases g <;> rfl
@[simp] theorem raiseIfGated_cycleCounter (m : Block) (g : Bool) (b : Nat) :
    (m.raiseIfGated g b).cycleCounter = m.cycleCounter := by cases g <;> rfl

/-! ## IrqEval (R154) -/

/-- What `IrqEval` can do: arm an idle latch, or nothing. -/
theorem irqEval_cases (m : Block) (on : Bool) :
    (m.latch = .idle ∧ m.deliverable on = true ∧ m.irqEval on = { m with latch := .pending IRQ_LATENCY }) ∨
    (¬(m.latch = .idle ∧ m.deliverable on = true) ∧ m.irqEval on = m) := by
  unfold Block.irqEval
  split
  · exact .inl ⟨(by assumption : _ ∧ _).1, (by assumption : _ ∧ _).2, rfl⟩
  · exact .inr ⟨by assumption, rfl⟩

@[simp] theorem irqEval_io (m : Block) (on : Bool) : (m.irqEval on).io = m.io := by
  rcases irqEval_cases m on with ⟨-, -, h⟩ | ⟨-, h⟩ <;> rw [h]
@[simp] theorem irqEval_getIo (m : Block) (on : Bool) (a : Nat) : (m.irqEval on).getIo a = m.getIo a := by
  rcases irqEval_cases m on with ⟨-, -, h⟩ | ⟨-, h⟩ <;> rw [h] <;> rfl
@[simp] theorem irqEval_timer (m : Block) (on : Bool) (i : Fin 4) : (m.irqEval on).timer i = m.timer i := by
  rcases irqEval_cases m on with ⟨-, -, h⟩ | ⟨-, h⟩ <;> rw [h] <;> rfl
@[simp] theorem irqEval_cursor (m : Block) (on : Bool) (c : Fin 4) : (m.irqEval on).cursor c = m.cursor c := by
  rcases irqEval_cases m on with ⟨-, -, h⟩ | ⟨-, h⟩ <;> rw [h] <;> rfl
@[simp] theorem irqEval_video (m : Block) (on : Bool) : (m.irqEval on).video = m.video := by
  rcases irqEval_cases m on with ⟨-, -, h⟩ | ⟨-, h⟩ <;> rw [h]
@[simp] theorem irqEval_dmaStall (m : Block) (on : Bool) : (m.irqEval on).dmaStall = m.dmaStall := by
  rcases irqEval_cases m on with ⟨-, -, h⟩ | ⟨-, h⟩ <;> rw [h]
@[simp] theorem irqEval_cycleCounter (m : Block) (on : Bool) : (m.irqEval on).cycleCounter = m.cycleCounter := by
  rcases irqEval_cases m on with ⟨-, -, h⟩ | ⟨-, h⟩ <;> rw [h]
@[simp] theorem irqEval_wt (m : Block) (on : Bool) : (m.irqEval on).wt = m.wt := by
  rcases irqEval_cases m on with ⟨-, -, h⟩ | ⟨-, h⟩ <;> rw [h]

/-- `IrqEval` changes the latch alone. -/
theorem irqEval_eq (m : Block) (on : Bool) : m.irqEval on = { m with latch := (m.irqEval on).latch } := by
  rcases irqEval_cases m on with ⟨-, -, h⟩ | ⟨-, h⟩ <;> rw [h]

/-- The latch after `IrqEval`. -/
theorem irqEval_latch (m : Block) (on : Bool) :
    (m.irqEval on).latch = if m.latch = .idle ∧ m.deliverable on = true then .pending IRQ_LATENCY else m.latch := by
  rcases irqEval_cases m on with ⟨h1, h2, h⟩ | ⟨h1, h⟩
  · rw [h, if_pos ⟨h1, h2⟩]
  · rw [h, if_neg h1]

/-! ## DISPSTAT and VCOUNT -/

theorem setDispstat_getIo (m : Block) (bits : Half) (a : Nat) :
    (m.setDispstat bits).getIo a = if slot 0x004 = slot a then m.getIo 0x004 ||| bits else m.getIo a := by
  simp [Block.setDispstat, getIo_setIo]

theorem clearDispstat_getIo (m : Block) (bits : Half) (a : Nat) :
    (m.clearDispstat bits).getIo a = if slot 0x004 = slot a then m.getIo 0x004 &&& ~~~bits else m.getIo a := by
  simp [Block.clearDispstat, getIo_setIo]

theorem setVcount_getIo (m : Block) (a : Nat) :
    m.setVcount.getIo a = if slot 0x006 = slot a then BitVec.ofNat 16 m.video.scanline else m.getIo a := by
  simp [Block.setVcount, getIo_setIo]

/-- What `VcountCompare` does (R264): the match flag, and on a match with its enable the interrupt flag. -/
theorem vcountCompare_cases (m : Block) :
    (m.video.scanline = field (m.getIo 0x004) 8 8 ∧
      m.vcountCompare = (m.setDispstat 0x0004).raiseIfGated ((m.getIo 0x004).getLsbD 5) 2) ∨
    (m.video.scanline ≠ field (m.getIo 0x004) 8 8 ∧ m.vcountCompare = m.clearDispstat 0x0004) := by
  unfold Block.vcountCompare
  split
  · refine .inl ⟨by assumption, ?_⟩
    have : ((m.setDispstat 0x0004).getIo 0x004).getLsbD 5 = (m.getIo 0x004).getLsbD 5 := by
      rw [setDispstat_getIo, if_pos rfl, BitVec.getLsbD_or]
      simp
    simp only [this]
  · exact .inr ⟨by assumption, rfl⟩

@[simp] theorem vcountCompare_timer (m : Block) (i : Fin 4) : m.vcountCompare.timer i = m.timer i := by
  rcases vcountCompare_cases m with ⟨-, h⟩ | ⟨-, h⟩ <;> rw [h] <;> simp [Block.setDispstat, Block.clearDispstat]
@[simp] theorem vcountCompare_cursor (m : Block) (c : Fin 4) : m.vcountCompare.cursor c = m.cursor c := by
  rcases vcountCompare_cases m with ⟨-, h⟩ | ⟨-, h⟩ <;> rw [h] <;> simp [Block.setDispstat, Block.clearDispstat]
@[simp] theorem vcountCompare_video (m : Block) : m.vcountCompare.video = m.video := by
  rcases vcountCompare_cases m with ⟨-, h⟩ | ⟨-, h⟩ <;> rw [h] <;> simp [Block.setDispstat, Block.clearDispstat]
@[simp] theorem vcountCompare_latch (m : Block) : m.vcountCompare.latch = m.latch := by
  rcases vcountCompare_cases m with ⟨-, h⟩ | ⟨-, h⟩ <;> rw [h] <;> simp [Block.setDispstat, Block.clearDispstat]
@[simp] theorem vcountCompare_dmaStall (m : Block) : m.vcountCompare.dmaStall = m.dmaStall := by
  rcases vcountCompare_cases m with ⟨-, h⟩ | ⟨-, h⟩ <;> rw [h] <;> simp [Block.setDispstat, Block.clearDispstat]
@[simp] theorem vcountCompare_cycleCounter (m : Block) : m.vcountCompare.cycleCounter = m.cycleCounter := by
  rcases vcountCompare_cases m with ⟨-, h⟩ | ⟨-, h⟩ <;> rw [h] <;> simp [Block.setDispstat, Block.clearDispstat]
@[simp] theorem vcountCompare_wt (m : Block) : m.vcountCompare.wt = m.wt := by
  rcases vcountCompare_cases m with ⟨-, h⟩ | ⟨-, h⟩ <;> rw [h] <;> simp [Block.setDispstat, Block.clearDispstat]

/-- Every entry but DISPSTAT and IF is left alone by the compare. -/
theorem vcountCompare_getIo_ne (m : Block) {a : Nat} (h4 : slot 0x004 ≠ slot a) (h2 : slot 0x202 ≠ slot a) :
    m.vcountCompare.getIo a = m.getIo a := by
  rcases vcountCompare_cases m with ⟨-, h⟩ | ⟨-, h⟩ <;> rw [h]
  · rw [raiseIfGated_getIo_ne _ _ _ h2, setDispstat_getIo, if_neg h4]
  · rw [clearDispstat_getIo, if_neg h4]

/-! ## Interrupt entry (R155, R288) -/

@[simp] theorem takeInterrupt_io (s : State) : (takeInterrupt s).m.io = s.m.io := rfl
@[simp] theorem takeInterrupt_getIo (s : State) (a : Nat) : (takeInterrupt s).m.getIo a = s.m.getIo a := rfl
@[simp] theorem takeInterrupt_timer (s : State) (i : Fin 4) : (takeInterrupt s).m.timer i = s.m.timer i := rfl
@[simp] theorem takeInterrupt_latch (s : State) : (takeInterrupt s).m.latch = .delivered := rfl
@[simp] theorem takeInterrupt_video (s : State) : (takeInterrupt s).m.video = s.m.video := rfl
@[simp] theorem takeInterrupt_cpu (s : State) : (takeInterrupt s).cpu = s.cpu.vector := rfl
@[simp] theorem takeInterrupt_bus (s : State) : (takeInterrupt s).bus = s.bus := rfl
@[simp] theorem vector_halted (c : Cpu) : c.vector.halted = false := by unfold Cpu.vector; split <;> rfl
@[simp] theorem vector_seen (c : Cpu) : c.vector.seen = c.seen := by unfold Cpu.vector; split <;> rfl
@[simp] theorem takeInterrupt_mem (s : State) : (takeInterrupt s).mem = s.mem := rfl
@[simp] theorem takeInterrupt_trace (s : State) :
    (takeInterrupt s).trace = .interrupt s.m.cycleCounter :: s.trace := rfl

/-- The latch after an instruction fetch (R156). -/
theorem leaveDelivered_latch (m : Block) :
    (leaveDelivered m).latch = if m.latch = .delivered then .idle else m.latch := by
  unfold leaveDelivered; split <;> simp_all

@[simp] theorem leaveDelivered_io (m : Block) : (leaveDelivered m).io = m.io := by
  unfold leaveDelivered; split <;> rfl
@[simp] theorem leaveDelivered_getIo (m : Block) (a : Nat) : (leaveDelivered m).getIo a = m.getIo a := by
  unfold leaveDelivered; split <;> rfl
@[simp] theorem leaveDelivered_timer (m : Block) (i : Fin 4) : (leaveDelivered m).timer i = m.timer i := by
  unfold leaveDelivered; split <;> rfl
@[simp] theorem leaveDelivered_video (m : Block) : (leaveDelivered m).video = m.video := by
  unfold leaveDelivered; split <;> rfl
@[simp] theorem leaveDelivered_dmaStall (m : Block) : (leaveDelivered m).dmaStall = m.dmaStall := by
  unfold leaveDelivered; split <;> rfl
@[simp] theorem leaveDelivered_cycleCounter (m : Block) : (leaveDelivered m).cycleCounter = m.cycleCounter := by
  unfold leaveDelivered; split <;> rfl
@[simp] theorem leaveDelivered_wt (m : Block) : (leaveDelivered m).wt = m.wt := by
  unfold leaveDelivered; split <;> rfl

end Sys2Proof.Machine
end

