-- ==== Sys2Proof/Laws/Bus.lean ====
section
/-! SUPPORT. What the `EXT_IRQ` calls of a turn do: they touch IF and the latch and nothing else. -/

namespace Sys2Proof.Machine

/-! ## `EXT_IRQ` calls -/

@[simp] theorem arrive_nil (s : State) : arrive [] s = s := rfl

theorem arrive_append (bs cs : List (Fin 14)) (s : State) : arrive (bs ++ cs) s = arrive cs (arrive bs s) := by
  induction bs generalizing s with
  | nil => rfl
  | cons b bs ih => exact ih _

/-- Everything `EXT_IRQ` calls leave alone. -/
structure Arrived (s t : State) : Prop where
  rest : t = { s with m := { s.m with io := t.m.io, latch := t.m.latch } }
  entry : ∀ a, slot a ≠ slot 0x202 → t.m.getIo a = s.m.getIo a

theorem Arrived.refl (s : State) : Arrived s s := ⟨rfl, fun _ _ => rfl⟩

theorem Arrived.trans {s t u : State} (h : Arrived s t) (k : Arrived t u) : Arrived s u where
  rest := by rw [k.rest, h.rest]
  entry a ha := (k.entry a ha).trans (h.entry a ha)

theorem raiseAndEval_arrived (b : Nat) (s : State) : Arrived s (raiseAndEval b s) where
  rest := by
    have h := irqEval_eq (s.m.raiseIf b) s.cpu.irqEnabled
    simp only [raiseAndEval, irqEval, State.onBlock]
    rw [h]; rfl
  entry a ha := by
    simp only [raiseAndEval, irqEval, onBlock_m]
    rw [irqEval_getIo]
    exact getIo_setIo_ne _ _ (Ne.symm ha)

theorem arrive_arrived (bs : List (Fin 14)) (s : State) : Arrived s (arrive bs s) := by
  induction bs generalizing s with
  | nil => exact Arrived.refl s
  | cons b bs ih => exact (raiseAndEval_arrived b.val s).trans (ih _)

section fields
variable (bs : List (Fin 14)) (s : State)

@[simp] theorem arrive_cfg : (arrive bs s).cfg = s.cfg := by rw [(arrive_arrived bs s).rest]
@[simp] theorem arrive_cpu : (arrive bs s).cpu = s.cpu := by rw [(arrive_arrived bs s).rest]
@[simp] theorem arrive_mem : (arrive bs s).mem = s.mem := by rw [(arrive_arrived bs s).rest]
@[simp] theorem arrive_bus : (arrive bs s).bus = s.bus := by rw [(arrive_arrived bs s).rest]
@[simp] theorem arrive_audio : (arrive bs s).audio = s.audio := by rw [(arrive_arrived bs s).rest]
@[simp] theorem arrive_queue : (arrive bs s).queue = s.queue := by rw [(arrive_arrived bs s).rest]
@[simp] theorem arrive_file : (arrive bs s).file = s.file := by rw [(arrive_arrived bs s).rest]
@[simp] theorem arrive_cartId : (arrive bs s).cartId = s.cartId := by rw [(arrive_arrived bs s).rest]
@[simp] theorem arrive_result : (arrive bs s).result = s.result := by rw [(arrive_arrived bs s).rest]
@[simp] theorem arrive_trace : (arrive bs s).trace = s.trace := by rw [(arrive_arrived bs s).rest]
@[simp] theorem arrive_timers : (arrive bs s).m.timers = s.m.timers := by rw [(arrive_arrived bs s).rest]
@[simp] theorem arrive_cursors : (arrive bs s).m.cursors = s.m.cursors := by rw [(arrive_arrived bs s).rest]
@[simp] theorem arrive_dmaStall : (arrive bs s).m.dmaStall = s.m.dmaStall := by rw [(arrive_arrived bs s).rest]
@[simp] theorem arrive_video : (arrive bs s).m.video = s.m.video := by rw [(arrive_arrived bs s).rest]
@[simp] theorem arrive_cycleCounter : (arrive bs s).m.cycleCounter = s.m.cycleCounter := by
  rw [(arrive_arrived bs s).rest]
@[simp] theorem arrive_wt : (arrive bs s).m.wt = s.m.wt := by rw [(arrive_arrived bs s).rest]

end fields

/-- `EXT_IRQ` calls do the same to a state that differs only outside `M` and the CPU. -/
theorem arrive_with (bs : List (Fin 14)) (s : State) (mem : Memory) (bus : List BusTurn) (trace : List Event) :
    arrive bs { s with mem := mem, bus := bus, trace := trace } =
      { arrive bs s with mem := mem, bus := bus, trace := trace } := by
  induction bs generalizing s with
  | nil => rfl
  | cons b bs ih => exact ih (raiseAndEval b.val s)

/-! ## Turns -/

theorem turn_nil {s : State} (h : s.bus = []) : s.turn = BusTurn.plain := by simp [State.turn, h]
theorem turn_cons {s : State} {t : BusTurn} {rest : List BusTurn} (h : s.bus = t :: rest) : s.turn = t := by
  simp [State.turn, h]

/-- The calls of the turns of `n` accesses, in order. -/
def calls (n : Nat) (bus : List BusTurn) : List (Fin 14) := (bus.take n).flatMap fun t => t.before ++ t.after

theorem calls_add (n k : Nat) (bus : List BusTurn) : calls (n + k) bus = calls n bus ++ calls k (bus.drop n) := by
  simp [calls, List.take_add, List.flatMap_append]

/-- One access takes one turn, and its calls are the turn's. -/
theorem calls_one (s : State) : calls 1 s.bus = s.turn.before ++ s.turn.after := by
  cases h : s.bus <;> simp [calls, State.turn, BusTurn.plain, h]

end Sys2Proof.Machine
end

