-- ==== Sys2Proof/Laws/Memory.lean ====
section
/-! SUPPORT. The byte store: read after write, and every write keeps the canonical form. -/

namespace Sys2Proof.Machine

/-- The head of a canonical store is below every later address. -/
theorem Memory.get_below {mem : Memory} {a : Nat} (h : mem.wf = true)
    (ha : mem.head?.elim true (fun c => decide (a < c.1)) = true) : mem.get a = Memory.unlisted := by
  induction mem with
  | nil => rfl
  | cons c rest ih =>
    obtain ⟨k, b⟩ := c
    simp only [Memory.wf, Bool.and_eq_true, decide_eq_true_eq] at h
    simp only [List.head?_cons, Option.elim_some, decide_eq_true_eq] at ha
    rw [Memory.get, if_neg (by omega)]
    refine ih h.2 ?_
    cases rest with
    | nil => rfl
    | cons d _ =>
      have := h.1.2
      simp only [List.head?_cons, Option.elim_some, decide_eq_true_eq] at this ⊢
      omega

/-- A byte written is read back. -/
theorem Memory.get_set_same {mem : Memory} (a : Nat) (v : Byte) (h : mem.wf = true) : (mem.set a v).get a = v := by
  induction mem with
  | nil => by_cases hv : v = Memory.unlisted <;> simp [Memory.set, Memory.get, hv]
  | cons c rest ih =>
    obtain ⟨k, b⟩ := c
    have hr : Memory.wf rest = true := by simp only [Memory.wf, Bool.and_eq_true] at h; exact h.2
    unfold Memory.set
    split_ifs with h1 h2 h3 h4
    · rw [h2, Memory.get_below h (by simpa using h1)]
    · simp [Memory.get]
    · rw [h4, Memory.get_below hr]
      simp only [Memory.wf, Bool.and_eq_true] at h
      rw [h3]; exact h.1.2
    · simp [Memory.get]
    · rw [Memory.get, if_neg (by omega)]; exact ih hr

/-- A write leaves every other byte alone. -/
theorem Memory.get_set_other (mem : Memory) {a b : Nat} (v : Byte) (h : a ≠ b) : (mem.set a v).get b = mem.get b := by
  induction mem with
  | nil => by_cases hv : v = Memory.unlisted <;> simp [Memory.set, Memory.get, hv, h]
  | cons c rest ih =>
    obtain ⟨k, x⟩ := c
    unfold Memory.set
    split_ifs with h1 h2 h3 h4
    · rfl
    · simp [Memory.get, h]
    · subst h3; simp [Memory.get, h]
    · subst h3; simp [Memory.get, h]
    · simp only [Memory.get, ih]

/-- The first address of a store after a write. -/
theorem Memory.head_set {mem : Memory} {a n : Nat} (v : Byte) (hn : n < a) (h : mem.wf = true)
    (hm : mem.head?.elim true (fun c => decide (n < c.1)) = true) :
    (mem.set a v).head?.elim true (fun c => decide (n < c.1)) = true := by
  cases mem with
  | nil => by_cases hv : v = Memory.unlisted <;> simp [Memory.set, hv, hn]
  | cons c rest =>
    obtain ⟨k, b⟩ := c
    simp only [List.head?_cons, Option.elim_some, decide_eq_true_eq] at hm
    unfold Memory.set
    split_ifs with h1 h2 h3 h4
    · simpa using hm
    · simpa using hn
    · cases rest with
      | nil => rfl
      | cons d _ =>
        simp only [Memory.wf, Bool.and_eq_true, List.head?_cons, Option.elim_some, decide_eq_true_eq] at h
        simp only [List.head?_cons, Option.elim_some, decide_eq_true_eq]
        omega
    · simpa using hn
    · simpa using hm

/-- Every write of a byte at a 32-bit address keeps the canonical form. -/
theorem Memory.wf_set {mem : Memory} {a : Nat} (v : Byte) (ha : a < 2 ^ 32) (h : mem.wf = true) :
    (mem.set a v).wf = true := by
  induction mem with
  | nil =>
    by_cases hv : v = Memory.unlisted
    · simp [Memory.set, hv, Memory.wf]
    · simpa [Memory.set, hv, Memory.wf] using ha
  | cons c rest ih =>
    obtain ⟨k, b⟩ := c
    have h' := h
    simp only [Memory.wf, Bool.and_eq_true, decide_eq_true_eq] at h
    obtain ⟨⟨⟨hk, hb⟩, hh⟩, hr⟩ := h
    unfold Memory.set
    split_ifs with h1 h2 h3 h4
    · exact h'
    · simp only [Memory.wf, List.head?_cons, Option.elim_some, Bool.and_eq_true, decide_eq_true_eq, bne_iff_ne]
      exact ⟨⟨⟨ha, h2⟩, h1⟩, ⟨⟨hk, by simpa using hb⟩, hh⟩, hr⟩
    · exact hr
    · simp only [Memory.wf, Bool.and_eq_true, decide_eq_true_eq, bne_iff_ne]
      exact ⟨⟨⟨ha, h4⟩, by rw [h3]; exact hh⟩, hr⟩
    · simp only [Memory.wf, Bool.and_eq_true, decide_eq_true_eq]
      exact ⟨⟨⟨hk, hb⟩, Memory.head_set v (by omega) hr hh⟩, ih hr⟩

/-- Every write of a width keeps the canonical form. -/
theorem Memory.wf_write {mem : Memory} (a : Addr) (v : BitVec 32) (n : Nat) (h : mem.wf = true) :
    (mem.write a v n).wf = true := by
  induction n generalizing mem a v with
  | zero => exact h
  | succ n ih => exact ih _ _ (Memory.wf_set _ a.isLt h)

/-- A write of `n` bytes leaves every byte outside them alone. -/
theorem Memory.get_write_other (mem : Memory) (a : Addr) (v : BitVec 32) (n b : Nat)
    (h : ∀ j < n, (a + BitVec.ofNat 32 j).toNat ≠ b) : (mem.write a v n).get b = mem.get b := by
  induction n generalizing mem a v with
  | zero => rfl
  | succ n ih =>
    rw [Memory.write, ih]
    · exact Memory.get_set_other _ _ (by simpa using h 0 (by omega))
    · intro j hj
      have := h (j + 1) (by omega)
      rwa [BitVec.ofNat_add, BitVec.add_comm (BitVec.ofNat 32 j), ← BitVec.add_assoc] at this

/-- A read depends on its own bytes alone. -/
theorem Memory.read_congr (mem mem' : Memory) (a : Addr) (n : Nat)
    (h : ∀ j < n, mem.get (a + BitVec.ofNat 32 j).toNat = mem'.get (a + BitVec.ofNat 32 j).toNat) :
    mem.read a n = mem'.read a n := by
  induction n generalizing a with
  | zero => rfl
  | succ n ih =>
    have h0 := h 0 (by omega)
    simp only [BitVec.add_zero] at h0
    rw [Memory.read, Memory.read, h0, ih]
    intro j hj
    have := h (j + 1) (by omega)
    rwa [BitVec.ofNat_add, BitVec.add_comm (BitVec.ofNat 32 j), ← BitVec.add_assoc] at this

/-- Bit `k` of what is read after a write of the same bytes. -/
theorem Memory.read_write_bit {mem : Memory} (a : Addr) (v : BitVec 32) (n : Nat) (hn : n ≤ 4) (h : mem.wf = true)
    (k : Nat) : ((mem.write a v n).read a n).getLsbD k = (decide (k < 8 * n) && v.getLsbD k) := by
  induction n generalizing mem a v k with
  | zero => simp [Memory.read]
  | succ n ih =>
    have hset := Memory.wf_set (v.setWidth 8) a.isLt h
    have hget : (Memory.write (mem.set a.toNat (v.setWidth 8)) (a + 1) (v >>> 8) n).get a.toNat = v.setWidth 8 := by
      rw [Memory.get_write_other, Memory.get_set_same _ _ h]
      intro j hj e
      have e2 : a + 1 + BitVec.ofNat 32 j = a := BitVec.eq_of_toNat_eq e
      have : (j + 1) % 2 ^ 32 = 0 := by
        have := congrArg BitVec.toNat (show (1 : BitVec 32) + BitVec.ofNat 32 j = 0 by
          rw [BitVec.add_assoc] at e2; simpa using e2)
        simp [BitVec.toNat_add] at this; omega
      omega
    rw [Memory.write, Memory.read, hget, BitVec.getLsbD_or, BitVec.getLsbD_setWidth, BitVec.getLsbD_setWidth,
      BitVec.getLsbD_shiftLeft, ih _ _ (by omega) hset, BitVec.getLsbD_ushiftRight]
    by_cases h8 : k < 8
    · have : k < 8 * (n + 1) := by omega
      have h32 : k < 32 := by omega
      simp [h8, this, h32]
    · rw [show 8 + (k - 8) = k by omega]
      by_cases hk : k < 8 * (n + 1)
      · have h1 : k - 8 < 8 * n := by omega
        have h32 : k < 32 := by omega
        simp [h8, hk, h1, h32]
      · have h1 : ¬ k - 8 < 8 * n := by omega
        simp [h8, hk, h1]

/-- A word written is read back. -/
theorem Memory.read_write_word {mem : Memory} (a : Addr) (v : BitVec 32) (h : mem.wf = true) :
    (mem.write a v 4).read a 4 = v := by
  refine BitVec.eq_of_getLsbD_eq fun k hk => ?_
  rw [Memory.read_write_bit a v 4 (by omega) h]
  simp [hk]

/-- A halfword written is read back, zero-extended. -/
theorem Memory.read_write_half {mem : Memory} (a : Addr) (v : BitVec 32) (h : mem.wf = true) :
    (mem.write a v 2).read a 2 = (v.setWidth 16).setWidth 32 := by
  refine BitVec.eq_of_getLsbD_eq fun k hk => ?_
  rw [Memory.read_write_bit a v 2 (by omega) h]
  simp [hk]

end Sys2Proof.Machine
end

