-- ==== Sys2Proof/Laws/Effect.lean ====
section
/-! SUPPORT. Everything a port operation can do, stated once (`PortEffect`), for a port write of the CPU or of a DMA
unit, a whole transfer, and a trigger check. -/

namespace Sys2Proof.Machine

/-! ## The register clauses of R47 -/

/-- Clauses (g), (h) and the reserved bits of (c): what every operation keeps at every moment. -/
structure Block.IoOk (cfg : Config) (m : Block) : Prop where
  dispstat : m.getIo 0x004 &&& 0x00C0 = 0
  masks : ∀ a < 0x400, a % 2 = 0 → a ∉ [0x004, 0x006, 0x202] → m.getIo a &&& ~~~writeMask cfg a = 0
  flags : m.getIo 0x202 &&& 0xC000 = 0
  wt : m.wt = waitDecode cfg.waitDecoder (m.getIo 0x204)

theorem Block.Inv.ioOk {cfg : Config} {m : Block} (h : m.Inv cfg) : m.IoOk cfg :=
  ⟨h.dispstat, h.masks, h.flags, h.wt⟩

/-- Only the register file and the tables matter to the register clauses. -/
theorem Block.IoOk.congr {cfg : Config} {m m' : Block} (h : m.IoOk cfg) (hio : m'.io = m.io) (hwt : m'.wt = m.wt) :
    m'.IoOk cfg := by
  have e : ∀ a, m'.getIo a = m.getIo a := fun a => by simp [Block.getIo, hio]
  exact ⟨by rw [e]; exact h.dispstat, fun a ha he hn => by rw [e]; exact h.masks a ha he hn, by rw [e]; exact h.flags,
    by rw [e, hwt]; exact h.wt⟩

/-- A masked store of an ordinary entry keeps the register clauses. -/
theorem Block.IoOk.setIo {cfg : Config} {m : Block} (h : m.IoOk cfg) {a : Nat} {v : Half} (ha : a < 0x400)
    (he : a % 2 = 0) (hn : a ∉ [0x004, 0x006, 0x202, 0x204]) (hv : v &&& ~~~writeMask cfg a = 0) :
    (m.setIo a v).IoOk cfg := by
  simp only [List.mem_cons, List.not_mem_nil, or_false, not_or] at hn
  refine ⟨?_, fun b hb hbe hbn => ?_, ?_, ?_⟩
  · rw [getIo_setIo_ne _ _ (slot_ne_of_ne ha (by decide) he (by decide) hn.1)]; exact h.dispstat
  · by_cases hab : a = b
    · subst hab; rw [getIo_setIo_same]; exact hv
    · rw [getIo_setIo_ne _ _ (slot_ne_of_ne ha hb he hbe hab)]; exact h.masks b hb hbe hbn
  · rw [getIo_setIo_ne _ _ (slot_ne_of_ne ha (by decide) he (by decide) hn.2.2.1)]; exact h.flags
  · rw [getIo_setIo_ne _ _ (slot_ne_of_ne ha (by decide) he (by decide) hn.2.2.2), setIo_wt]; exact h.wt

/-- A store of DISPSTAT whose reserved bits are 0 keeps them. -/
theorem Block.IoOk.setIo_dispstat {cfg : Config} {m : Block} (h : m.IoOk cfg) {v : Half} (hv : v &&& 0x00C0 = 0) :
    (m.setIo 0x004 v).IoOk cfg := by
  refine ⟨by rw [getIo_setIo_same]; exact hv, fun b hb hbe hbn => ?_, ?_, ?_⟩
  · simp only [List.mem_cons, List.not_mem_nil, or_false, not_or] at hbn
    rw [getIo_setIo_ne _ _ (slot_ne_of_ne (by decide) hb (by decide) hbe (Ne.symm hbn.1))]
    exact h.masks b hb hbe (by simp [hbn])
  · rw [getIo_setIo_ne _ _ (by decide)]; exact h.flags
  · rw [getIo_setIo_ne _ _ (by decide), setIo_wt]; exact h.wt

/-- A store of VCOUNT keeps them. -/
theorem Block.IoOk.setIo_vcount {cfg : Config} {m : Block} (h : m.IoOk cfg) (v : Half) : (m.setIo 0x006 v).IoOk cfg := by
  refine ⟨by rw [getIo_setIo_ne _ _ (by decide)]; exact h.dispstat, fun b hb hbe hbn => ?_, ?_, ?_⟩
  · simp only [List.mem_cons, List.not_mem_nil, or_false, not_or] at hbn
    rw [getIo_setIo_ne _ _ (slot_ne_of_ne (by decide) hb (by decide) hbe (Ne.symm hbn.2.1))]
    exact h.masks b hb hbe (by simp [hbn])
  · rw [getIo_setIo_ne _ _ (by decide)]; exact h.flags
  · rw [getIo_setIo_ne _ _ (by decide), setIo_wt]; exact h.wt

/-- A store of IF within its 14 flags keeps them. -/
theorem Block.IoOk.setIo_if {cfg : Config} {m : Block} (h : m.IoOk cfg) {v : Half} (hv : v &&& 0xC000 = 0) :
    (m.setIo 0x202 v).IoOk cfg := by
  refine ⟨by rw [getIo_setIo_ne _ _ (by decide)]; exact h.dispstat, fun b hb hbe hbn => ?_,
    by rw [getIo_setIo_same]; exact hv, by rw [getIo_setIo_ne _ _ (by decide), setIo_wt]; exact h.wt⟩
  simp only [List.mem_cons, List.not_mem_nil, or_false, not_or] at hbn
  rw [getIo_setIo_ne _ _ (slot_ne_of_ne (by decide) hb (by decide) hbe (Ne.symm hbn.2.2))]
  exact h.masks b hb hbe (by simp [hbn])

/-- `RaiseIF` of a source 0 to 13 keeps them. -/
theorem Block.IoOk.raiseIf {cfg : Config} {m : Block} (h : m.IoOk cfg) {b : Nat} (hb : b ≤ 13) :
    (m.raiseIf b).IoOk cfg := by
  refine Block.IoOk.setIo_if h ?_
  have : ((1 : Half) <<< b) &&& 0xC000 = 0 := by
    have : ∀ k : Fin 14, ((1 : Half) <<< k.val) &&& 0xC000 = 0 := by decide
    exact this ⟨b, by omega⟩
  rw [BitVec.and_comm, BitVec.and_or_distrib_left, BitVec.and_comm, h.flags, BitVec.and_comm, this]; rfl

theorem Block.IoOk.raiseIfGated {cfg : Config} {m : Block} (h : m.IoOk cfg) (g : Bool) {b : Nat} (hb : b ≤ 13) :
    (m.raiseIfGated g b).IoOk cfg := by
  cases g
  · exact h
  · exact h.raiseIf hb

/-! ## The effect of a port operation -/

/-- Everything a port operation, a transfer or a trigger check can do to the state: time, the video state, the
parameters and the host's side stand still; a timer at most gets a pending apply; an idle latch may be armed; the DMA
cost only grows; the register clauses and the canonical form of memory are kept; turns of `mem` are only taken; the
record only grows. -/
structure PortEffect (s t : State) : Prop where
  cfg : t.cfg = s.cfg
  cpu : t.cpu = s.cpu
  audio : t.audio = s.audio
  queue : t.queue = s.queue
  file : t.file = s.file
  cartId : t.cartId = s.cartId
  result : t.result = s.result
  video : t.m.video = s.m.video
  cycleCounter : t.m.cycleCounter = s.m.cycleCounter
  vcount : t.m.getIo 0x006 = s.m.getIo 0x006
  status : t.m.getIo 0x004 &&& 0x0007 = s.m.getIo 0x004 &&& 0x0007
  timers : ∀ i, ∃ p, t.m.timer i = { s.m.timer i with pending := p }
  latch : t.m.latch = s.m.latch ∨ (s.m.latch = .idle ∧ t.m.latch = .pending IRQ_LATENCY)
  stall : s.m.dmaStall ≤ t.m.dmaStall
  io : s.m.IoOk s.cfg → t.m.IoOk t.cfg
  mem : s.mem.wf = true → t.mem.wf = true
  bus : ∃ k, t.bus = s.bus.drop k
  trace : ∃ new, t.trace = new ++ s.trace

theorem PortEffect.refl (s : State) : PortEffect s s where
  cfg := rfl
  cpu := rfl
  audio := rfl
  queue := rfl
  file := rfl
  cartId := rfl
  result := rfl
  video := rfl
  cycleCounter := rfl
  vcount := rfl
  status := rfl
  timers i := ⟨(s.m.timer i).pending, rfl⟩
  latch := .inl rfl
  stall := Nat.le_refl _
  io h := h
  mem h := h
  bus := ⟨0, rfl⟩
  trace := ⟨[], rfl⟩

theorem PortEffect.trans {s t u : State} (h : PortEffect s t) (k : PortEffect t u) : PortEffect s u where
  cfg := k.cfg.trans h.cfg
  cpu := k.cpu.trans h.cpu
  audio := k.audio.trans h.audio
  queue := k.queue.trans h.queue
  file := k.file.trans h.file
  cartId := k.cartId.trans h.cartId
  result := k.result.trans h.result
  video := k.video.trans h.video
  cycleCounter := k.cycleCounter.trans h.cycleCounter
  vcount := k.vcount.trans h.vcount
  status := k.status.trans h.status
  timers i := by
    obtain ⟨p, hp⟩ := h.timers i
    obtain ⟨q, hq⟩ := k.timers i
    exact ⟨q, by rw [hq, hp]⟩
  latch := by
    rcases h.latch with a | ⟨a, b⟩ <;> rcases k.latch with c | ⟨c, d⟩
    · exact .inl (c.trans a)
    · exact .inr ⟨a.symm.trans c, d⟩
    · exact .inr ⟨a, c.trans b⟩
    · exact .inr ⟨a, d⟩
  stall := Nat.le_trans h.stall k.stall
  io x := k.io (h.io x)
  mem x := k.mem (h.mem x)
  bus := by
    obtain ⟨a, ha⟩ := h.bus
    obtain ⟨b, hb⟩ := k.bus
    exact ⟨a + b, by rw [hb, ha, List.drop_drop]⟩
  trace := by
    obtain ⟨a, ha⟩ := h.trace
    obtain ⟨b, hb⟩ := k.trace
    exact ⟨b ++ a, by rw [hb, ha, List.append_assoc]⟩

/-- A change of `M` that touches entries, cursors, pending marks, an idle latch or the cost. -/
theorem PortEffect.onBlock (s : State) (f : Block → Block) (video : (f s.m).video = s.m.video)
    (cc : (f s.m).cycleCounter = s.m.cycleCounter) (vcount : (f s.m).getIo 0x006 = s.m.getIo 0x006)
    (status : (f s.m).getIo 0x004 &&& 0x0007 = s.m.getIo 0x004 &&& 0x0007)
    (timers : ∀ i, ∃ p, (f s.m).timer i = { s.m.timer i with pending := p })
    (latch : (f s.m).latch = s.m.latch ∨ (s.m.latch = .idle ∧ (f s.m).latch = .pending IRQ_LATENCY))
    (stall : s.m.dmaStall ≤ (f s.m).dmaStall) (io : s.m.IoOk s.cfg → (f s.m).IoOk s.cfg) :
    PortEffect s (s.onBlock f) where
  cfg := rfl
  cpu := rfl
  audio := rfl
  queue := rfl
  file := rfl
  cartId := rfl
  result := rfl
  video := video
  cycleCounter := cc
  vcount := vcount
  status := status
  timers := timers
  latch := latch
  stall := stall
  io := io
  mem h := h
  bus := ⟨0, rfl⟩
  trace := ⟨[], rfl⟩

/-- A store of one entry. -/
theorem PortEffect.ofSetIo (s : State) (f : Block → Block) (a : Nat) (v : Half) (hf : f s.m = s.m.setIo a v)
    (h6 : slot a ≠ slot 0x006) (h4 : slot a = slot 0x004 → v &&& 0x0007 = s.m.getIo 0x004 &&& 0x0007)
    (io : s.m.IoOk s.cfg → (s.m.setIo a v).IoOk s.cfg) : PortEffect s (s.onBlock f) := by
  refine PortEffect.onBlock s f ?_ ?_ ?_ ?_ ?_ ?_ ?_ ?_ <;> rw [hf]
  · rfl
  · rfl
  · exact getIo_setIo_ne _ _ h6
  · rw [getIo_setIo]; split
    · exact h4 (by assumption)
    · rfl
  · exact fun i => ⟨(s.m.timer i).pending, rfl⟩
  · exact .inl rfl
  · exact Nat.le_refl _
  · exact io

/-- A masked store of an ordinary entry. -/
theorem PortEffect.ofOrdinary (s : State) (f : Block → Block) (a : Nat) (v : Half) (hf : f s.m = s.m.setIo a v)
    (ha : a < 0x400) (he : a % 2 = 0) (hn : a ∉ [0x004, 0x006, 0x202, 0x204]) (hv : v &&& ~~~writeMask s.cfg a = 0) :
    PortEffect s (s.onBlock f) := by
  have hn' := hn
  simp only [List.mem_cons, List.not_mem_nil, or_false, not_or] at hn'
  exact PortEffect.ofSetIo s f a v hf (slot_ne_of_ne ha (by decide) he (by decide) hn'.2.1)
    (fun e => absurd e (slot_ne_of_ne ha (by decide) he (by decide) hn'.1)) fun h => h.setIo ha he hn hv

theorem PortEffect.emit (s : State) (e : Event) : PortEffect s (s.emit e) :=
  { PortEffect.refl s with trace := ⟨[e], rfl⟩ }

theorem PortEffect.irqEval (s : State) : PortEffect s (irqEval s) := by
  refine PortEffect.onBlock s _ ?_ ?_ ?_ ?_ ?_ ?_ ?_ ?_
  · simp
  · simp
  · simp
  · simp
  · exact fun i => ⟨(s.m.timer i).pending, by simp⟩
  · rw [irqEval_latch]; split
    · exact .inr ⟨(by assumption : _ ∧ _).1, rfl⟩
    · exact .inl rfl
  · simp
  · exact fun h => h.congr (by simp) (by simp)

theorem PortEffect.raiseIf (s : State) {b : Nat} (hb : b ≤ 13) : PortEffect s (s.onBlock fun m => m.raiseIf b) :=
  PortEffect.ofSetIo s _ 0x202 _ rfl (by decide) (fun e => absurd e (by decide)) fun h => h.raiseIf hb

/-! ## Bits under a mask -/

theorem and_not_mask (v m : Half) : (v &&& m) &&& ~~~m = 0 := by
  rw [BitVec.and_assoc]; simp

theorem and_not_mask_all (v : Half) : v &&& ~~~(0xFFFF : Half) = 0 := by
  have : ~~~(0xFFFF : Half) = 0#16 := rfl
  rw [this, BitVec.and_zero]; rfl

/-- The write masks of the DMA and timer registers. -/
theorem writeMask_sadL (cfg : Config) (c : Fin 4) : writeMask cfg (dmaBase c) = 0xFFFF := by fin_cases c <;> rfl
theorem writeMask_sadH (cfg : Config) (c : Fin 4) : writeMask cfg (dmaBase c + 2) = sadHighMask c := by fin_cases c <;> rfl
theorem writeMask_dadL (cfg : Config) (c : Fin 4) : writeMask cfg (dmaBase c + 4) = 0xFFFF := by fin_cases c <;> rfl
theorem writeMask_dadH (cfg : Config) (c : Fin 4) : writeMask cfg (dmaBase c + 6) = dadHighMask c := by fin_cases c <;> rfl
theorem writeMask_cntL (cfg : Config) (c : Fin 4) : writeMask cfg (dmaBase c + 8) = countMask c := by fin_cases c <;> rfl
theorem writeMask_cntH (cfg : Config) (c : Fin 4) : writeMask cfg (dmaBase c + 10) = controlMask c := by
  fin_cases c <;> rfl
theorem writeMask_tmL (cfg : Config) (i : Fin 4) : writeMask cfg (tmBase i) = 0xFFFF := by fin_cases i <;> rfl
theorem writeMask_tmH (cfg : Config) (i : Fin 4) : writeMask cfg (tmBase i + 2) = 0x00C7 := by fin_cases i <;> rfl

/-- The DMA registers are ordinary entries. -/
theorem dmaBase_ordinary (c : Fin 4) {k : Nat} (hk : k ≤ 10) (he : k % 2 = 0) :
    dmaBase c + k < 0x400 ∧ (dmaBase c + k) % 2 = 0 ∧ dmaBase c + k ∉ [0x004, 0x006, 0x202, 0x204] := by
  have := c.isLt
  simp only [dmaBase, List.mem_cons, List.not_mem_nil, or_false, not_or]; omega

/-- So are the timer registers. -/
theorem tmBase_ordinary (i : Fin 4) {k : Nat} (hk : k ≤ 2) (he : k % 2 = 0) :
    tmBase i + k < 0x400 ∧ (tmBase i + k) % 2 = 0 ∧ tmBase i + k ∉ [0x004, 0x006, 0x202, 0x204] := by
  have := i.isLt
  simp only [tmBase, List.mem_cons, List.not_mem_nil, or_false, not_or]; omega

/-! ## The port writes -/

theorem PortEffect.dma (s : State) (c : Fin 4) (k : Nat) (v : Half) (hk : k ≤ 10) (he : k % 2 = 0)
    (hv : v &&& ~~~writeMask s.cfg (dmaBase c + k) = 0) : PortEffect s (s.onBlock fun m => m.setIo (dmaBase c + k) v) :=
  PortEffect.ofOrdinary s _ _ _ rfl (dmaBase_ordinary c hk he).1 (dmaBase_ordinary c hk he).2.1
    (dmaBase_ordinary c hk he).2.2 hv

theorem storeControl_eq (m : Block) (c : Fin 4) (v : Half) :
    m.storeControl c v = if arms m c v then (m.setIo (dmaBase c + 10) (v &&& controlMask c)).setCursor c ⟨m.sad c, m.dad c⟩
      else m.setIo (dmaBase c + 10) (v &&& controlMask c) := rfl

theorem PortEffect.storeControl (s : State) (c : Fin 4) (v : Half) :
    PortEffect s (s.onBlock fun m => m.storeControl c v) := by
  have h := PortEffect.dma s c 10 (v &&& controlMask c) (by decide) (by decide)
    (by rw [writeMask_cntH]; exact and_not_mask _ _)
  by_cases ha : arms s.m c v
  · refine PortEffect.onBlock s _ ?_ ?_ ?_ ?_ ?_ ?_ ?_ ?_ <;> simp only [storeControl_eq, ha, if_true]
    · exact h.video
    · exact h.cycleCounter
    · exact h.vcount
    · exact h.status
    · exact h.timers
    · exact h.latch
    · exact h.stall
    · exact fun x => (h.io x).congr rfl rfl
  · have : (s.onBlock fun m => m.storeControl c v) = s.onBlock fun m => m.setIo (dmaBase c + 10) (v &&& controlMask c) := by
      simp [State.onBlock, storeControl_eq, ha]
    rw [this]; exact h

theorem evenOffset_toNat (a : Offset) : (evenOffset a).toNat = a.toNat / 2 * 2 := by
  have : ∀ a : Offset, (evenOffset a).toNat = a.toNat / 2 * 2 := by decide +kernel
  exact this a

/-- The offset of a storage register is none of the special ones. -/
theorem other_ordinary (a : Offset) (h : Reg.ofOffset a = .other) :
    (evenOffset a).toNat ∉ [0x004, 0x006, 0x202, 0x204] ∧
      Reg.ofOffset (BitVec.ofNat 10 (evenOffset a).toNat) = .other := by
  have : ∀ a : Offset, Reg.ofOffset a = .other → (evenOffset a).toNat ∉ [0x004, 0x006, 0x202, 0x204] ∧
      Reg.ofOffset (BitVec.ofNat 10 (evenOffset a).toNat) = .other := by decide +kernel
  exact this a h

theorem PortEffect.storeOther (s : State) (a : Offset) (v : Half) (h : Reg.ofOffset a = .other) :
    PortEffect s (storeOther a v s) := by
  obtain ⟨hn, ho⟩ := other_ordinary a h
  refine PortEffect.ofOrdinary s _ (evenOffset a).toNat _ rfl (evenOffset a).isLt ?_ hn ?_
  · rw [evenOffset_toNat]; omega
  · rw [writeMask, ho]; exact and_not_mask _ _

theorem PortEffect.wIe (s : State) (v : Half) :
    PortEffect s (Machine.irqEval (s.onBlock fun m => m.setIo 0x200 (v &&& 0x3FFF))) :=
  (PortEffect.ofOrdinary s _ 0x200 _ rfl (by decide) (by decide) (by decide) (and_not_mask v 0x3FFF)).trans
    (PortEffect.irqEval _)

theorem PortEffect.wIme (s : State) (v : Half) :
    PortEffect s (Machine.irqEval (s.onBlock fun m => m.setIo 0x208 (v &&& 0x0001))) :=
  (PortEffect.ofOrdinary s _ 0x208 _ rfl (by decide) (by decide) (by decide) (and_not_mask v 0x0001)).trans
    (PortEffect.irqEval _)

theorem PortEffect.wIf (s : State) (v : Half) :
    PortEffect s (s.onBlock fun m => m.setIo 0x202 (m.getIo 0x202 &&& ~~~v)) :=
  PortEffect.ofSetIo s _ 0x202 _ rfl (by decide) (fun e => absurd e (by decide)) fun h => h.setIo_if (by
    rw [BitVec.and_assoc, BitVec.and_comm (~~~v), ← BitVec.and_assoc, h.flags]; exact BitVec.zero_and)

theorem PortEffect.wDispstat (s : State) (v : Half) :
    PortEffect s (s.onBlock fun m => m.setIo 0x004 ((m.getIo 0x004 &&& 0x0007) ||| (v &&& 0xFF38))) := by
  refine PortEffect.ofSetIo s _ 0x004 _ rfl (by decide) (fun _ => ?_) fun h => h.setIo_dispstat ?_
  · refine BitVec.eq_of_getLsbD_eq fun k hk => ?_
    have : ∀ k : Fin 16, ((0x0007 : Half).getLsbD k.val && (0xFF38 : Half).getLsbD k.val) = false := by decide
    have := this ⟨k, hk⟩
    simp only [BitVec.getLsbD_and, BitVec.getLsbD_or] at *
    revert this
    cases (0x0007 : Half).getLsbD k <;> cases (0xFF38 : Half).getLsbD k <;> simp
  · refine BitVec.eq_of_getLsbD_eq fun k hk => ?_
    have : ∀ k : Fin 16, ((0x0007 : Half).getLsbD k.val && (0x00C0 : Half).getLsbD k.val) = false ∧
        ((0xFF38 : Half).getLsbD k.val && (0x00C0 : Half).getLsbD k.val) = false := by decide
    have := this ⟨k, hk⟩
    simp only [BitVec.getLsbD_and, BitVec.getLsbD_or] at *
    revert this
    cases (0x0007 : Half).getLsbD k <;> cases (0xFF38 : Half).getLsbD k <;> cases (0x00C0 : Half).getLsbD k <;> simp

theorem PortEffect.wWaitcnt (s : State) (v : Half) : PortEffect s (s.onBlock fun m =>
    let m := m.setIo 0x204 (v &&& 0x5FFF)
    { m with wt := waitDecode s.cfg.waitDecoder (m.getIo 0x204) }) := by
  refine PortEffect.onBlock s _ rfl rfl ?_ ?_ ?_ ?_ ?_ ?_
  · exact getIo_setIo_ne _ _ (by decide)
  · exact congrArg (· &&& 0x0007) (getIo_setIo_ne s.m (v &&& 0x5FFF) (a := 0x204) (b := 0x004) (by decide))
  · exact fun i => ⟨(s.m.timer i).pending, rfl⟩
  · exact .inl rfl
  · exact Nat.le_refl _
  · intro h
    have e : ∀ b, slot 0x204 ≠ slot b → (s.m.setIo 0x204 (v &&& 0x5FFF)).getIo b = s.m.getIo b :=
      fun b hb => getIo_setIo_ne _ _ hb
    refine ⟨?_, fun b hb hbe hbn => ?_, ?_, rfl⟩
    · exact (congrArg (· &&& 0x00C0) (e 0x004 (by decide))).trans h.dispstat
    · by_cases hab : b = 0x204
      · subst hab
        exact (congrArg (· &&& ~~~writeMask s.cfg 0x204) (getIo_setIo_same s.m 0x204 (v &&& 0x5FFF))).trans
          (and_not_mask _ _)
      · exact (congrArg (· &&& ~~~writeMask s.cfg b)
          (e b (slot_ne_of_ne (by decide) hb (by decide) hbe (Ne.symm hab)))).trans (h.masks b hb hbe hbn)
    · exact (congrArg (· &&& 0xC000) (e 0x202 (by decide))).trans h.flags

theorem PortEffect.writeTimerControl (s : State) (i : Fin 4) (v : Half) : PortEffect s (writeTimerControl i v s) := by
  obtain ⟨ha, he, hn⟩ := tmBase_ordinary i (k := 2) (by decide) (by decide)
  have h := PortEffect.ofOrdinary s (fun m => m.setIo (tmBase i + 2) (v &&& 0x00C7)) _ _ rfl ha he hn
    (by rw [writeMask_tmH]; exact and_not_mask v 0x00C7)
  refine PortEffect.onBlock s _ h.video h.cycleCounter h.vcount h.status (fun j => ?_) h.latch h.stall
    fun x => (h.io x).congr rfl rfl
  rw [timer_setTimer]
  split
  · rename_i hij; subst hij; exact ⟨true, rfl⟩
  · exact ⟨(s.m.timer j).pending, rfl⟩

/-- Every port write has the effect of a port operation, whatever DMAcCNT_H's write does, if that has it. -/
theorem portWriteWith_effect {cntH : Fin 4 → Half → State → Res State}
    (hc : ∀ c v s t, cntH c v s = .next t → PortEffect s t) {a : Offset} {v : Half} {s t : State}
    (h : portWriteWith cntH a v s = .next t) : PortEffect s t := by
  unfold portWriteWith at h
  split at h
  · injection h with h; subst h; exact PortEffect.wDispstat s v
  · injection h with h; subst h; exact PortEffect.refl s
  · injection h with h; subst h
    exact PortEffect.dma s _ 0 v (by decide) (by decide) (by rw [Nat.add_zero, writeMask_sadL]; exact and_not_mask_all v)
  · injection h with h; subst h
    exact PortEffect.dma s _ 2 _ (by decide) (by decide) (by rw [writeMask_sadH]; exact and_not_mask _ _)
  · injection h with h; subst h
    exact PortEffect.dma s _ 4 v (by decide) (by decide) (by rw [writeMask_dadL]; exact and_not_mask_all v)
  · injection h with h; subst h
    exact PortEffect.dma s _ 6 _ (by decide) (by decide) (by rw [writeMask_dadH]; exact and_not_mask _ _)
  · injection h with h; subst h
    exact PortEffect.dma s _ 8 _ (by decide) (by decide) (by rw [writeMask_cntL]; exact and_not_mask _ _)
  · exact hc _ _ _ _ h
  · injection h with h; subst h
    rename_i i _
    obtain ⟨ha, he, hn⟩ := tmBase_ordinary i (k := 0) (by decide) (by decide)
    exact PortEffect.ofOrdinary s _ (tmBase i) _ rfl ha he hn (by rw [writeMask_tmL]; exact and_not_mask_all v)
  · injection h with h; subst h; exact PortEffect.writeTimerControl s _ v
  · injection h with h; subst h; exact PortEffect.wIe s v
  · injection h with h; subst h; exact PortEffect.wIf s v
  · injection h with h; subst h; exact PortEffect.wWaitcnt s v
  · injection h with h; subst h; exact PortEffect.wIme s v
  · injection h with h; subst h; exact PortEffect.storeOther s a v (by assumption)

/-- A write of the system space has the effect of a port operation. -/
theorem memWriteWith_effect {pw : Offset → Half → State → Res State}
    (hp : ∀ a v s t, pw a v s = .next t → PortEffect s t) {w : Width} {a : Addr} {v : BitVec 32} {s t : State}
    (h : memWriteWith pw w a v s = .next t) : PortEffect s t := by
  unfold memWriteWith at h
  simp only at h
  split at h
  · exact hp _ _ _ _ h
  · exact hp _ _ _ _ h
  · obtain ⟨u, h1, h2⟩ := andThen_eq_next.mp h
    exact (hp _ _ _ _ h1).trans (hp _ _ _ _ h2)
  · injection h with h; subst h
    exact { PortEffect.refl s with mem := fun x => Memory.wf_write _ _ _ x }

/-! ## Accesses of `mem` -/

theorem PortEffect.raiseAndEval (s : State) {b : Nat} (hb : b ≤ 13) : PortEffect s (raiseAndEval b s) :=
  (PortEffect.raiseIf s hb).trans (PortEffect.irqEval _)

theorem PortEffect.arrive (bs : List (Fin 14)) (s : State) : PortEffect s (arrive bs s) := by
  induction bs generalizing s with
  | nil => exact PortEffect.refl s
  | cons b bs ih => exact (PortEffect.raiseAndEval s (by omega)).trans (ih _)

theorem PortEffect.startAccess (s : State) : PortEffect s s.startAccess :=
  PortEffect.trans (t := { s with bus := s.bus.tail })
    { PortEffect.refl s with bus := ⟨1, List.drop_one.symm⟩, io := fun h => h } (PortEffect.arrive _ _)

/-- A read through `mem`, whatever its turn, has the effect of a port operation. -/
theorem PortEffect.busRead (w : Width) (a : Addr) (s : State) : PortEffect s (busRead w a s).2 :=
  (PortEffect.startAccess s).trans (PortEffect.arrive _ _)

/-- So has a write through `mem`. -/
theorem busWriteWith_effect {pw : Offset → Half → State → Res State}
    (hp : ∀ a v s t, pw a v s = .next t → PortEffect s t) {w : Width} {a : Addr} {v : BitVec 32} {s t : State}
    (h : busWriteWith pw w a v s = .next t) : PortEffect s t := by
  unfold busWriteWith at h
  obtain ⟨u, h1, h2⟩ := andThen_eq_next.mp h
  injection h2 with h2; subst h2
  refine (PortEffect.startAccess s).trans (PortEffect.trans ?_ (PortEffect.arrive _ _))
  split at h1
  · injection h1 with h1; subst h1; exact PortEffect.refl _
  · exact memWriteWith_effect hp h1

/-! ## Transfers -/

theorem controlWriteByUnit_effect {ch c : Fin 4} {v : Half} {s t : State}
    (h : controlWriteByUnit ch c v s = .next t) : PortEffect s t := by
  unfold controlWriteByUnit at h
  split_ifs at h
  injection h with h; subst h; exact PortEffect.storeControl s c v

/-- The read of a unit has the effect of a port operation. -/
theorem PortEffect.unitRead (w : Width) (a b : Addr) (s : State) : PortEffect s (unitRead w a b s).2 := by
  unfold Machine.unitRead
  split
  · exact PortEffect.refl s
  · exact (PortEffect.busRead w a s).trans (PortEffect.emit _ _)

theorem dmaUnit_effect {ch : Fin 4} {w : Width} {a b : Addr} {s t : State} (h : dmaUnit ch w a b s = .next t) :
    PortEffect s t :=
  ((PortEffect.unitRead w a b s).trans (PortEffect.emit _ _)).trans
    (busWriteWith_effect (fun _ _ _ _ hp => portWriteWith_effect (fun _ _ _ _ hc => controlWriteByUnit_effect hc) hp) h)

theorem PortEffect.setCursor (s : State) (c : Fin 4) (d : Cursor) : PortEffect s (s.onBlock fun m => m.setCursor c d) :=
  PortEffect.onBlock s _ rfl rfl rfl rfl (fun i => ⟨(s.m.timer i).pending, rfl⟩) (.inl rfl) (Nat.le_refl _)
    fun h => h.congr rfl rfl

theorem dmaUnits_effect {ch : Fin 4} {p : Plan} {n : Nat} {a b : Addr} {s t : State}
    (h : dmaUnits ch p n a b s = .next t) : PortEffect s t := by
  induction n generalizing a b s with
  | zero => injection h with h; subst h; exact PortEffect.setCursor s _ _
  | succ n ih =>
    obtain ⟨u, h1, h2⟩ := andThen_eq_next.mp h
    exact (dmaUnit_effect h1).trans (ih h2)

theorem PortEffect.raiseIfGated (s : State) (g : Bool) {b : Nat} (hb : b ≤ 13) :
    PortEffect s (s.onBlock fun m => m.raiseIfGated g b) := by
  cases g
  · exact PortEffect.refl s
  · exact PortEffect.raiseIf s hb

/-- Clearing `EN` keeps a control entry within its mask. -/
theorem control_clear_mask {cfg : Config} {m : Block} (c : Fin 4) (h : m.IoOk cfg) :
    (m.dmaControl c &&& 0x7FFF) &&& ~~~writeMask cfg (dmaBase c + 10) = 0 := by
  obtain ⟨ha, he, hn⟩ := dmaBase_ordinary c (k := 10) (by decide) (by decide)
  have := h.masks _ ha he (by simp only [List.mem_cons, not_or] at hn ⊢; exact ⟨hn.1, hn.2.1, hn.2.2.1, by simp⟩)
  rw [BitVec.and_assoc, BitVec.and_comm 0x7FFF, ← BitVec.and_assoc]
  show (m.getIo (dmaBase c + 10) &&& _) &&& _ = _
  rw [this]; rfl

theorem PortEffect.afterTransfer (s : State) (ch : Fin 4) (reason : BitVec 2) (ctl : Half) :
    PortEffect s (s.onBlock fun m => afterTransfer ch reason ctl m) := by
  have hr : ∀ u : State, PortEffect u (u.onBlock fun m => m.raiseIfGated (ctl.getLsbD 14) (8 + ch.val)) :=
    fun u => PortEffect.raiseIfGated u _ (by have := ch.isLt; omega)
  unfold Machine.afterTransfer
  simp only
  split_ifs
  · have h : PortEffect s (s.onBlock fun m => m.setIo (dmaBase ch + 10) (m.dmaControl ch &&& 0x7FFF)) := by
      obtain ⟨ha, he, hn⟩ := dmaBase_ordinary ch (k := 10) (by decide) (by decide)
      have hn' := hn
      simp only [List.mem_cons, List.not_mem_nil, or_false, not_or] at hn'
      exact PortEffect.ofSetIo s _ (dmaBase ch + 10) _ rfl (slot_ne_of_ne ha (by decide) he (by decide) hn'.2.1)
        (fun e => absurd e (slot_ne_of_ne ha (by decide) he (by decide) hn'.1))
        fun h => h.setIo ha he hn (control_clear_mask ch h)
    exact h.trans (hr _)
  · exact PortEffect.trans (t := s.onBlock fun m => m.setCursor ch { m.cursor ch with dst := m.dad ch })
      (PortEffect.onBlock s _ rfl rfl rfl rfl (fun i => ⟨(s.m.timer i).pending, rfl⟩) (.inl rfl) (Nat.le_refl _)
        fun h => h.congr rfl rfl) (hr _)
  · exact hr s

theorem PortEffect.addStall (s : State) (n : Nat) :
    PortEffect s (s.onBlock fun m => { m with dmaStall := m.dmaStall + n }) :=
  PortEffect.onBlock s _ rfl rfl rfl rfl (fun i => ⟨(s.m.timer i).pending, rfl⟩) (.inl rfl) (Nat.le_add_right _ _)
    fun h => h.congr rfl rfl

theorem transfer_effect {ch : Fin 4} {reason : BitVec 2} {s t : State} (h : transfer ch reason s = .next t) :
    PortEffect s t := by
  unfold transfer at h
  split at h
  · cases h
  · obtain ⟨u, h1, h2⟩ := andThen_eq_next.mp h
    injection h2 with h2; subst h2
    exact (dmaUnits_effect h1).trans ((PortEffect.addStall u _).trans (PortEffect.afterTransfer _ ch reason _))

theorem triggerChannel_effect {reason : BitVec 2} {mask : BitVec 4} {c : Fin 4} {s t : State}
    (h : triggerChannel reason mask c s = .next t) : PortEffect s t := by
  unfold triggerChannel at h
  split_ifs at h
  · exact transfer_effect h
  · injection h with h; subst h; exact PortEffect.refl s

/-- A trigger check has the effect of a port operation (R174). -/
theorem checkAndTrigger_effect {reason : BitVec 2} {mask : BitVec 4} {s t : State}
    (h : checkAndTrigger reason mask s = .next t) : PortEffect s t := by
  obtain ⟨u0, h0, h⟩ := andThen_eq_next.mp h
  obtain ⟨u1, h1, h⟩ := andThen_eq_next.mp h
  obtain ⟨u2, h2, h⟩ := andThen_eq_next.mp h
  exact (triggerChannel_effect h0).trans ((triggerChannel_effect h1).trans
    ((triggerChannel_effect h2).trans (triggerChannel_effect h)))

theorem writeCntH_effect {c : Fin 4} {v : Half} {s t : State} (h : writeCntH c v s = .next t) : PortEffect s t := by
  unfold writeCntH at h
  simp only at h
  split_ifs at h
  · exact (PortEffect.storeControl s c v).trans (checkAndTrigger_effect h)
  · injection h with h; subst h; exact PortEffect.storeControl s c v

/-- A port write as the CPU and the host issue it (R230). -/
theorem portWrite_effect {a : Offset} {v : Half} {s t : State} (h : portWrite a v s = .next t) : PortEffect s t :=
  portWriteWith_effect (fun _ _ _ _ hc => writeCntH_effect hc) h

theorem memWrite_effect {w : Width} {a : Addr} {v : BitVec 32} {s t : State} (h : memWrite w a v s = .next t) :
    PortEffect s t :=
  memWriteWith_effect (fun _ _ _ _ hp => portWrite_effect hp) h

theorem busWrite_effect {w : Width} {a : Addr} {v : BitVec 32} {s t : State} (h : busWrite w a v s = .next t) :
    PortEffect s t :=
  busWriteWith_effect (fun _ _ _ _ hp => portWrite_effect hp) h

/-! ## No fault -/

/-- A transfer never faults: what stops one is a refusal. -/
theorem portWriteWith_no_fault {cntH : Fin 4 → Half → State → Res State}
    (hc : ∀ c v s e, cntH c v s ≠ .fault e) (a : Offset) (v : Half) (s : State) (e : Fault) :
    portWriteWith cntH a v s ≠ .fault e := by
  unfold portWriteWith
  split
  all_goals first | exact hc _ _ _ _ | (intro h; cases h)

theorem memWriteWith_no_fault {pw : Offset → Half → State → Res State} (hp : ∀ a v s e, pw a v s ≠ .fault e)
    (w : Width) (a : Addr) (v : BitVec 32) (s : State) (e : Fault) : memWriteWith pw w a v s ≠ .fault e := by
  unfold memWriteWith
  simp only
  split
  · exact hp _ _ _ _
  · exact hp _ _ _ _
  · intro h
    rcases andThen_eq_fault.mp h with h | ⟨u, -, h⟩
    · exact hp _ _ _ _ h
    · exact hp _ _ _ _ h
  · intro h; cases h

theorem busWriteWith_no_fault {pw : Offset → Half → State → Res State} (hp : ∀ a v s e, pw a v s ≠ .fault e)
    (w : Width) (a : Addr) (v : BitVec 32) (s : State) (e : Fault) : busWriteWith pw w a v s ≠ .fault e := by
  unfold busWriteWith
  intro h
  rcases andThen_eq_fault.mp h with h | ⟨u, -, h⟩
  · split at h
    · cases h
    · exact memWriteWith_no_fault hp _ _ _ _ _ h
  · cases h

theorem controlWriteByUnit_no_fault (ch c : Fin 4) (v : Half) (s : State) (e : Fault) :
    controlWriteByUnit ch c v s ≠ .fault e := by
  unfold controlWriteByUnit; split_ifs <;> (intro h; cases h)

theorem dmaUnits_no_fault (ch : Fin 4) (p : Plan) (n : Nat) (a b : Addr) (s : State) (e : Fault) :
    dmaUnits ch p n a b s ≠ .fault e := by
  induction n generalizing a b s with
  | zero => intro h; cases h
  | succ n ih =>
    intro h
    rcases andThen_eq_fault.mp h with h | ⟨u, -, h⟩
    · exact busWriteWith_no_fault (portWriteWith_no_fault (controlWriteByUnit_no_fault ch)) _ _ _ _ _ h
    · exact ih _ _ _ h

theorem transfer_no_fault (ch : Fin 4) (reason : BitVec 2) (s : State) (e : Fault) : transfer ch reason s ≠ .fault e := by
  unfold transfer
  split
  · intro h; cases h
  · intro h
    rcases andThen_eq_fault.mp h with h | ⟨u, -, h⟩
    · exact dmaUnits_no_fault _ _ _ _ _ _ _ h
    · cases h

theorem triggerChannel_no_fault (reason : BitVec 2) (mask : BitVec 4) (c : Fin 4) (s : State) (e : Fault) :
    triggerChannel reason mask c s ≠ .fault e := by
  unfold triggerChannel
  split_ifs
  · exact transfer_no_fault _ _ _ _
  · intro h; cases h

theorem checkAndTrigger_no_fault (reason : BitVec 2) (mask : BitVec 4) (s : State) (e : Fault) :
    checkAndTrigger reason mask s ≠ .fault e := by
  intro h
  rcases andThen_eq_fault.mp h with h | ⟨u, -, h⟩
  · exact triggerChannel_no_fault _ _ _ _ _ h
  rcases andThen_eq_fault.mp h with h | ⟨u, -, h⟩
  · exact triggerChannel_no_fault _ _ _ _ _ h
  rcases andThen_eq_fault.mp h with h | ⟨u, -, h⟩
  · exact triggerChannel_no_fault _ _ _ _ _ h
  · exact triggerChannel_no_fault _ _ _ _ _ h

theorem writeCntH_no_fault (c : Fin 4) (v : Half) (s : State) (e : Fault) : writeCntH c v s ≠ .fault e := by
  unfold writeCntH
  simp only
  split_ifs
  · exact checkAndTrigger_no_fault _ _ _ _
  · intro h; cases h

theorem portWrite_no_fault (a : Offset) (v : Half) (s : State) (e : Fault) : portWrite a v s ≠ .fault e :=
  portWriteWith_no_fault writeCntH_no_fault a v s e

end Sys2Proof.Machine
end

