-- ==== Sys2Proof/Laws/PerInstr.lean ====
section
/-! SUPPORT. The family `FormatTag`, one lemma per constructor: the command word of every operation carries the tag of
its format in bits 28:27 (0 port, 1 event, 2 host; R92 and log entry 6), and R90's direction bit in bit 26 of a port
command. -/

namespace Sys2Proof.Laws.FormatTag

/-- The two bits above R90's 27, by the kind of the operation. -/
def tag : Instr → Nat
  | .wDispstat _ => 0
  | .wVcount _ => 0
  | .wDma0SadL _ => 0
  | .wDma0SadH _ => 0
  | .wDma0DadL _ => 0
  | .wDma0DadH _ => 0
  | .wDma0CntL _ => 0
  | .wDma0CntH _ => 0
  | .wDma1SadL _ => 0
  | .wDma1SadH _ => 0
  | .wDma1DadL _ => 0
  | .wDma1DadH _ => 0
  | .wDma1CntL _ => 0
  | .wDma1CntH _ => 0
  | .wDma2SadL _ => 0
  | .wDma2SadH _ => 0
  | .wDma2DadL _ => 0
  | .wDma2DadH _ => 0
  | .wDma2CntL _ => 0
  | .wDma2CntH _ => 0
  | .wDma3SadL _ => 0
  | .wDma3SadH _ => 0
  | .wDma3DadL _ => 0
  | .wDma3DadH _ => 0
  | .wDma3CntL _ => 0
  | .wDma3CntH _ => 0
  | .wTm0CntL _ => 0
  | .wTm0CntH _ => 0
  | .wTm1CntL _ => 0
  | .wTm1CntH _ => 0
  | .wTm2CntL _ => 0
  | .wTm2CntH _ => 0
  | .wTm3CntL _ => 0
  | .wTm3CntH _ => 0
  | .wIe _ => 0
  | .wIf _ => 0
  | .wWaitcnt _ => 0
  | .wIme _ => 0
  | .wOther _ _ => 0
  | .rTm0CntL => 0
  | .rTm1CntL => 0
  | .rTm2CntL => 0
  | .rTm3CntL => 0
  | .rStored _ => 0
  | .evHblankStart => 1
  | .evLineEnd => 1
  | .evVblankLineEnd => 1
  | .evDmaTrigger _ _ => 1
  | .evDmaComplete => 1
  | .evTimerStep => 1
  | .evIrqCheck => 1
  | .evTimerApply _ => 1
  | .evInsnFetch => 1
  | .reset => 2
  | .run _ => 2
  | .extIrq _ => 2
  | .save => 2
  | .load => 2

/-- A port write (R90: "dir" is 1). -/
def isWrite : Instr → Bool
  | .wDispstat _ => true
  | .wVcount _ => true
  | .wDma0SadL _ => true
  | .wDma0SadH _ => true
  | .wDma0DadL _ => true
  | .wDma0DadH _ => true
  | .wDma0CntL _ => true
  | .wDma0CntH _ => true
  | .wDma1SadL _ => true
  | .wDma1SadH _ => true
  | .wDma1DadL _ => true
  | .wDma1DadH _ => true
  | .wDma1CntL _ => true
  | .wDma1CntH _ => true
  | .wDma2SadL _ => true
  | .wDma2SadH _ => true
  | .wDma2DadL _ => true
  | .wDma2DadH _ => true
  | .wDma2CntL _ => true
  | .wDma2CntH _ => true
  | .wDma3SadL _ => true
  | .wDma3SadH _ => true
  | .wDma3DadL _ => true
  | .wDma3DadH _ => true
  | .wDma3CntL _ => true
  | .wDma3CntH _ => true
  | .wTm0CntL _ => true
  | .wTm0CntH _ => true
  | .wTm1CntL _ => true
  | .wTm1CntH _ => true
  | .wTm2CntL _ => true
  | .wTm2CntH _ => true
  | .wTm3CntL _ => true
  | .wTm3CntH _ => true
  | .wIe _ => true
  | .wIf _ => true
  | .wWaitcnt _ => true
  | .wIme _ => true
  | .wOther _ _ => true
  | .rTm0CntL => false
  | .rTm1CntL => false
  | .rTm2CntL => false
  | .rTm3CntL => false
  | .rStored _ => false
  | .evHblankStart => false
  | .evLineEnd => false
  | .evVblankLineEnd => false
  | .evDmaTrigger _ _ => false
  | .evDmaComplete => false
  | .evTimerStep => false
  | .evIrqCheck => false
  | .evTimerApply _ => false
  | .evInsnFetch => false
  | .reset => false
  | .run _ => false
  | .extIrq _ => false
  | .save => false
  | .load => false

/-- What every operation's command word says of its format. -/
def Statement (i : Instr) : Prop :=
  encode i / 2 ^ 27 % 4 = tag i ∧ (tag i = 0 → encode i / 2 ^ 26 = if isWrite i then 1 else 0)

/-- A write's word. -/
theorem writeWord_tag (a : Nat) (v : Half) (h : a < 0x400) :
    writeWord a v / 2 ^ 27 % 4 = 0 ∧ writeWord a v / 2 ^ 26 = 1 := by
  have := v.isLt
  unfold writeWord
  omega

/-- A read's word. -/
theorem readWord_tag (a : Nat) (h : a < 0x400) : readWord a / 2 ^ 27 % 4 = 0 ∧ readWord a / 2 ^ 26 = 0 := by
  unfold readWord
  omega

/-- An event's word. -/
theorem eventWord_tag (id operands : Nat) (h : id < 16) (h' : operands < 64) : eventWord id operands / 2 ^ 27 % 4 = 1 := by
  unfold eventWord
  omega

/-- A host call's word. -/
theorem hostWord_tag (id operands budget : Nat) (h : id < 8) (h' : operands < 16) :
    hostWord id operands budget / 2 ^ 27 % 4 = 2 := by
  unfold hostWord
  omega

theorem wDispstat (v : Half) : Statement (.wDispstat v) := ⟨(writeWord_tag _ _ (by decide)).1, fun _ => (writeWord_tag _ _ (by decide)).2⟩
theorem wVcount (v : Half) : Statement (.wVcount v) := ⟨(writeWord_tag _ _ (by decide)).1, fun _ => (writeWord_tag _ _ (by decide)).2⟩
theorem wDma0SadL (v : Half) : Statement (.wDma0SadL v) := ⟨(writeWord_tag _ _ (by decide)).1, fun _ => (writeWord_tag _ _ (by decide)).2⟩
theorem wDma0SadH (v : Half) : Statement (.wDma0SadH v) := ⟨(writeWord_tag _ _ (by decide)).1, fun _ => (writeWord_tag _ _ (by decide)).2⟩
theorem wDma0DadL (v : Half) : Statement (.wDma0DadL v) := ⟨(writeWord_tag _ _ (by decide)).1, fun _ => (writeWord_tag _ _ (by decide)).2⟩
theorem wDma0DadH (v : Half) : Statement (.wDma0DadH v) := ⟨(writeWord_tag _ _ (by decide)).1, fun _ => (writeWord_tag _ _ (by decide)).2⟩
theorem wDma0CntL (v : Half) : Statement (.wDma0CntL v) := ⟨(writeWord_tag _ _ (by decide)).1, fun _ => (writeWord_tag _ _ (by decide)).2⟩
theorem wDma0CntH (v : Half) : Statement (.wDma0CntH v) := ⟨(writeWord_tag _ _ (by decide)).1, fun _ => (writeWord_tag _ _ (by decide)).2⟩
theorem wDma1SadL (v : Half) : Statement (.wDma1SadL v) := ⟨(writeWord_tag _ _ (by decide)).1, fun _ => (writeWord_tag _ _ (by decide)).2⟩
theorem wDma1SadH (v : Half) : Statement (.wDma1SadH v) := ⟨(writeWord_tag _ _ (by decide)).1, fun _ => (writeWord_tag _ _ (by decide)).2⟩
theorem wDma1DadL (v : Half) : Statement (.wDma1DadL v) := ⟨(writeWord_tag _ _ (by decide)).1, fun _ => (writeWord_tag _ _ (by decide)).2⟩
theorem wDma1DadH (v : Half) : Statement (.wDma1DadH v) := ⟨(writeWord_tag _ _ (by decide)).1, fun _ => (writeWord_tag _ _ (by decide)).2⟩
theorem wDma1CntL (v : Half) : Statement (.wDma1CntL v) := ⟨(writeWord_tag _ _ (by decide)).1, fun _ => (writeWord_tag _ _ (by decide)).2⟩
theorem wDma1CntH (v : Half) : Statement (.wDma1CntH v) := ⟨(writeWord_tag _ _ (by decide)).1, fun _ => (writeWord_tag _ _ (by decide)).2⟩
theorem wDma2SadL (v : Half) : Statement (.wDma2SadL v) := ⟨(writeWord_tag _ _ (by decide)).1, fun _ => (writeWord_tag _ _ (by decide)).2⟩
theorem wDma2SadH (v : Half) : Statement (.wDma2SadH v) := ⟨(writeWord_tag _ _ (by decide)).1, fun _ => (writeWord_tag _ _ (by decide)).2⟩
theorem wDma2DadL (v : Half) : Statement (.wDma2DadL v) := ⟨(writeWord_tag _ _ (by decide)).1, fun _ => (writeWord_tag _ _ (by decide)).2⟩
theorem wDma2DadH (v : Half) : Statement (.wDma2DadH v) := ⟨(writeWord_tag _ _ (by decide)).1, fun _ => (writeWord_tag _ _ (by decide)).2⟩
theorem wDma2CntL (v : Half) : Statement (.wDma2CntL v) := ⟨(writeWord_tag _ _ (by decide)).1, fun _ => (writeWord_tag _ _ (by decide)).2⟩
theorem wDma2CntH (v : Half) : Statement (.wDma2CntH v) := ⟨(writeWord_tag _ _ (by decide)).1, fun _ => (writeWord_tag _ _ (by decide)).2⟩
theorem wDma3SadL (v : Half) : Statement (.wDma3SadL v) := ⟨(writeWord_tag _ _ (by decide)).1, fun _ => (writeWord_tag _ _ (by decide)).2⟩
theorem wDma3SadH (v : Half) : Statement (.wDma3SadH v) := ⟨(writeWord_tag _ _ (by decide)).1, fun _ => (writeWord_tag _ _ (by decide)).2⟩
theorem wDma3DadL (v : Half) : Statement (.wDma3DadL v) := ⟨(writeWord_tag _ _ (by decide)).1, fun _ => (writeWord_tag _ _ (by decide)).2⟩
theorem wDma3DadH (v : Half) : Statement (.wDma3DadH v) := ⟨(writeWord_tag _ _ (by decide)).1, fun _ => (writeWord_tag _ _ (by decide)).2⟩
theorem wDma3CntL (v : Half) : Statement (.wDma3CntL v) := ⟨(writeWord_tag _ _ (by decide)).1, fun _ => (writeWord_tag _ _ (by decide)).2⟩
theorem wDma3CntH (v : Half) : Statement (.wDma3CntH v) := ⟨(writeWord_tag _ _ (by decide)).1, fun _ => (writeWord_tag _ _ (by decide)).2⟩
theorem wTm0CntL (v : Half) : Statement (.wTm0CntL v) := ⟨(writeWord_tag _ _ (by decide)).1, fun _ => (writeWord_tag _ _ (by decide)).2⟩
theorem wTm0CntH (v : Half) : Statement (.wTm0CntH v) := ⟨(writeWord_tag _ _ (by decide)).1, fun _ => (writeWord_tag _ _ (by decide)).2⟩
theorem wTm1CntL (v : Half) : Statement (.wTm1CntL v) := ⟨(writeWord_tag _ _ (by decide)).1, fun _ => (writeWord_tag _ _ (by decide)).2⟩
theorem wTm1CntH (v : Half) : Statement (.wTm1CntH v) := ⟨(writeWord_tag _ _ (by decide)).1, fun _ => (writeWord_tag _ _ (by decide)).2⟩
theorem wTm2CntL (v : Half) : Statement (.wTm2CntL v) := ⟨(writeWord_tag _ _ (by decide)).1, fun _ => (writeWord_tag _ _ (by decide)).2⟩
theorem wTm2CntH (v : Half) : Statement (.wTm2CntH v) := ⟨(writeWord_tag _ _ (by decide)).1, fun _ => (writeWord_tag _ _ (by decide)).2⟩
theorem wTm3CntL (v : Half) : Statement (.wTm3CntL v) := ⟨(writeWord_tag _ _ (by decide)).1, fun _ => (writeWord_tag _ _ (by decide)).2⟩
theorem wTm3CntH (v : Half) : Statement (.wTm3CntH v) := ⟨(writeWord_tag _ _ (by decide)).1, fun _ => (writeWord_tag _ _ (by decide)).2⟩
theorem wIe (v : Half) : Statement (.wIe v) := ⟨(writeWord_tag _ _ (by decide)).1, fun _ => (writeWord_tag _ _ (by decide)).2⟩
theorem wIf (v : Half) : Statement (.wIf v) := ⟨(writeWord_tag _ _ (by decide)).1, fun _ => (writeWord_tag _ _ (by decide)).2⟩
theorem wWaitcnt (v : Half) : Statement (.wWaitcnt v) := ⟨(writeWord_tag _ _ (by decide)).1, fun _ => (writeWord_tag _ _ (by decide)).2⟩
theorem wIme (v : Half) : Statement (.wIme v) := ⟨(writeWord_tag _ _ (by decide)).1, fun _ => (writeWord_tag _ _ (by decide)).2⟩
theorem wOther (a : Offset) (v : Half) : Statement (.wOther a v) := ⟨(writeWord_tag _ _ a.isLt).1, fun _ => (writeWord_tag _ _ a.isLt).2⟩
theorem rTm0CntL : Statement .rTm0CntL := ⟨(readWord_tag _ (by decide)).1, fun _ => (readWord_tag _ (by decide)).2⟩
theorem rTm1CntL : Statement .rTm1CntL := ⟨(readWord_tag _ (by decide)).1, fun _ => (readWord_tag _ (by decide)).2⟩
theorem rTm2CntL : Statement .rTm2CntL := ⟨(readWord_tag _ (by decide)).1, fun _ => (readWord_tag _ (by decide)).2⟩
theorem rTm3CntL : Statement .rTm3CntL := ⟨(readWord_tag _ (by decide)).1, fun _ => (readWord_tag _ (by decide)).2⟩
theorem rStored (a : Offset) : Statement (.rStored a) := ⟨(readWord_tag _ a.isLt).1, fun _ => (readWord_tag _ a.isLt).2⟩
theorem evHblankStart : Statement .evHblankStart := ⟨eventWord_tag _ _ (by decide) (by decide), nofun⟩
theorem evLineEnd : Statement .evLineEnd := ⟨eventWord_tag _ _ (by decide) (by decide), nofun⟩
theorem evVblankLineEnd : Statement .evVblankLineEnd := ⟨eventWord_tag _ _ (by decide) (by decide), nofun⟩
theorem evDmaTrigger (reason : BitVec 2) (mask : BitVec 4) : Statement (.evDmaTrigger reason mask) := ⟨eventWord_tag _ _ (by decide) (by omega), nofun⟩
theorem evDmaComplete : Statement .evDmaComplete := ⟨eventWord_tag _ _ (by decide) (by decide), nofun⟩
theorem evTimerStep : Statement .evTimerStep := ⟨eventWord_tag _ _ (by decide) (by decide), nofun⟩
theorem evIrqCheck : Statement .evIrqCheck := ⟨eventWord_tag _ _ (by decide) (by decide), nofun⟩
theorem evTimerApply (i : Fin 4) : Statement (.evTimerApply i) := ⟨eventWord_tag _ _ (by decide) (by omega), nofun⟩
theorem evInsnFetch : Statement .evInsnFetch := ⟨eventWord_tag _ _ (by decide) (by decide), nofun⟩
theorem reset : Statement .reset := ⟨hostWord_tag _ _ _ (by decide) (by decide), nofun⟩
theorem run (budget : Nat) : Statement (.run budget) := ⟨hostWord_tag _ _ _ (by decide) (by decide), nofun⟩
theorem extIrq (b : BitVec 4) : Statement (.extIrq b) := ⟨hostWord_tag _ _ _ (by decide) b.isLt, nofun⟩
theorem save : Statement .save := ⟨hostWord_tag _ _ _ (by decide) (by decide), nofun⟩
theorem load : Statement .load := ⟨hostWord_tag _ _ _ (by decide) (by decide), nofun⟩

end Sys2Proof.Laws.FormatTag
end

