-- ==== Sys2Proof/Laws/Video.lean ====
section
/-! SUPPORT. What a video edge does, stated once: the next video state (`edge`), the flags that follow it, and the
record of a sub-step's effect that every step of the sub-step has (`SubEffect`). -/

namespace Sys2Proof.Machine

/-! ## The video clauses of R47 -/

/-- Clauses (b) and (c) but for the reserved bits: the line, the mode and their flags. -/
structure Block.LineOk (m : Block) : Prop where
  line : m.video.scanline ≤ VBLANK_LAST
  mode : m.video.mode = .vblank ↔ VBLANK_FIRST ≤ m.video.scanline
  vbl : (m.getIo 0x004).getLsbD 0 = true ↔ m.video.mode = .vblank
  hbl : (m.getIo 0x004).getLsbD 1 = true ↔ m.video.mode = .hblank
  vcount : m.getIo 0x006 = BitVec.ofNat 16 m.video.scanline

theorem Block.Inv.lineOk {cfg : Config} {m : Block} (h : m.Inv cfg) : m.LineOk := ⟨h.line, h.mode, h.vbl, h.hbl, h.vcount⟩

/-- A bit kept by `x &&& 7 = y &&& 7`. -/
theorem bit_of_and_seven {x y : Half} (h : x &&& 0x0007 = y &&& 0x0007) {k : Nat} (hk : k < 3) :
    x.getLsbD k = y.getLsbD k := by
  have := congrArg (fun z : Half => z.getLsbD k) h
  simp only [BitVec.getLsbD_and] at this
  have hb : ((0x0007 : Half).getLsbD k) = true := by
    have : ∀ j : Fin 3, ((0x0007 : Half).getLsbD j.val) = true := by decide
    exact this ⟨k, hk⟩
  rwa [hb, Bool.and_true, Bool.and_true] at this

/-- The video clauses look at the video state, VCOUNT and the low bits of DISPSTAT alone. -/
theorem Block.LineOk.congr {m m' : Block} (h : m.LineOk) (hv : m'.video = m.video) (hc : m'.getIo 0x006 = m.getIo 0x006)
    (hs : m'.getIo 0x004 &&& 0x0007 = m.getIo 0x004 &&& 0x0007) : m'.LineOk where
  line := by rw [hv]; exact h.line
  mode := by rw [hv]; exact h.mode
  vbl := by rw [hv, bit_of_and_seven hs (by decide)]; exact h.vbl
  hbl := by rw [hv, bit_of_and_seven hs (by decide)]; exact h.hbl
  vcount := by rw [hv, hc]; exact h.vcount

/-- The video state after an edge (R260 to R263). -/
def edge (v : Video) : Video :=
  match v.mode with
  | .drawing => ⟨v.scanline, .hblank, 0⟩
  | .hblank => ⟨v.scanline + 1, if v.scanline + 1 = VBLANK_FIRST then .vblank else .drawing, 0⟩
  | .vblank => if v.scanline = VBLANK_LAST then ⟨0, .drawing, 0⟩ else ⟨v.scanline + 1, .vblank, 0⟩

/-! ## Changes of DISPSTAT -/

@[simp] theorem withVideo_getIo (m : Block) (v : Video) (a : Nat) : ({ m with video := v } : Block).getIo a = m.getIo a := rfl
@[simp] theorem withVideo_timer (m : Block) (v : Video) (i : Fin 4) : ({ m with video := v } : Block).timer i = m.timer i := rfl

theorem Block.IoOk.setDispstat {cfg : Config} {m : Block} (h : m.IoOk cfg) {bits : Half} (hb : bits &&& 0x00C0 = 0) :
    (m.setDispstat bits).IoOk cfg :=
  h.setIo_dispstat (by rw [BitVec.and_comm, BitVec.and_or_distrib_left, BitVec.and_comm, h.dispstat, BitVec.and_comm, hb]; rfl)

theorem Block.IoOk.clearDispstat {cfg : Config} {m : Block} (h : m.IoOk cfg) (bits : Half) :
    (m.clearDispstat bits).IoOk cfg :=
  h.setIo_dispstat (by
    rw [BitVec.and_assoc, BitVec.and_comm (~~~bits), ← BitVec.and_assoc, h.dispstat]; exact BitVec.zero_and)

theorem Block.IoOk.setVcount {cfg : Config} {m : Block} (h : m.IoOk cfg) : m.setVcount.IoOk cfg := Block.IoOk.setIo_vcount h _

theorem Block.IoOk.withVideo {cfg : Config} {m : Block} (h : m.IoOk cfg) (v : Video) : ({ m with video := v } : Block).IoOk cfg :=
  h.congr rfl rfl

theorem Block.IoOk.vcountCompare {cfg : Config} {m : Block} (h : m.IoOk cfg) : m.vcountCompare.IoOk cfg := by
  rcases vcountCompare_cases m with ⟨-, e⟩ | ⟨-, e⟩ <;> rw [e]
  · exact (h.setDispstat (by decide)).raiseIfGated _ (by decide)
  · exact h.clearDispstat _

/-- The compare leaves the two blanking flags alone. -/
theorem vcountCompare_blank_bit (m : Block) {k : Nat} (hk : k < 2) :
    (m.vcountCompare.getIo 0x004).getLsbD k = (m.getIo 0x004).getLsbD k := by
  have hb : ∀ j : Fin 2, ((0x0004 : Half).getLsbD j.val) = false ∧ ((~~~(0x0004 : Half)).getLsbD j.val) = true := by decide
  obtain ⟨h1, h2⟩ := hb ⟨k, hk⟩
  rcases vcountCompare_cases m with ⟨-, e⟩ | ⟨-, e⟩ <;> rw [e]
  · rw [raiseIfGated_getIo_ne _ _ _ (by decide), setDispstat_getIo, if_pos rfl, BitVec.getLsbD_or, h1, Bool.or_false]
  · rw [clearDispstat_getIo, if_pos rfl, BitVec.getLsbD_and, h2, Bool.and_true]

theorem vcountCompare_vcount (m : Block) : m.vcountCompare.getIo 0x006 = m.getIo 0x006 :=
  vcountCompare_getIo_ne m (by decide) (by decide)

/-! ## The effect of a step of a sub-step -/

/-- What happens to the CPU where none of its instructions runs: nothing, or it is vectored, once, since a latch that is
`delivered` stays so until the next fetch. -/
def CpuKept (s t : State) : Prop :=
  (t.cpu = s.cpu ∧ (s.m.latch = .delivered → t.m.latch = .delivered)) ∨
  (t.cpu = s.cpu.vector ∧ s.m.latch ≠ .delivered ∧ t.m.latch = .delivered)

theorem CpuKept.trans {s t u : State} (h : CpuKept s t) (k : CpuKept t u) : CpuKept s u := by
  rcases h with ⟨a, b⟩ | ⟨a, b, c⟩ <;> rcases k with ⟨d, e⟩ | ⟨d, e, f⟩
  · exact .inl ⟨d.trans a, fun x => e (b x)⟩
  · exact .inr ⟨d.trans (by rw [a]), fun x => e (b x), f⟩
  · exact .inr ⟨d.trans a, b, e c⟩
  · exact absurd c e

/-- What leaves the CPU alone and a delivered latch as it is. -/
theorem CpuKept.ofEq {s t : State} (h : t.cpu = s.cpu) (l : s.m.latch = .delivered → t.m.latch = .delivered) :
    CpuKept s t := .inl ⟨h, l⟩

theorem CpuKept.cpu {s t : State} (h : CpuKept s t) : t.cpu = s.cpu ∨ t.cpu = s.cpu.vector := by
  rcases h with ⟨a, -⟩ | ⟨a, -, -⟩
  · exact .inl a
  · exact .inr a

/-- What every step of a sub-step after its first does to the state, the video state, the timers and the latch apart:
time, the parameters and the host's side stand still; the register clauses and the canonical form of memory are kept;
the DMA cost only grows; the record only grows. -/
structure SubEffect (s t : State) : Prop where
  cfg : t.cfg = s.cfg
  queue : t.queue = s.queue
  file : t.file = s.file
  cartId : t.cartId = s.cartId
  result : t.result = s.result
  kept : CpuKept s t
  cycleCounter : t.m.cycleCounter = s.m.cycleCounter
  stall : s.m.dmaStall ≤ t.m.dmaStall
  io : s.m.IoOk s.cfg → t.m.IoOk t.cfg
  mem : s.mem.wf = true → t.mem.wf = true
  trace : ∃ new, t.trace = new ++ s.trace

theorem PortEffect.sub {s t : State} (h : PortEffect s t) : SubEffect s t where
  cfg := h.cfg
  queue := h.queue
  file := h.file
  cartId := h.cartId
  result := h.result
  kept := .ofEq h.cpu fun x => by
    rcases h.latch with e | ⟨e, -⟩
    · exact e.trans x
    · rw [e] at x; cases x
  cycleCounter := h.cycleCounter
  stall := h.stall
  io := h.io
  mem := h.mem
  trace := h.trace

theorem SubEffect.refl (s : State) : SubEffect s s := (PortEffect.refl s).sub

theorem SubEffect.trans {s t u : State} (h : SubEffect s t) (k : SubEffect t u) : SubEffect s u where
  cfg := k.cfg.trans h.cfg
  queue := k.queue.trans h.queue
  file := k.file.trans h.file
  cartId := k.cartId.trans h.cartId
  result := k.result.trans h.result
  kept := h.kept.trans k.kept
  cycleCounter := k.cycleCounter.trans h.cycleCounter
  stall := Nat.le_trans h.stall k.stall
  io x := k.io (h.io x)
  mem x := k.mem (h.mem x)
  trace := by
    obtain ⟨a, ha⟩ := h.trace
    obtain ⟨b, hb⟩ := k.trace
    exact ⟨b ++ a, by rw [hb, ha, List.append_assoc]⟩

/-- A change of `M` alone. -/
theorem SubEffect.onBlock (s : State) (f : Block → Block) (cc : (f s.m).cycleCounter = s.m.cycleCounter)
    (stall : s.m.dmaStall ≤ (f s.m).dmaStall) (latch : s.m.latch = .delivered → (f s.m).latch = .delivered)
    (io : s.m.IoOk s.cfg → (f s.m).IoOk s.cfg) : SubEffect s (s.onBlock f) where
  cfg := rfl
  queue := rfl
  file := rfl
  cartId := rfl
  result := rfl
  kept := .ofEq rfl latch
  cycleCounter := cc
  stall := stall
  io := io
  mem h := h
  trace := ⟨[], rfl⟩

/-! ## The edge -/

/-- What `VideoEdge` does: the sub-step's effect, the next video state, the video clauses for it; the timers but for
pending applies and the CPU's flags are left alone, and at most an idle latch is armed. -/
structure EdgeEffect (s t : State) : Prop extends SubEffect s t where
  cpu : t.cpu = s.cpu
  audio : t.audio = s.audio
  video : t.m.video = edge s.m.video
  line : s.m.LineOk → t.m.LineOk
  timers : ∀ i, ∃ p, t.m.timer i = { s.m.timer i with pending := p }
  latch : t.m.latch = s.m.latch ∨ (s.m.latch = .idle ∧ t.m.latch = .pending IRQ_LATENCY)

/-- An edge of `M` alone, then a trigger check. -/
theorem EdgeEffect.ofBlock {s u t : State} (f : Block → Block) (hu : PortEffect s u) (hm : u.m = s.m)
    (cc : (f u.m).cycleCounter = u.m.cycleCounter) (stall : (f u.m).dmaStall = u.m.dmaStall)
    (latch : (f u.m).latch = u.m.latch) (timers : ∀ i, (f u.m).timer i = u.m.timer i)
    (io : ∀ cfg, u.m.IoOk cfg → (f u.m).IoOk cfg) (video : (f u.m).video = edge u.m.video)
    (line : u.m.LineOk → (f u.m).LineOk) (h : PortEffect (u.onBlock f) t) : EdgeEffect s t where
  toSubEffect := hu.sub.trans ((SubEffect.onBlock u f cc (Nat.le_of_eq stall.symm) (fun x => latch.trans x) (io _)).trans h.sub)
  cpu := h.cpu.trans hu.cpu
  audio := h.audio.trans hu.audio
  video := by rw [h.video, onBlock_m, video, hm]
  line x := (line (hm ▸ x)).congr h.video h.vcount h.status
  timers i := by
    obtain ⟨p, hp⟩ := h.timers i
    exact ⟨p, by rw [hp, onBlock_m, timers, hm]⟩
  latch := by
    rcases h.latch with e | ⟨e, k⟩
    · left; rw [e, onBlock_m, latch, hm]
    · right; exact ⟨by rw [← hm, ← latch]; exact e, k⟩

theorem enterHblank_io {cfg : Config} {m : Block} (h : m.IoOk cfg) : m.enterHblank.IoOk cfg :=
  ((h.withVideo _).setDispstat (by decide)).raiseIfGated _ (by decide)

theorem enterHblank_dispstat (m : Block) : m.enterHblank.getIo 0x004 = m.getIo 0x004 ||| 0x0002 := by
  unfold Block.enterHblank
  simp only
  rw [raiseIfGated_getIo_ne _ _ _ (by decide), setDispstat_getIo, if_pos rfl]; rfl

theorem enterHblank_line {m : Block} (h : m.LineOk) (hd : m.video.mode = .drawing) : m.enterHblank.LineOk := by
  have hv : m.enterHblank.video = ⟨m.video.scanline, .hblank, 0⟩ := by
    unfold Block.enterHblank; simp [Block.setDispstat]
  have hm : ¬ VBLANK_FIRST ≤ m.video.scanline := fun e => by have := h.mode.mpr e; rw [hd] at this; cases this
  have hb := h.vbl
  rw [hd] at hb
  refine ⟨by rw [hv]; exact h.line, ?_, ?_, ?_, ?_⟩
  · rw [hv]; exact ⟨nofun, fun e => absurd e hm⟩
  · rw [hv, enterHblank_dispstat, BitVec.getLsbD_or]
    simp only [reduceCtorEq, iff_false] at hb ⊢
    simpa using hb
  · rw [hv, enterHblank_dispstat, BitVec.getLsbD_or]; simp
  · rw [hv]
    have : m.enterHblank.getIo 0x006 = m.getIo 0x006 := by
      unfold Block.enterHblank
      simp only
      rw [raiseIfGated_getIo_ne _ _ _ (by decide), setDispstat_getIo, if_neg (by decide)]; rfl
    rw [this]; exact h.vcount

theorem evHblankStart_effect {s t : State} (hd : s.m.video.mode = .drawing) (h : execEvHblankStart s = .next t) :
    EdgeEffect s t := by
  refine EdgeEffect.ofBlock (u := requestRender s) Block.enterHblank (PortEffect.emit s _) rfl ?_ ?_ ?_ ?_ ?_ ?_ ?_
    (checkAndTrigger_effect h)
  · simp [Block.enterHblank, Block.setDispstat]
  · simp [Block.enterHblank, Block.setDispstat]
  · simp [Block.enterHblank, Block.setDispstat]
  · intro i; simp [Block.enterHblank, Block.setDispstat]
  · exact fun _ h => enterHblank_io h
  · have hd' : (requestRender s).m.video.mode = .drawing := hd
    simp [Block.enterHblank, Block.setDispstat, edge, hd']
  · exact fun x => enterHblank_line x hd

/-- `LineEnd` of `M`, both branches (R262). -/
def Block.lineEnd (m : Block) : Block :=
  if m.endLine.video.scanline = VBLANK_FIRST then m.endLine.enterVblank else m.endLine.enterDrawing

theorem endLine_video (m : Block) : m.endLine.video = ⟨m.video.scanline + 1, m.video.mode, 0⟩ := rfl

theorem lineEnd_video {m : Block} (hm : m.video.mode = .hblank) : m.lineEnd.video = edge m.video := by
  unfold Block.lineEnd edge
  rw [hm, endLine_video]
  simp only
  split <;> simp [Block.enterVblank, Block.enterDrawing, endLine_video, Block.setDispstat]

theorem endLine_io {cfg : Config} {m : Block} (h : m.IoOk cfg) : m.endLine.IoOk cfg :=
  ((h.clearDispstat _).withVideo _).setVcount

theorem lineEnd_io {cfg : Config} {m : Block} (h : m.IoOk cfg) : m.lineEnd.IoOk cfg := by
  unfold Block.lineEnd
  split
  · exact ((((endLine_io h).withVideo _).setDispstat (by decide)).vcountCompare).raiseIfGated _ (by decide)
  · exact ((endLine_io h).withVideo _).vcountCompare

theorem endLine_dispstat (m : Block) : m.endLine.getIo 0x004 = m.getIo 0x004 &&& ~~~0x0002 := by
  unfold Block.endLine
  simp only
  rw [setVcount_getIo, if_neg (by decide)]
  exact (clearDispstat_getIo m 0x0002 0x004).trans (if_pos rfl)

theorem endLine_vcount (m : Block) : m.endLine.getIo 0x006 = BitVec.ofNat 16 (m.video.scanline + 1) := by
  unfold Block.endLine
  simp only
  rw [setVcount_getIo, if_pos rfl]; rfl

theorem lineEnd_line {m : Block} (h : m.LineOk) (hm : m.video.mode = .hblank) : m.lineEnd.LineOk := by
  have hlt : ¬ VBLANK_FIRST ≤ m.video.scanline := fun e => by have := h.mode.mpr e; rw [hm] at this; cases this
  have hv := lineEnd_video hm
  have hvb := h.vbl
  rw [hm] at hvb
  simp only [reduceCtorEq, iff_false, Bool.not_eq_true] at hvb
  unfold edge at hv
  rw [hm] at hv
  simp only at hv
  by_cases e : m.video.scanline + 1 = VBLANK_FIRST
  · rw [if_pos e] at hv
    have hl : m.lineEnd = m.endLine.enterVblank := by unfold Block.lineEnd; rw [endLine_video, if_pos e]
    have hb : ∀ k < 2, (m.lineEnd.getIo 0x004).getLsbD k = (m.endLine.getIo 0x004 ||| 0x0001).getLsbD k := by
      intro k hk
      rw [hl]; unfold Block.enterVblank
      simp only
      rw [raiseIfGated_getIo_ne _ _ _ (by decide), vcountCompare_blank_bit _ hk, setDispstat_getIo, if_pos rfl]; rfl
    refine ⟨by rw [hv]; simp only [VBLANK_LAST, VBLANK_FIRST] at *; omega, ?_, ?_, ?_, ?_⟩
    · rw [hv]; simp [e]
    · rw [hv, hb 0 (by decide), BitVec.getLsbD_or]; simp
    · rw [hv, hb 1 (by decide), BitVec.getLsbD_or, endLine_dispstat, BitVec.getLsbD_and]; simp
    · rw [hl] at hv ⊢; rw [hv]
      unfold Block.enterVblank
      simp only
      rw [raiseIfGated_getIo_ne _ _ _ (by decide), vcountCompare_vcount, setDispstat_getIo, if_neg (by decide)]
      exact endLine_vcount m
  · rw [if_neg e] at hv
    have hl : m.lineEnd = m.endLine.enterDrawing := by unfold Block.lineEnd; rw [endLine_video, if_neg e]
    have hb : ∀ k < 2, (m.lineEnd.getIo 0x004).getLsbD k = (m.endLine.getIo 0x004).getLsbD k := by
      intro k hk
      rw [hl]; unfold Block.enterDrawing
      simp only
      rw [vcountCompare_blank_bit _ hk]; rfl
    refine ⟨by rw [hv]; simp only [VBLANK_LAST, VBLANK_FIRST] at *; omega, ?_, ?_, ?_, ?_⟩
    · rw [hv]; simp only [reduceCtorEq, false_iff, VBLANK_FIRST] at *; omega
    · rw [hv, hb 0 (by decide), endLine_dispstat, BitVec.getLsbD_and, hvb]; simp
    · rw [hv, hb 1 (by decide), endLine_dispstat, BitVec.getLsbD_and]; simp
    · rw [hl] at hv ⊢; rw [hv]
      unfold Block.enterDrawing
      simp only
      rw [vcountCompare_vcount]
      exact endLine_vcount m

theorem lineEnd_rest (m : Block) : m.lineEnd.cycleCounter = m.cycleCounter ∧ m.lineEnd.dmaStall = m.dmaStall ∧
    m.lineEnd.latch = m.latch ∧ ∀ i, m.lineEnd.timer i = m.timer i := by
  unfold Block.lineEnd
  split <;> simp [Block.enterVblank, Block.enterDrawing, Block.setDispstat, Block.endLine, Block.setVcount,
    Block.clearDispstat] <;> exact fun _ => rfl

theorem evLineEnd_effect {s t : State} (hd : s.m.video.mode = .hblank) (h : execEvLineEnd s = .next t) :
    EdgeEffect s t := by
  have hp : PortEffect (s.onBlock Block.lineEnd) t := by
    unfold execEvLineEnd at h
    simp only at h
    split at h
    · have e : s.onBlock Block.lineEnd = (s.onBlock Block.endLine).onBlock Block.enterVblank := by
        simp only [State.onBlock, Block.lineEnd]
        rw [if_pos (by assumption)]
      rw [e]; exact checkAndTrigger_effect h
    · injection h with h
      have e : s.onBlock Block.lineEnd = (s.onBlock Block.endLine).onBlock Block.enterDrawing := by
        simp only [State.onBlock, Block.lineEnd]
        rw [if_neg (by assumption)]
      rw [e, h]; exact PortEffect.refl _
  obtain ⟨h1, h2, h3, h4⟩ := lineEnd_rest s.m
  exact EdgeEffect.ofBlock (u := s) Block.lineEnd (PortEffect.refl s) rfl h1 h2 h3 h4 (fun _ => lineEnd_io)
    (lineEnd_video hd) (fun x => lineEnd_line x hd) hp

theorem endVblankLine_video {m : Block} (hm : m.video.mode = .vblank) : m.endVblankLine.video = edge m.video := by
  unfold Block.endVblankLine edge
  rw [hm]
  simp only
  split <;> simp [Block.setVcount, Block.clearDispstat, hm]

theorem endVblankLine_io {cfg : Config} {m : Block} (h : m.IoOk cfg) : m.endVblankLine.IoOk cfg := by
  unfold Block.endVblankLine
  simp only
  split
  · exact (((h.withVideo _).withVideo _).clearDispstat _).setVcount.vcountCompare
  · exact (((h.withVideo _).withVideo _)).setVcount.vcountCompare

theorem endVblankLine_line {m : Block} (h : m.LineOk) (hm : m.video.mode = .vblank) : m.endVblankLine.LineOk := by
  have hge := h.mode.mp hm
  have hle := h.line
  have hv := endVblankLine_video hm
  have hvb := h.vbl.mpr hm
  have hhb := h.hbl
  rw [hm] at hhb
  simp only [reduceCtorEq, iff_false, Bool.not_eq_true] at hhb
  have hc : m.endVblankLine.getIo 0x006 = BitVec.ofNat 16 m.endVblankLine.video.scanline := by
    unfold Block.endVblankLine
    simp only
    rw [vcountCompare_vcount, setVcount_getIo, if_pos rfl, vcountCompare_video]; rfl
  unfold edge at hv
  rw [hm] at hv
  simp only at hv
  by_cases e : m.video.scanline = VBLANK_LAST
  · rw [if_pos e] at hv
    have hb : ∀ k < 2, (m.endVblankLine.getIo 0x004).getLsbD k = (m.getIo 0x004 &&& ~~~0x0001).getLsbD k := by
      intro k hk
      unfold Block.endVblankLine
      simp only
      rw [vcountCompare_blank_bit _ hk, setVcount_getIo, if_neg (by decide), if_pos e, clearDispstat_getIo, if_pos rfl]; rfl
    refine ⟨by rw [hv]; simp, ?_, ?_, ?_, hc⟩
    · rw [hv]; simp
    · rw [hv, hb 0 (by decide), BitVec.getLsbD_and]; simp
    · rw [hv, hb 1 (by decide), BitVec.getLsbD_and, hhb]; simp
  · rw [if_neg e] at hv
    have hb : ∀ k < 2, (m.endVblankLine.getIo 0x004).getLsbD k = (m.getIo 0x004).getLsbD k := by
      intro k hk
      unfold Block.endVblankLine
      simp only
      rw [vcountCompare_blank_bit _ hk, setVcount_getIo, if_neg (by decide), if_neg e]; rfl
    refine ⟨by rw [hv]; simp only [VBLANK_LAST] at *; omega, ?_, ?_, ?_, hc⟩
    · rw [hv]; simp only [true_iff, VBLANK_FIRST] at *; omega
    · rw [hv, hb 0 (by decide), hvb]; simp
    · rw [hv, hb 1 (by decide), hhb]; simp

theorem endVblankLine_rest (m : Block) : m.endVblankLine.cycleCounter = m.cycleCounter ∧
    m.endVblankLine.dmaStall = m.dmaStall ∧ m.endVblankLine.latch = m.latch ∧
    ∀ i, m.endVblankLine.timer i = m.timer i := by
  unfold Block.endVblankLine
  simp only
  split <;> simp [Block.setVcount, Block.clearDispstat]

/-- Every video edge has the effect of one (R260). -/
theorem videoEdge_effect {s t : State} (h : videoEdge s = .next t) : EdgeEffect s t := by
  unfold videoEdge at h
  split at h
  · exact evHblankStart_effect (by assumption) h
  · exact evLineEnd_effect (by assumption) h
  · injection h with h; subst h
    have hm : s.m.video.mode = .vblank := by assumption
    obtain ⟨h1, h2, h3, h4⟩ := endVblankLine_rest s.m
    exact EdgeEffect.ofBlock (u := s) Block.endVblankLine (PortEffect.refl s) rfl h1 h2 h3 h4 (fun _ => endVblankLine_io)
      (endVblankLine_video hm) (fun x => endVblankLine_line x hm) (PortEffect.refl _)

/-- An edge never faults. -/
theorem videoEdge_no_fault (s : State) (e : Fault) : videoEdge s ≠ .fault e := by
  unfold videoEdge
  split
  · exact checkAndTrigger_no_fault _ _ _ _
  · unfold execEvLineEnd
    simp only
    split
    · exact checkAndTrigger_no_fault _ _ _ _
    · intro h; cases h
  · intro h; cases h

/-- An edge starts a mode, and the position in the frame runs on: what was the end of a mode is the start of the next. -/
theorem edge_framePos {m : Block} (h : m.LineOk) (hc : m.video.cim = modeLen m.video.mode) :
    framePos (edge m.video) = framePos m.video % FRAME_CYCLES ∧ (edge m.video).cim < modeLen (edge m.video).mode := by
  have hmode := h.mode
  have hl := h.line
  generalize m.video = v at *
  obtain ⟨n, mo, c⟩ := v
  simp only at *
  subst hc
  cases mo <;> simp only [edge, framePos, modeLen, FRAME_CYCLES, LINE_CYCLES, DRAW_CYCLES, HBLANK_CYCLES, VBLANK_LAST,
    VBLANK_FIRST, reduceCtorEq, ite_true, ite_false, false_iff, true_iff] at *
  · omega
  · split <;> simp <;> omega
  · split <;> simp <;> omega

end Sys2Proof.Machine
end

