-- ==== Sys2Proof/Laws/Timers.lean ====
section
/-! SUPPORT. What a timer step and an interrupt check do: the timers' countdowns afterwards, the rest left alone. -/

namespace Sys2Proof.Machine

/-- The longest period (R47 (d)). -/
abbrev MAX_TICKS : Nat := 0x10000 * 2 ^ 10

theorem shift_le (p : Prescale) : 2 ^ p.shift ≤ 2 ^ 10 := by cases p <;> simp [Prescale.shift]

theorem shift_pos (p : Prescale) : 1 ≤ 2 ^ p.shift := Nat.one_le_two_pow

theorem cyclesFrom_pos (v : Half) (p : Prescale) : 1 ≤ cyclesFrom v p := by
  have h : 1 ≤ 0x10000 - v.toNat := by have := v.isLt; omega
  simpa [cyclesFrom] using Nat.mul_le_mul h (shift_pos p)

theorem cyclesFrom_le (v : Half) (p : Prescale) : cyclesFrom v p ≤ MAX_TICKS := by
  unfold cyclesFrom MAX_TICKS
  exact Nat.mul_le_mul (Nat.sub_le _ _) (shift_le p)

/-- The countdown of a timer, where it has one, is at most the longest period. -/
def ticksTop (i : Fin 4) (t : Timer) : Prop := freeRunning i t = true → t.ticks ≤ MAX_TICKS

/-- Clause (d) of R47 for one timer. -/
def ticksOk (i : Fin 4) (t : Timer) : Prop := freeRunning i t = true → 1 ≤ t.ticks ∧ t.ticks ≤ MAX_TICKS

theorem ticksOk.top {i : Fin 4} {t : Timer} (h : ticksOk i t) : ticksTop i t := fun e => (h e).2

theorem ticksOk_pending {i : Fin 4} {t : Timer} {p : Bool} : ticksOk i { t with pending := p } ↔ ticksOk i t := Iff.rfl
theorem ticksTop_pending {i : Fin 4} {t : Timer} {p : Bool} : ticksTop i { t with pending := p } ↔ ticksTop i t := Iff.rfl

/-- Everything one timer's turn can do to the timer (R203, R204). -/
theorem tick_cases (i : Fin 4) (reload : Half) (before : Bool) (t : Timer) :
    (tick i reload before t = (t, false) ∧ (freeRunning i t = true → t.ticks ≠ 0)) ∨
    (freeRunning i t = true ∧ t.ticks = 0 ∧
      tick i reload before t = ({ t with ticks := cyclesFrom reload t.shift }, true)) ∨
    (t.running = true ∧ casc i t = true ∧ before = true ∧ t.value + 1 ≠ 0 ∧
      tick i reload before t = ({ t with value := t.value + 1 }, false)) ∨
    (t.running = true ∧ casc i t = true ∧ before = true ∧ t.value + 1 = 0 ∧
      tick i reload before t = ({ t with value := reload }, true)) := by
  unfold tick freeRunning
  by_cases hr : t.running = true
  · by_cases hc : casc i t = true
    · cases before
      · left; simp [hr, hc]
      · by_cases hv : t.value + 1 = 0
        · right; right; right; simp only [hr, hc, if_true, if_pos hv]; exact ⟨trivial, trivial, trivial, hv, trivial⟩
        · right; right; left; simp only [hr, hc, if_true, if_neg hv]; exact ⟨trivial, trivial, trivial, hv, trivial⟩
    · by_cases ht : t.ticks = 0
      · right; left; simp [hr, hc, ht]
      · left; simp [hr, hc, ht]
  · left; simp [hr]

/-- After a turn a countdown is at least 1. -/
theorem tick_ok {i : Fin 4} {t : Timer} (h : ticksTop i t) (reload : Half) (before : Bool) :
    ticksOk i (tick i reload before t).1 := by
  rcases tick_cases i reload before t with ⟨e, h0⟩ | ⟨hf, h0, e⟩ | ⟨hr, hc, -, -, e⟩ | ⟨hr, hc, -, -, e⟩ <;> rw [e]
  · exact fun hf => ⟨Nat.one_le_iff_ne_zero.mpr (h0 hf), h hf⟩
  · exact fun _ => ⟨cyclesFrom_pos _ _, cyclesFrom_le _ _⟩
  · intro hf
    have : freeRunning i t = true := hf
    simp [freeRunning, hc] at this
  · intro hf
    have : freeRunning i t = true := hf
    simp [freeRunning, hc] at this

/-! ## The effect of a step that keeps the video state -/

/-- What a timer step or an interrupt check does, the timers apart. -/
structure StepEffect (s t : State) : Prop extends SubEffect s t where
  video : t.m.video = s.m.video
  vcount : t.m.getIo 0x006 = s.m.getIo 0x006
  status : t.m.getIo 0x004 &&& 0x0007 = s.m.getIo 0x004 &&& 0x0007

theorem PortEffect.step {s t : State} (h : PortEffect s t) : StepEffect s t where
  toSubEffect := h.sub
  video := h.video
  vcount := h.vcount
  status := h.status

theorem StepEffect.refl (s : State) : StepEffect s s := (PortEffect.refl s).step

theorem StepEffect.trans {s t u : State} (h : StepEffect s t) (k : StepEffect t u) : StepEffect s u where
  toSubEffect := h.toSubEffect.trans k.toSubEffect
  video := k.video.trans h.video
  vcount := k.vcount.trans h.vcount
  status := k.status.trans h.status

theorem StepEffect.lineOk {s t : State} (h : StepEffect s t) (x : s.m.LineOk) : t.m.LineOk :=
  x.congr h.video h.vcount h.status

/-- The latch was left alone, or was idle and is armed. -/
def latchKept (s t : State) : Prop := t.m.latch = s.m.latch ∨ (s.m.latch = .idle ∧ t.m.latch = .pending IRQ_LATENCY)

theorem latchKept.trans {s t u : State} (h : latchKept s t) (k : latchKept t u) : latchKept s u := by
  rcases h with a | ⟨a, b⟩ <;> rcases k with c | ⟨c, d⟩
  · exact .inl (c.trans a)
  · exact .inr ⟨a.symm.trans c, d⟩
  · exact .inr ⟨a, c.trans b⟩
  · exact .inr ⟨a, d⟩

/-- The signal to audio uses an answer up and is recorded (R205, R299). -/
theorem signalAudio_effect (i : Fin 4) (s : State) : StepEffect s (signalAudio i s).1 :=
  ⟨{ SubEffect.refl s with trace := ⟨[_], rfl⟩ }, rfl, rfl, rfl⟩

/-- `Overflow` (R205): a port operation's effect but for the audio answers used up. -/
theorem overflow_effect {i : Fin 4} {s t : State} (h : overflow i s = .next t) :
    StepEffect s t ∧ latchKept s t ∧ t.cpu = s.cpu ∧ ∀ j, ∃ p, t.m.timer j = { s.m.timer j with pending := p } := by
  have h2 := PortEffect.raiseIfGated (signalAudio i s).1 (s.m.timer i).irqEnable (b := 3 + i.val)
    (by have := i.isLt; omega)
  have key : ∀ {t : State}, PortEffect (signalAudio i s).1 t →
      StepEffect s t ∧ latchKept s t ∧ t.cpu = s.cpu ∧ ∀ j, ∃ p, t.m.timer j = { s.m.timer j with pending := p } :=
    fun k => ⟨(signalAudio_effect i s).trans k.step, k.latch, k.cpu, k.timers⟩
  unfold overflow at h
  simp only at h
  split at h
  · exact key (h2.trans (checkAndTrigger_effect h))
  · injection h with h; subst h; exact key h2

theorem overflow_no_fault (i : Fin 4) (s : State) (e : Fault) : overflow i s ≠ .fault e := by
  unfold overflow
  simp only
  split
  · exact checkAndTrigger_no_fault _ _ _ _
  · intro h; cases h

/-- One turn of the timer loop: the timer whose turn it is ticks, the others but for pending applies and everything
else but for an overflow's effects are left alone. -/
theorem stepTimer_effect {i : Fin 4} {b o : Bool} {s t : State} (h : stepTimer i b s = .next (t, o)) :
    StepEffect s t ∧ latchKept s t ∧ t.cpu = s.cpu ∧ o = (tick i (s.m.reload i) b (s.m.timer i)).2 ∧
    (∃ p, t.m.timer i = { (tick i (s.m.reload i) b (s.m.timer i)).1 with pending := p }) ∧
    ∀ j, j ≠ i → ∃ p, t.m.timer j = { s.m.timer j with pending := p } := by
  unfold stepTimer at h
  simp only at h
  have h0 : PortEffect s s := PortEffect.refl s
  have h1 : StepEffect s (s.onBlock fun m => m.setTimer i (tick i (s.m.reload i) b (s.m.timer i)).1) :=
    ⟨SubEffect.onBlock s _ rfl (Nat.le_refl _) (fun x => x) fun x => x.congr rfl rfl, rfl, rfl, rfl⟩
  split at h
  · obtain ⟨u, hu, hx⟩ := andThen_eq_next.mp h
    injection hx with hx
    injection hx with hx ho
    subst hx
    obtain ⟨k1, k2, k3, k4⟩ := overflow_effect hu
    refine ⟨h1.trans k1, k2, k3, by rw [← ho]; exact (by assumption : _ = true).symm, ?_, fun j hj => ?_⟩
    · obtain ⟨p, hp⟩ := k4 i
      exact ⟨p, by rw [hp, onBlock_m, timer_setTimer_same]⟩
    · obtain ⟨p, hp⟩ := k4 j
      exact ⟨p, by rw [hp, onBlock_m, timer_setTimer, if_neg (Ne.symm hj)]⟩
  · injection h with h
    injection h with hx ho
    subst hx
    refine ⟨h1, .inl rfl, rfl, ?_, ?_, fun j hj => ?_⟩
    · rw [← ho]; exact (Bool.eq_false_of_not_eq_true (by assumption)).symm
    · exact ⟨(tick i (s.m.reload i) b (s.m.timer i)).1.pending, by rw [onBlock_m, timer_setTimer_same]⟩
    · exact ⟨(s.m.timer j).pending, by rw [onBlock_m, timer_setTimer, if_neg (Ne.symm hj)]⟩

theorem stepTimer_no_fault (i : Fin 4) (b : Bool) (s : State) (e : Fault) : stepTimer i b s ≠ .fault e := by
  unfold stepTimer
  simp only
  split
  · intro h
    rcases andThen_eq_fault.mp h with h | ⟨u, -, h⟩
    · exact overflow_no_fault _ _ _ h
    · cases h
  · intro h; cases h

/-- A timer step gives every countdown that lies within its top a value from 1 on (R203, R47 (d)). -/
theorem timerStep_effect {s t : State} (h : timerStep s = .next t) :
    StepEffect s t ∧ latchKept s t ∧ t.cpu = s.cpu ∧
    ((∀ i, ticksTop i (s.m.timer i)) → ∀ i, ticksOk i (t.m.timer i)) := by
  obtain ⟨⟨u0, o0⟩, h0, h⟩ := andThen_eq_next.mp h
  obtain ⟨⟨u1, o1⟩, h1, h⟩ := andThen_eq_next.mp h
  obtain ⟨⟨u2, o2⟩, h2, h⟩ := andThen_eq_next.mp h
  obtain ⟨⟨u3, o3⟩, h3, h⟩ := andThen_eq_next.mp h
  injection h with h; subst h
  obtain ⟨a0, b0, c0, -, d0, e0⟩ := stepTimer_effect h0
  obtain ⟨a1, b1, c1, -, d1, e1⟩ := stepTimer_effect h1
  obtain ⟨a2, b2, c2, -, d2, e2⟩ := stepTimer_effect h2
  obtain ⟨a3, b3, c3, -, d3, e3⟩ := stepTimer_effect h3
  refine ⟨a0.trans (a1.trans (a2.trans a3)), b0.trans (b1.trans (b2.trans b3)),
    c3.trans (c2.trans (c1.trans c0)), fun htop => ?_⟩
  have done : ∀ {i : Fin 4} {b : Bool} {u v : State}, ticksTop i (u.m.timer i) →
      (∃ p, v.m.timer i = { (tick i (u.m.reload i) b (u.m.timer i)).1 with pending := p }) → ticksOk i (v.m.timer i) := by
    rintro i b u v hu ⟨p, hp⟩
    rw [hp, ticksOk_pending]; exact tick_ok hu _ _
  have kept : ∀ {j : Fin 4} {u v : State}, (∃ p, v.m.timer j = { u.m.timer j with pending := p }) →
      ticksOk j (u.m.timer j) → ticksOk j (v.m.timer j) := by
    rintro j u v ⟨p, hp⟩ hu
    rw [hp, ticksOk_pending]; exact hu
  have top : ∀ {j : Fin 4} {u v : State}, (∃ p, v.m.timer j = { u.m.timer j with pending := p }) →
      ticksTop j (u.m.timer j) → ticksTop j (v.m.timer j) := by
    rintro j u v ⟨p, hp⟩ hu
    rw [hp, ticksTop_pending]; exact hu
  have t0 := done (htop 0) d0
  have t1 := done (top (e0 1 (by decide)) (htop 1)) d1
  have t2 := done (top (e1 2 (by decide)) (top (e0 2 (by decide)) (htop 2))) d2
  have t3 := done (top (e2 3 (by decide)) (top (e1 3 (by decide)) (top (e0 3 (by decide)) (htop 3)))) d3
  intro i
  fin_cases i
  · exact kept (e3 0 (by decide)) (kept (e2 0 (by decide)) (kept (e1 0 (by decide)) t0))
  · exact kept (e3 1 (by decide)) (kept (e2 1 (by decide)) t1)
  · exact kept (e3 2 (by decide)) t2
  · exact t3

theorem timerStep_no_fault (s : State) (e : Fault) : timerStep s ≠ .fault e := by
  intro h
  rcases andThen_eq_fault.mp h with h | ⟨u, -, h⟩
  · exact stepTimer_no_fault _ _ _ _ h
  rcases andThen_eq_fault.mp h with h | ⟨u, -, h⟩
  · exact stepTimer_no_fault _ _ _ _ h
  rcases andThen_eq_fault.mp h with h | ⟨u, -, h⟩
  · exact stepTimer_no_fault _ _ _ _ h
  rcases andThen_eq_fault.mp h with h | ⟨u, -, h⟩
  · exact stepTimer_no_fault _ _ _ _ h
  · cases h

/-- A timer that is stopped, or free-running with its countdown not over, is left as it is by its turn (R203). -/
theorem stepTimer_idle {s : State} {i : Fin 4} (b : Bool)
    (h : (s.m.timer i).running = false ∨ (freeRunning i (s.m.timer i) = true ∧ (s.m.timer i).ticks ≠ 0)) :
    stepTimer i b s = .next (s, false) := by
  have e : tick i (s.m.reload i) b (s.m.timer i) = (s.m.timer i, false) := by
    unfold tick
    rcases h with h | ⟨h, h2⟩
    · rw [h]; rfl
    · simp only [freeRunning, Bool.and_eq_true, Bool.not_eq_true'] at h
      rw [if_pos h.1, if_neg (by rw [h.2]; decide), if_neg h2]
  unfold stepTimer
  rw [e]
  simp only [State.onBlock, setTimer_self]
  rfl

/-- The deferred apply (R202) leaves a countdown within its bounds. -/
theorem applyTimer_ok {i : Fin 4} {t : Timer} (h : ticksOk i t) (ctl reload : Half) :
    ticksOk i (applyTimer i ctl reload t) := by
  unfold applyTimer
  simp only
  split
  · exact fun _ => ⟨cyclesFrom_pos _ _, cyclesFrom_le _ _⟩
  · intro hf; simp [freeRunning] at hf
  · split
    · exact fun _ => ⟨cyclesFrom_pos _ _, cyclesFrom_le _ _⟩
    · intro hf; simp_all [freeRunning, casc]
    · intro hf
      have hr : t.running = true := by assumption
      simp_all [freeRunning]
    · intro hf
      have hr : t.running = true := by assumption
      exact h (by simp_all [freeRunning])
  · intro hf; simp_all [freeRunning]

/-! ## The interrupt check -/

/-- What `IrqCheck` does (R155): the latch's countdown is over or at least 1 afterwards. -/
theorem irqCheck_effect {s t : State} (h : execEvIrqCheck s = .next t) :
    StepEffect s t ∧ (∀ i, t.m.timer i = s.m.timer i) ∧
    ((∀ k, s.m.latch = .pending k → k ≤ IRQ_LATENCY) → ∀ k, t.m.latch = .pending k → 1 ≤ k ∧ k ≤ IRQ_LATENCY) := by
  unfold execEvIrqCheck at h
  injection h with h; subst h
  have key : ∀ u : State, StepEffect u (irqEval u) := fun u => (PortEffect.irqEval u).step
  have latch : ∀ u : State, (∀ k, u.m.latch = .pending k → 1 ≤ k ∧ k ≤ IRQ_LATENCY) →
      ∀ k, (irqEval u).m.latch = .pending k → 1 ≤ k ∧ k ≤ IRQ_LATENCY := by
    intro u hu k hk
    rcases (PortEffect.irqEval u).latch with e | ⟨-, e⟩
    · exact hu k (by rw [← e]; exact hk)
    · rw [e] at hk; injection hk with hk; subst hk; decide
  have timers : ∀ u : State, ∀ i, (irqEval u).m.timer i = u.m.timer i := by
    intro u i; simp [irqEval]
  unfold expireLatch
  by_cases h0 : s.m.latch = .pending 0
  · rw [if_pos h0]
    by_cases hd : s.m.deliverable s.cpu.irqEnabled = true
    · rw [if_pos hd]
      have e : StepEffect s (takeInterrupt s) :=
        ⟨{ SubEffect.refl s with
            kept := .inr ⟨rfl, by rw [h0]; simp, rfl⟩, io := fun x => x.congr rfl rfl, trace := ⟨[_], rfl⟩ }, rfl, rfl, rfl⟩
      exact ⟨e.trans (key _), fun i => timers _ i, fun _ => latch _ (by intro k hk; simp at hk)⟩
    · rw [if_neg hd]
      have e : StepEffect s (s.onBlock fun m => { m with latch := .idle }) :=
        ⟨SubEffect.onBlock s _ rfl (Nat.le_refl _) (fun x => by rw [h0] at x; cases x) fun x => x.congr rfl rfl,
          rfl, rfl, rfl⟩
      exact ⟨e.trans (key _), fun i => timers _ i, fun _ => latch _ (by intro k hk; cases hk)⟩
  · rw [if_neg h0]
    refine ⟨key s, timers s, fun hl => latch s fun k hk => ⟨?_, hl k hk⟩⟩
    rcases Nat.eq_zero_or_pos k with e | e
    · subst e; exact absurd hk h0
    · exact e

end Sys2Proof.Machine
end

