-- ==== Sys2Proof/Laws/Scheduler.lean ====
section
/-! SUPPORT. The horizon's bounds, the advance of the countdowns, and what a sub-step, an accounted span and a CPU
instruction do under the invariant: `Elapsed`, said once. -/

namespace Sys2Proof.Machine

/-! ## The horizon (R123) -/

theorem video_mem_countdowns (m : Block) : modeLen m.video.mode - m.video.cim ∈ m.countdowns := by
  simp [Block.countdowns]

theorem timer_mem_countdowns {m : Block} {i : Fin 4} (h : freeRunning i (m.timer i) = true) :
    (m.timer i).ticks ∈ m.countdowns := by
  simp only [Block.countdowns, List.mem_append, List.mem_map, List.mem_filter]
  exact .inl (.inl (.inr ⟨i, ⟨List.mem_finRange i, h⟩, rfl⟩))

theorem stall_mem_countdowns {m : Block} (h : 0 < m.dmaStall) : m.dmaStall ∈ m.countdowns := by
  simp [Block.countdowns, h]

theorem latch_mem_countdowns {m : Block} {k : Nat} (h : m.latch = .pending k) : k ∈ m.countdowns := by
  simp [Block.countdowns, h]

/-- Under the invariant every countdown is at least 1. -/
theorem countdowns_pos {cfg : Config} {m : Block} (h : m.Inv cfg) : ∀ c ∈ m.countdowns, 1 ≤ c := by
  intro c hc
  simp only [Block.countdowns, List.mem_append, List.mem_map, List.mem_filter, List.mem_singleton] at hc
  rcases hc with ((hc | ⟨i, ⟨-, hi⟩, hc⟩) | hc) | hc
  · have := h.cim; omega
  · have := (h.ticks i hi).1; omega
  · split at hc
    · simp only [List.mem_singleton] at hc; omega
    · cases hc
  · split at hc
    · rename_i k hk
      simp only [List.mem_singleton] at hc
      have := (h.latch k hk).1; omega
    · cases hc
    · cases hc

/-- The horizon is the least countdown. -/
theorem horizon_spec (m : Block) : ∃ h, m.horizon = some h ∧ h ∈ m.countdowns ∧ ∀ c ∈ m.countdowns, h ≤ c := by
  have hne : m.countdowns ≠ [] := List.ne_nil_of_mem (video_mem_countdowns m)
  obtain ⟨h, hh⟩ := Option.isSome_iff_exists.mp (List.isSome_min?_of_ne_nil hne)
  exact ⟨h, hh, List.min?_mem hh, fun c hc => (List.le_min?_iff hh).mp (Nat.le_refl h) c hc⟩

/-- A capped span is at most every countdown, at most what it caps, and under the invariant at least 1. -/
theorem capped_spec (m : Block) (n : Nat) : (∀ c ∈ m.countdowns, m.capped n ≤ c) ∧ m.capped n ≤ n := by
  obtain ⟨h, hh, -, hle⟩ := horizon_spec m
  simp only [Block.capped, hh]
  exact ⟨fun c hc => Nat.le_trans (Nat.min_le_left _ _) (hle c hc), Nat.min_le_right _ _⟩

theorem capped_pos {cfg : Config} {m : Block} (hm : m.Inv cfg) {n : Nat} (hn : 1 ≤ n) : 1 ≤ m.capped n := by
  obtain ⟨h, hh, hmem, -⟩ := horizon_spec m
  simp only [Block.capped, hh]
  exact Nat.le_min.mpr ⟨countdowns_pos hm h hmem, hn⟩

/-! ## The advance (R125, step 1) -/

theorem freeRunning_advance (i : Fin 4) (n : Nat) (t : Timer) : freeRunning i (t.advance i n) = freeRunning i t := by
  unfold Timer.advance; split <;> rfl

@[simp] theorem advance_timer (m : Block) (n : Nat) (src : Source) (i : Fin 4) :
    (m.advance n src).timer i = (m.timer i).advance i n := by
  simp [Block.advance, Block.timer]

@[simp] theorem advance_getIo (m : Block) (n : Nat) (src : Source) (a : Nat) : (m.advance n src).getIo a = m.getIo a := rfl
@[simp] theorem advance_video (m : Block) (n : Nat) (src : Source) :
    (m.advance n src).video = { m.video with cim := m.video.cim + n } := rfl
@[simp] theorem advance_cycleCounter (m : Block) (n : Nat) (src : Source) :
    (m.advance n src).cycleCounter = m.cycleCounter + n := rfl
@[simp] theorem advance_latch (m : Block) (n : Nat) (src : Source) : (m.advance n src).latch = m.latch.advance n := rfl
@[simp] theorem advance_wt (m : Block) (n : Nat) (src : Source) : (m.advance n src).wt = m.wt := rfl

theorem advance_ticksTop {cfg : Config} {m : Block} (h : m.Inv cfg) (n : Nat) (src : Source) (i : Fin 4) :
    ticksTop i ((m.advance n src).timer i) := by
  intro hf
  rw [advance_timer, freeRunning_advance] at hf
  rw [advance_timer, Timer.advance, if_pos hf]
  exact Nat.le_trans (Nat.sub_le _ _) (h.ticks i hf).2

theorem advance_latch_le {cfg : Config} {m : Block} (h : m.Inv cfg) (n : Nat) (src : Source) :
    ∀ k, (m.advance n src).latch = .pending k → k ≤ IRQ_LATENCY := by
  intro k hk
  rw [advance_latch] at hk
  cases hl : m.latch with
  | idle => rw [hl] at hk; cases hk
  | delivered => rw [hl] at hk; cases hk
  | pending j =>
    rw [hl] at hk
    simp only [Latch.advance, Latch.pending.injEq] at hk
    have := (h.latch j hl).2; omega

/-! ## Elapsed time -/

/-- What every operation under the invariant does while `n` cycles are accounted: the parameters and the host's side
stand still, the cycle counter and the position in the frame move by `n`, the invariant and memory's form are kept, and
the record only grows. -/
structure Elapsed (n : Nat) (s t : State) : Prop where
  cfg : t.cfg = s.cfg
  queue : t.queue = s.queue
  file : t.file = s.file
  cartId : t.cartId = s.cartId
  result : t.result = s.result
  cycleCounter : t.m.cycleCounter = s.m.cycleCounter + n
  frame : framePos t.m.video = (framePos s.m.video + n) % FRAME_CYCLES
  inv : t.m.Inv t.cfg
  mem : s.mem.wf = true → t.mem.wf = true
  trace : ∃ new, t.trace = new ++ s.trace

theorem Elapsed.trans {n k : Nat} {s t u : State} (h : Elapsed n s t) (g : Elapsed k t u) : Elapsed (n + k) s u where
  cfg := g.cfg.trans h.cfg
  queue := g.queue.trans h.queue
  file := g.file.trans h.file
  cartId := g.cartId.trans h.cartId
  result := g.result.trans h.result
  cycleCounter := by rw [g.cycleCounter, h.cycleCounter, Nat.add_assoc]
  frame := by rw [g.frame, h.frame, Nat.mod_add_mod, Nat.add_assoc]
  inv := g.inv
  mem x := g.mem (h.mem x)
  trace := by
    obtain ⟨a, ha⟩ := h.trace
    obtain ⟨b, hb⟩ := g.trace
    exact ⟨b ++ a, by rw [hb, ha, List.append_assoc]⟩

/-- Under the invariant the position lies within a frame. -/
theorem framePos_lt {cfg : Config} {m : Block} (h : m.Inv cfg) : framePos m.video < FRAME_CYCLES := by
  have h1 := h.cim
  have h2 := h.line
  have h3 := h.mode
  generalize m.video = v at *
  obtain ⟨n, mo, c⟩ := v
  cases mo <;> simp only [framePos, modeLen, FRAME_CYCLES, LINE_CYCLES, DRAW_CYCLES, HBLANK_CYCLES, VBLANK_LAST,
    VBLANK_FIRST, reduceCtorEq, ite_true, ite_false, false_iff, true_iff] at * <;> omega

/-- The parts of the invariant put together. -/
theorem Block.Inv.ofParts {cfg : Config} {m : Block} (hl : m.LineOk) (hc : m.video.cim < modeLen m.video.mode)
    (hi : m.IoOk cfg) (ht : ∀ i, ticksOk i (m.timer i)) (hL : ∀ k, m.latch = .pending k → 1 ≤ k ∧ k ≤ IRQ_LATENCY) :
    m.Inv cfg :=
  ⟨hc, hl.line, hl.mode, hl.vbl, hl.hbl, hl.vcount, hi.dispstat, ht, hL, hi.masks, hi.flags, hi.wt⟩

/-- What accounts no cycle and leaves countdowns and latch within the invariant. -/
theorem StepEffect.elapsed {s t : State} (h : StepEffect s t) (hs : s.m.Inv s.cfg) (ht : ∀ i, ticksOk i (t.m.timer i))
    (hL : ∀ k, t.m.latch = .pending k → 1 ≤ k ∧ k ≤ IRQ_LATENCY) : Elapsed 0 s t where
  cfg := h.cfg
  queue := h.queue
  file := h.file
  cartId := h.cartId
  result := h.result
  cycleCounter := h.cycleCounter
  frame := by rw [h.video, Nat.add_zero, Nat.mod_eq_of_lt (framePos_lt hs)]
  inv := Block.Inv.ofParts (h.lineOk hs.lineOk) (by rw [h.video]; exact hs.cim) (h.io hs.ioOk) ht hL
  mem := h.mem
  trace := h.trace

/-- A port operation keeps the invariant. -/
theorem PortEffect.elapsed {s t : State} (h : PortEffect s t) (hs : s.m.Inv s.cfg) : Elapsed 0 s t := by
  refine h.step.elapsed hs (fun i => ?_) fun k hk => ?_
  · obtain ⟨p, hp⟩ := h.timers i
    rw [hp]; exact hs.ticks i
  · rcases h.latch with e | ⟨-, e⟩
    · exact hs.latch k (by rw [← e]; exact hk)
    · rw [e] at hk; injection hk with hk; subst hk; decide

theorem Elapsed.refl {s : State} (hs : s.m.Inv s.cfg) : Elapsed 0 s s := (PortEffect.refl s).elapsed hs

/-! ## The sub-step (R125) -/

/-- After the advance and the video step: the video clauses hold with the mode's length not reached, and the position in
the frame has moved. -/
theorem videoStep_effect {n : Nat} {src : Source} {s t : State} (hs : s.m.Inv s.cfg)
    (hn : ∀ c ∈ s.m.countdowns, n ≤ c) (h : videoStep (s.onBlock fun m => m.advance n src) = .next t) :
    t.cfg = s.cfg ∧ t.queue = s.queue ∧ t.file = s.file ∧ t.cartId = s.cartId ∧ t.result = s.result ∧
    t.m.cycleCounter = s.m.cycleCounter + n ∧ framePos t.m.video = (framePos s.m.video + n) % FRAME_CYCLES ∧
    t.m.video.cim < modeLen t.m.video.mode ∧ t.m.LineOk ∧ t.m.IoOk t.cfg ∧ (∀ i, ticksTop i (t.m.timer i)) ∧
    (∀ k, t.m.latch = .pending k → k ≤ IRQ_LATENCY) ∧ (s.mem.wf = true → t.mem.wf = true) ∧
    ∃ new, t.trace = new ++ s.trace := by
  have hline : (s.m.advance n src).LineOk :=
    ⟨hs.line, hs.mode, hs.vbl, hs.hbl, hs.vcount⟩
  have hcim := hs.cim
  have hn0 := hn _ (video_mem_countdowns s.m)
  have hio : (s.m.advance n src).IoOk s.cfg := hs.ioOk.congr rfl rfl
  have hpos : framePos ((s.onBlock fun m => m.advance n src).m.video) = framePos s.m.video + n := by
    exact (Nat.add_assoc _ _ _).symm
  unfold videoStep at h
  split at h
  · have e : (s.onBlock fun m => m.advance n src).m.video.cim = modeLen (s.onBlock fun m => m.advance n src).m.video.mode := by
      rename_i hge
      simp only [onBlock_m, advance_video] at hge ⊢; omega
    have k := videoEdge_effect h
    obtain ⟨f1, f2⟩ := edge_framePos (m := (s.onBlock fun m => m.advance n src).m) hline e
    refine ⟨k.cfg, k.queue, k.file, k.cartId, k.result, k.cycleCounter, by rw [k.video, f1, hpos],
      by rw [k.video]; exact f2, k.line hline, k.io hio, fun i => ?_, fun j hj => ?_, k.mem, k.trace⟩
    · obtain ⟨p, hp⟩ := k.timers i
      rw [hp, ticksTop_pending]; exact advance_ticksTop hs n src i
    · rcases k.latch with l | ⟨-, l⟩
      · exact advance_latch_le hs n src j (by rw [l] at hj; exact hj)
      · rw [l] at hj; injection hj with hj; omega
  · injection h with h; subst h
    rename_i hlt
    have hc : (s.m.advance n src).video.cim < modeLen (s.m.advance n src).video.mode := Nat.lt_of_not_le hlt
    have hi : Block.Inv s.cfg ({ s.m with video := (s.m.advance n src).video }) :=
      ⟨hc, hs.line, hs.mode, hs.vbl, hs.hbl, hs.vcount, hs.dispstat, hs.ticks, hs.latch, hs.masks, hs.flags, hs.wt⟩
    refine ⟨rfl, rfl, rfl, rfl, rfl, rfl, ?_, hc, hline, hio, advance_ticksTop hs n src, advance_latch_le hs n src,
      fun x => x, [], rfl⟩
    rw [hpos]
    have hlt' := framePos_lt hi
    exact (Nat.mod_eq_of_lt (by rw [← hpos]; exact hlt')).symm

/-- Everything a sub-step within the horizon does to the invariant, the time and the rest (R125). -/
theorem subStep_elapsed {n : Nat} {src : Source} {s t : State} (hs : s.m.Inv s.cfg) (hn : ∀ c ∈ s.m.countdowns, n ≤ c)
    (h : subStep n src s = .next t) : Elapsed n s t := by
  obtain ⟨u, hu, h1⟩ := andThen_eq_next.mp h
  obtain ⟨v, hv, h2⟩ := andThen_eq_next.mp h1
  obtain ⟨w, hw, h3⟩ := andThen_eq_next.mp h2
  have huv : v = u := by
    unfold completionStep execEvDmaComplete at hv
    split at hv <;> (injection hv with hv; exact hv.symm)
  rw [huv] at hw
  obtain ⟨a1, a2, a3, a4, a5, a6, a7, a8, a9, a10, a11, a12, a13, a14⟩ := videoStep_effect hs hn hu
  obtain ⟨b1, b2, -, b4⟩ := timerStep_effect hw
  obtain ⟨c1, c2, c3⟩ := irqCheck_effect h3
  have d := b1.trans c1
  refine ⟨d.cfg.trans a1, d.queue.trans a2, d.file.trans a3, d.cartId.trans a4, d.result.trans a5,
    d.cycleCounter.trans a6, by rw [d.video, a7], ?_, fun x => d.mem (a13 x), ?_⟩
  · refine Block.Inv.ofParts (d.lineOk a9) (by rw [d.video]; exact a8) (d.io a10) (fun i => ?_) (c3 ?_)
    · rw [c2 i]; exact b4 a11 i
    · intro k hk
      rcases b2 with l | ⟨-, l⟩
      · exact a12 k (by rw [← l]; exact hk)
      · rw [l] at hk; injection hk with hk; omega
  · obtain ⟨x, hx⟩ := a14
    obtain ⟨y, hy⟩ := d.trace
    exact ⟨y ++ x, by rw [hy, hx, List.append_assoc]⟩

/-- A sub-step runs no instruction of the CPU (R125). -/
theorem subStep_kept {n : Nat} {src : Source} {s t : State} (h : subStep n src s = .next t) : CpuKept s t := by
  obtain ⟨u, hu, h⟩ := andThen_eq_next.mp h
  obtain ⟨v, hv, h⟩ := andThen_eq_next.mp h
  obtain ⟨w, hw, h⟩ := andThen_eq_next.mp h
  have a : CpuKept s (s.onBlock fun m => m.advance n src) := .ofEq rfl fun x => by
    rw [onBlock_m, advance_latch, x]; rfl
  have b : CpuKept (s.onBlock fun m => m.advance n src) u := by
    unfold videoStep at hu
    split at hu
    · exact (videoEdge_effect hu).kept
    · injection hu with hu; subst hu; exact .ofEq rfl fun x => x
  have huv : v = u := by
    unfold completionStep execEvDmaComplete at hv
    split at hv <;> (injection hv with hv; exact hv.symm)
  rw [huv] at hw
  exact ((a.trans b).trans (timerStep_effect hw).1.kept).trans (irqCheck_effect h).1.kept

theorem subStep_no_fault (n : Nat) (src : Source) (s : State) (e : Fault) : subStep n src s ≠ .fault e := by
  intro h
  rcases andThen_eq_fault.mp h with h | ⟨u, -, h⟩
  · unfold videoStep at h
    split at h
    · exact videoEdge_no_fault _ _ h
    · cases h
  rcases andThen_eq_fault.mp h with h | ⟨u, -, h⟩
  · unfold completionStep at h
    split at h <;> cases h
  rcases andThen_eq_fault.mp h with h | ⟨u, -, h⟩
  · exact timerStep_no_fault _ _ h
  · cases h

/-! ## Accounting (R124) -/

/-- An accounted span takes exactly its cycles and keeps the invariant. -/
theorem accountLoop_elapsed {src : Source} {fuel rem : Nat} {s t : State} (hs : s.m.Inv s.cfg)
    (h : accountLoop src fuel rem s = .next t) : Elapsed rem s t := by
  induction fuel generalizing rem s with
  | zero =>
    cases rem with
    | zero => injection h with h; subst h; exact Elapsed.refl hs
    | succ r => cases h
  | succ fuel ih =>
    cases rem with
    | zero => injection h with h; subst h; exact Elapsed.refl hs
    | succ r =>
      simp only [accountLoop] at h
      split at h
      · cases h
      · obtain ⟨u, hu, h⟩ := andThen_eq_next.mp h
        obtain ⟨c1, c2⟩ := capped_spec s.m (r + 1)
        have k := subStep_elapsed hs c1 hu
        have := k.trans (ih k.inv h)
        rwa [Nat.add_sub_cancel' c2] at this

/-- Under the invariant the bound on the sub-steps does not matter, where it is large enough. -/
theorem accountLoop_fuel {src : Source} {f g n : Nat} {s : State} (hs : s.m.Inv s.cfg) (hf : n ≤ f) (hg : n ≤ g) :
    accountLoop src f n s = accountLoop src g n s := by
  induction f generalizing g n s with
  | zero =>
    have : n = 0 := by omega
    subst this
    cases g <;> rfl
  | succ f ih =>
    cases n with
    | zero => cases g <;> rfl
    | succ r =>
      obtain ⟨k, rfl⟩ : ∃ k, g = k + 1 := ⟨g - 1, by omega⟩
      have := capped_pos hs (n := r + 1) (by omega)
      simp only [accountLoop]
      rw [if_neg (by omega), if_neg (by omega)]
      exact andThen_congr fun t ht =>
        ih (subStep_elapsed hs (capped_spec s.m _).1 ht).inv (by omega) (by omega)

/-- Accounting runs no instruction of the CPU. -/
theorem accountLoop_kept {src : Source} {fuel rem : Nat} {s t : State} (h : accountLoop src fuel rem s = .next t) :
    CpuKept s t := by
  induction fuel generalizing rem s with
  | zero =>
    cases rem with
    | zero => injection h with h; subst h; exact .ofEq rfl fun x => x
    | succ r => cases h
  | succ fuel ih =>
    cases rem with
    | zero => injection h with h; subst h; exact .ofEq rfl fun x => x
    | succ r =>
      simp only [accountLoop] at h
      split at h
      · cases h
      · obtain ⟨u, hu, h⟩ := andThen_eq_next.mp h
        exact (subStep_kept hu).trans (ih h)

theorem account_kept {n : Nat} {src : Source} {s t : State} (h : account n src s = .next t) : CpuKept s t :=
  accountLoop_kept h

theorem account_elapsed {n : Nat} {src : Source} {s t : State} (hs : s.m.Inv s.cfg) (h : account n src s = .next t) :
    Elapsed n s t := accountLoop_elapsed hs h

/-- Under the invariant accounting never runs out of progress (R124, R132). -/
theorem accountLoop_no_fault {src : Source} {fuel rem : Nat} {s : State} (hs : s.m.Inv s.cfg) (hf : rem ≤ fuel)
    (e : Fault) : accountLoop src fuel rem s ≠ .fault e := by
  induction fuel generalizing rem s with
  | zero =>
    have : rem = 0 := by omega
    subst this; intro h; cases h
  | succ fuel ih =>
    cases rem with
    | zero => intro h; cases h
    | succ r =>
      obtain ⟨c1, c2⟩ := capped_spec s.m (r + 1)
      have c3 := capped_pos hs (n := r + 1) (by omega)
      simp only [accountLoop]
      rw [if_neg (by omega)]
      intro h
      rcases andThen_eq_fault.mp h with h | ⟨u, hu, h⟩
      · exact subStep_no_fault _ _ _ _ h
      · exact ih (subStep_elapsed hs c1 hu).inv (by omega) h

theorem account_no_fault {n : Nat} {src : Source} {s : State} (hs : s.m.Inv s.cfg) (e : Fault) :
    account n src s ≠ .fault e := accountLoop_no_fault hs (Nat.le_refl n) e

/-! ## The CPU's instruction (R104, R296) -/

/-- One act of the CPU accounts no cycle and keeps the invariant. -/
theorem runOp_elapsed {op : CpuOp} {s t : State} (hs : s.m.Inv s.cfg) (h : runOp op s = .next t) : Elapsed 0 s t := by
  have flags : ∀ f : Cpu → Cpu, Elapsed 0 s { s with cpu := f s.cpu } := fun f =>
    { Elapsed.refl hs with inv := hs }
  cases op with
  | w16 a v =>
    simp only [runOp] at h
    split at h
    · exact (portWrite_effect h).elapsed hs
    · cases h
  | r16 a =>
    simp only [runOp] at h
    split at h
    · injection h with h; subst h
      have k : Elapsed 0 s (s.emit (.returned (evenOffset (a.setWidth 10)).toNat (s.m.portRead (a.setWidth 10)))) :=
        (PortEffect.emit _ _).elapsed hs
      exact { k with inv := k.inv }
    · cases h
  | write w a v => exact (busWrite_effect h).elapsed hs
  | read w a =>
    injection h with h; subst h
    have k := ((PortEffect.busRead w a s).trans (PortEffect.emit _ (.loaded w (w.align a) (busRead w a s).1))).elapsed hs
    exact { k with inv := k.inv }
  | extIrq b =>
    simp only [runOp, execExtIrq] at h
    split at h
    · injection h with h; subst h
      exact (PortEffect.raiseAndEval s (by assumption)).elapsed hs
    · cases h
  | irqEn on => injection h with h; subst h; exact flags fun c => { c with irqEnabled := on }
  | halt => injection h with h; subst h; exact flags fun c => { c with halted := true }
  | jump t n =>
    injection h with h; subst h
    split
    · exact flags fun c => { c with script := c.script.drop n }
    · exact Elapsed.refl hs
  | skip t n => injection h with h; subst h; exact Elapsed.refl hs
  | cost c => injection h with h; subst h; exact Elapsed.refl hs

theorem runOps_elapsed {ops : List CpuOp} {k c c' : Nat} {s t : State} (hs : s.m.Inv s.cfg)
    (h : runOps ops k c s = .next (t, c')) : Elapsed 0 s t := by
  induction ops generalizing k c s with
  | nil =>
    simp only [runOps] at h
    injection h with h; injection h with h; subst h; exact Elapsed.refl hs
  | cons op ops ih =>
    cases k with
    | succ k => exact ih hs h
    | zero =>
      obtain ⟨u, hu, h⟩ := andThen_eq_next.mp h
      have e := runOp_elapsed hs hu
      exact e.trans (ih e.inv h)

/-- An instruction accounts no cycle of its own and keeps the invariant. -/
theorem executeOne_elapsed {s t : State} {c : Nat} (hs : s.m.Inv s.cfg) (h : executeOne s = .next (t, c)) :
    Elapsed 0 s t := by
  unfold executeOne at h
  split at h
  · injection h with h; injection h with h; subst h; exact Elapsed.refl hs
  · rename_i i rest _
    have : Elapsed 0 s { s with cpu := { s.cpu with script := rest } } := { Elapsed.refl hs with inv := hs }
    exact this.trans (runOps_elapsed (s := { s with cpu := { s.cpu with script := rest } }) hs h)

theorem runOp_no_fault (op : CpuOp) (s : State) (e : Fault) : runOp op s ≠ .fault e := by
  intro h
  cases op with
  | w16 a v =>
    simp only [runOp] at h
    split at h
    · exact portWrite_no_fault _ _ _ _ h
    · cases h
  | r16 a => simp only [runOp] at h; split at h <;> cases h
  | write w a v => exact busWriteWith_no_fault portWrite_no_fault _ _ _ _ _ h
  | read w a => cases h
  | extIrq b => simp only [runOp, execExtIrq] at h; split at h <;> cases h
  | irqEn on => cases h
  | halt => cases h
  | jump t n => cases h
  | skip t n => cases h
  | cost c => cases h

theorem runOps_no_fault (ops : List CpuOp) (k c : Nat) (s : State) (e : Fault) : runOps ops k c s ≠ .fault e := by
  induction ops generalizing k c s with
  | nil => intro h; cases h
  | cons op ops ih =>
    cases k with
    | succ k => exact ih _ _ _
    | zero =>
      intro h
      rcases andThen_eq_fault.mp h with h | ⟨u, -, h⟩
      · exact runOp_no_fault _ _ _ h
      · exact ih _ _ _ h

theorem executeOne_no_fault (s : State) (e : Fault) : executeOne s ≠ .fault e := by
  unfold executeOne
  split
  · intro h; cases h
  · exact runOps_no_fault _ _ _ _ _

/-! ## The end of a pass (R130) -/

theorem applyPending_elapsed {i : Fin 4} {s t : State} (hs : s.m.Inv s.cfg) (h : applyPending i s = .next t) :
    Elapsed 0 s t := by
  unfold applyPending execEvTimerApply at h
  split at h
  · injection h with h; subst h
    have e : StepEffect s (s.onBlock fun m => m.timerApply i) :=
      ⟨SubEffect.onBlock s _ rfl (Nat.le_refl _) (fun x => x) fun x => x.congr rfl rfl, rfl, rfl, rfl⟩
    refine e.elapsed hs (fun j => ?_) hs.latch
    rw [onBlock_m, Block.timerApply, timer_setTimer]
    split
    · rename_i hij; subst hij; exact applyTimer_ok (hs.ticks i) _ _
    · exact hs.ticks j
  · injection h with h; subst h; exact Elapsed.refl hs

theorem endOfPass_elapsed {s t : State} (hs : s.m.Inv s.cfg) (h : endOfPass s = .next t) : Elapsed 0 s t := by
  obtain ⟨u, hu, h⟩ := andThen_eq_next.mp h
  obtain ⟨v, hv, h⟩ := andThen_eq_next.mp h
  obtain ⟨w, hw, h⟩ := andThen_eq_next.mp h
  have a := applyPending_elapsed hs hu
  have b := applyPending_elapsed a.inv hv
  have c := applyPending_elapsed b.inv hw
  exact ((a.trans b).trans c).trans (applyPending_elapsed c.inv h)

/-- Nor does the end of a pass. -/
theorem endOfPass_kept {s t : State} (h : endOfPass s = .next t) : CpuKept s t := by
  have key : ∀ {i : Fin 4} {u v : State}, applyPending i u = .next v → CpuKept u v := by
    intro i u v h
    unfold applyPending execEvTimerApply at h
    split at h <;> (injection h with h; subst h; exact .ofEq rfl fun x => x)
  obtain ⟨u, hu, h⟩ := andThen_eq_next.mp h
  obtain ⟨v, hv, h⟩ := andThen_eq_next.mp h
  obtain ⟨w, hw, h⟩ := andThen_eq_next.mp h
  exact (((key hu).trans (key hv)).trans (key hw)).trans (key h)

theorem endOfPass_no_fault (s : State) (e : Fault) : endOfPass s ≠ .fault e := by
  have key : ∀ i u, applyPending i u ≠ .fault e := by
    intro i u
    unfold applyPending
    split <;> (intro h; cases h)
  intro h
  rcases andThen_eq_fault.mp h with h | ⟨u, -, h⟩
  · exact key _ _ h
  rcases andThen_eq_fault.mp h with h | ⟨u, -, h⟩
  · exact key _ _ h
  rcases andThen_eq_fault.mp h with h | ⟨u, -, h⟩
  · exact key _ _ h
  · exact key _ _ h

/-! ## The instruction fetch (R156) -/

theorem insnFetch_elapsed {s t : State} (hs : s.m.Inv s.cfg) (h : execEvInsnFetch s = .next t) : Elapsed 0 s t := by
  injection h with h; subst h
  unfold State.onBlock leaveDelivered
  split
  · exact { Elapsed.refl hs with
      inv := ⟨hs.cim, hs.line, hs.mode, hs.vbl, hs.hbl, hs.vcount, hs.dispstat, hs.ticks, fun _ hk => (by cases hk),
        hs.masks, hs.flags, hs.wt⟩ }
  · exact Elapsed.refl hs

end Sys2Proof.Machine
end

