-- ==== Sys2Proof/Laws/Run.lean ====
section
/-! SUPPORT. What a burst and a pass do under the invariant. -/

namespace Sys2Proof.Machine

/-- How a burst or a pass that began with `s` may end in `t`: it accounted some cycles, at least one where it says it
ran. `base` is what was consumed before. -/
def EndsWell (base : Nat) (s t : State) : PassEnd → Prop
  | .ran n => ∃ k, 1 ≤ k ∧ n = base + k ∧ Elapsed k s t
  | .fatalTrap => ∃ k, Elapsed k s t
  | .earlyExit => False

/-- A burst accounts at least one cycle, keeps the invariant, and ends by its rule or by a fatal trap (R122, R129). -/
theorem burstLoop_ends {target fuel consumed : Nat} {s t : State} {e : PassEnd} (hs : s.m.Inv s.cfg)
    (h : burstLoop target fuel consumed s = .next (t, e)) : EndsWell consumed s t e := by
  induction fuel generalizing consumed s with
  | zero => cases h
  | succ fuel ih =>
    obtain ⟨u, hu, h⟩ := andThen_eq_next.mp h
    obtain ⟨⟨v, c⟩, hv, h⟩ := andThen_eq_next.mp h
    have a := insnFetch_elapsed hs hu
    have b := executeOne_elapsed a.inv hv
    have ab : Elapsed 0 s v := a.trans b
    simp only at h
    split at h
    · injection h with h; injection h with h1 h2; subst h1; subst h2
      exact ⟨0, ab⟩
    · obtain ⟨w, hw, h⟩ := andThen_eq_next.mp h
      have d := (PortEffect.irqEval v).elapsed b.inv
      have f := account_elapsed d.inv hw
      have g : Elapsed c s w := by simpa using (ab.trans d).trans f
      split at h
      · injection h with h; injection h with h1 h2; subst h1; subst h2
        exact ⟨c, by omega, rfl, g⟩
      · have k := ih f.inv h
        cases e with
        | ran n =>
          obtain ⟨j, hj, hn, hE⟩ := k
          exact ⟨c + j, by omega, by omega, g.trans hE⟩
        | fatalTrap =>
          obtain ⟨j, hE⟩ := k
          exact ⟨c + j, g.trans hE⟩
        | earlyExit => exact k

/-- A burst never runs out of progress: each of its instructions takes a cycle (R132). -/
theorem burstLoop_no_fault {target fuel consumed : Nat} {s : State} (hs : s.m.Inv s.cfg)
    (hf : target ≤ consumed + fuel) (h1 : 1 ≤ fuel) (e : Fault) : burstLoop target fuel consumed s ≠ .fault e := by
  induction fuel generalizing consumed s with
  | zero => omega
  | succ fuel ih =>
    intro h
    rcases andThen_eq_fault.mp h with h | ⟨u, hu, h⟩
    · cases h
    have a := insnFetch_elapsed hs hu
    rcases andThen_eq_fault.mp h with h | ⟨⟨v, c⟩, hv, h⟩
    · exact executeOne_no_fault _ _ h
    have b := executeOne_elapsed a.inv hv
    simp only at h
    split at h
    · cases h
    · have d := (PortEffect.irqEval v).elapsed b.inv
      rcases andThen_eq_fault.mp h with h | ⟨w, hw, h⟩
      · exact account_no_fault d.inv _ h
      have f := account_elapsed d.inv hw
      split at h
      · cases h
      · rename_i hc hcond
        simp only [ge_iff_le, Bool.or_eq_true, decide_eq_true_eq, not_or, Nat.not_le] at hcond
        exact ih f.inv (by omega) (by omega) h

/-- A pass accounts at least one cycle, keeps the invariant, and never exits early (R121, R128). -/
theorem pass_ends {left : Nat} {s t : State} {e : PassEnd} (hs : s.m.Inv s.cfg) (hl : 1 ≤ left)
    (h : onePass left s = .next (t, e)) : EndsWell 0 s t e := by
  have finish : ∀ {n : Nat} {u : State}, 1 ≤ n → Elapsed n s u → finishPass n u = .next (t, e) → EndsWell 0 s t e := by
    intro n u hn hu h
    obtain ⟨v, hv, h⟩ := andThen_eq_next.mp h
    injection h with h; injection h with h1 h2; subst h1; subst h2
    exact ⟨n, hn, by omega, hu.trans (endOfPass_elapsed hu.inv hv)⟩
  unfold onePass at h
  split at h
  · obtain ⟨u, hu, h⟩ := andThen_eq_next.mp h
    exact finish (Nat.le_min.mpr ⟨by omega, hl⟩) (account_elapsed hs hu) h
  · split at h
    · obtain ⟨x, hx, hmem, -⟩ := horizon_spec s.m
      simp only [hx] at h
      obtain ⟨u, hu, h⟩ := andThen_eq_next.mp h
      exact finish (Nat.le_min.mpr ⟨countdowns_pos hs _ hmem, hl⟩) (account_elapsed hs hu) h
    · obtain ⟨⟨u, e'⟩, hu, h⟩ := andThen_eq_next.mp h
      have k := burstLoop_ends hs hu
      cases e' with
      | ran n =>
        obtain ⟨j, hj, hn, hE⟩ := k
        have : n = j := by omega
        subst this
        exact finish hj hE h
      | fatalTrap => injection h with h; injection h with h1 h2; subst h1; subst h2; exact k
      | earlyExit => exact k.elim

/-- A pass never runs out of progress (R132). -/
theorem pass_no_fault {left : Nat} {s : State} (hs : s.m.Inv s.cfg) (hl : 1 ≤ left) (e : Fault) :
    onePass left s ≠ .fault e := by
  have finish : ∀ n u, finishPass n u ≠ .fault e := by
    intro n u h
    rcases andThen_eq_fault.mp h with h | ⟨v, -, h⟩
    · exact endOfPass_no_fault _ _ h
    · cases h
  unfold onePass
  split
  · intro h
    rcases andThen_eq_fault.mp h with h | ⟨u, -, h⟩
    · exact account_no_fault hs _ h
    · exact finish _ _ h
  · split
    · obtain ⟨x, hx, -, -⟩ := horizon_spec s.m
      simp only [hx]
      intro h
      rcases andThen_eq_fault.mp h with h | ⟨u, -, h⟩
      · exact account_no_fault hs _ h
      · exact finish _ _ h
    · intro h
      rcases andThen_eq_fault.mp h with h | ⟨⟨u, e'⟩, -, h⟩
      · exact burstLoop_no_fault hs (by omega) (capped_pos hs hl) _ h
      · cases e' with
        | ran n => exact finish _ _ h
        | fatalTrap => cases h
        | earlyExit => cases h

/-- Under the invariant the bound on the passes does not matter, where it is large enough (R132). -/
theorem runLoop_fuel {f g left : Nat} {s : State} (hs : s.m.Inv s.cfg) (hf : left ≤ f) (hg : left ≤ g) :
    runLoop f left s = runLoop g left s := by
  induction f generalizing g left s with
  | zero =>
    have : left = 0 := by omega
    subst this
    cases g <;> rfl
  | succ f ih =>
    cases left with
    | zero => cases g <;> rfl
    | succ r =>
      obtain ⟨k, rfl⟩ : ∃ k, g = k + 1 := ⟨g - 1, by omega⟩
      simp only [runLoop]
      refine andThen_congr fun p hp => ?_
      obtain ⟨t, e⟩ := p
      have w := pass_ends hs (by omega) hp
      cases e with
      | ran m =>
        obtain ⟨j, hj, hm, hE⟩ := w
        exact ih hE.inv (by omega) (by omega)
      | fatalTrap => rfl
      | earlyExit => rfl

end Sys2Proof.Machine
end

