-- ==== Sys2Proof/Laws/Quiet.lean ====
section
/-! SUPPORT. What happens while no DMA channel is armed: no trigger transfers anything, every step of a sub-step
completes, and what it leaves alone is said once (`Quiet`). -/

namespace Sys2Proof.Machine

/-! ## Triggers (R174) -/

/-- With no channel armed a trigger serves none. -/
theorem checkAndTrigger_quiet {s : State} (h : s.m.noneArmed) (reason : BitVec 2) (mask : BitVec 4) :
    checkAndTrigger reason mask s = .next s := by
  have key : ∀ c, triggerChannel reason mask c s = .next s := by
    intro c
    unfold triggerChannel Block.triggered
    rw [h c]; simp
  simp only [checkAndTrigger, key, andThen_next]

/-! ## What a step of a sub-step leaves alone -/

/-- Without DMA: every entry but the three status entries, DISPSTAT's control bits, memory, the cursors, `mem`'s
turns and what the CPU has read stay; so does its script where interrupts are vectored nowhere; interrupt flags are only raised. -/
structure Quiet (s t : State) : Prop where
  entries : sameEntries [0x004, 0x006, 0x202] s t
  flags : ∀ b, (s.m.getIo 0x202).getLsbD b = true → (t.m.getIo 0x202).getLsbD b = true
  dispstat : t.m.getIo 0x004 &&& 0xFFF8 = s.m.getIo 0x004 &&& 0xFFF8
  mem : t.mem = s.mem
  cursors : t.m.cursors = s.m.cursors
  bus : t.bus = s.bus
  cpu : t.cpu.seen = s.cpu.seen ∧ ((∀ e ∈ s.cpu.entries, e.handler = []) →
    t.cpu.script = s.cpu.script ∧ ∀ e ∈ t.cpu.entries, e.handler = [])

theorem Quiet.refl (s : State) : Quiet s s := ⟨fun _ _ _ _ => rfl, fun _ h => h, rfl, rfl, rfl, rfl, rfl, fun h => ⟨rfl, h⟩⟩

theorem Quiet.trans {s t u : State} (h : Quiet s t) (k : Quiet t u) : Quiet s u where
  entries a ha he hn := (k.entries a ha he hn).trans (h.entries a ha he hn)
  flags b x := k.flags b (h.flags b x)
  dispstat := k.dispstat.trans h.dispstat
  mem := k.mem.trans h.mem
  cursors := k.cursors.trans h.cursors
  bus := k.bus.trans h.bus
  cpu := ⟨k.cpu.1.trans h.cpu.1, fun x =>
    have a := h.cpu.2 x
    have b := k.cpu.2 a.2
    ⟨b.1.trans a.1, b.2⟩⟩

/-- What changes no entry, nor memory, cursors, turns and CPU. -/
theorem Quiet.ofEq {s t : State} (io : t.m.io = s.m.io) (mem : t.mem = s.mem) (cursors : t.m.cursors = s.m.cursors)
    (bus : t.bus = s.bus) (cpu : t.cpu = s.cpu) : Quiet s t where
  entries a _ _ _ := by simp [Block.getIo, io]
  flags b h := by simpa [Block.getIo, io] using h
  dispstat := by simp [Block.getIo, io]
  mem := mem
  cursors := cursors
  bus := bus
  cpu := by rw [cpu]; exact ⟨rfl, fun h => ⟨rfl, h⟩⟩

/-- An interrupt entry. -/
theorem Quiet.takeInterrupt (s : State) : Quiet s (takeInterrupt s) where
  entries _ _ _ _ := rfl
  flags _ h := h
  dispstat := rfl
  mem := rfl
  cursors := rfl
  bus := rfl
  cpu := by
    refine ⟨vector_seen s.cpu, fun h => ?_⟩
    show s.cpu.vector.script = s.cpu.script ∧ ∀ e ∈ s.cpu.vector.entries, e.handler = []
    unfold Cpu.vector
    split
    · exact ⟨rfl, h⟩
    · rename_i e rest he
      rw [he] at h
      exact ⟨by simp [h e (List.mem_cons_self ..)], fun x hx => h x (List.mem_cons_of_mem _ hx)⟩

theorem Quiet.noneArmed {s t : State} (h : Quiet s t) (hs : s.m.noneArmed) : t.m.noneArmed := by
  intro c
  have e : t.m.dmaControl c = s.m.dmaControl c := by
    refine h.entries (dmaBase c + 10) ?_ ?_ ?_
    · have := c.isLt; unfold dmaBase; omega
    · unfold dmaBase; omega
    · revert c; decide
  rw [e]; exact hs c

/-- A register that is no status entry. -/
theorem Quiet.reload {s t : State} (h : Quiet s t) (i : Fin 4) : t.m.reload i = s.m.reload i := by
  refine h.entries (tmBase i) ?_ ?_ ?_
  · have := i.isLt; unfold tmBase; omega
  · unfold tmBase; omega
  · revert i; decide

/-- The delivery condition does not become false while flags are only raised (R40). -/
theorem Quiet.deliverable {s t : State} (h : Quiet s t) {on : Bool} (hd : s.m.deliverable on = true) :
    t.m.deliverable on = true := by
  have e1 := h.entries 0x208 (by decide) (by decide) (by decide)
  have e2 := h.entries 0x200 (by decide) (by decide) (by decide)
  unfold Block.deliverable at hd ⊢
  rw [e1, e2]
  simp only [Bool.and_eq_true, bne_iff_ne] at hd ⊢
  refine ⟨⟨hd.1.1, fun h0 => hd.1.2 ?_⟩, hd.2⟩
  refine BitVec.eq_of_getLsbD_eq fun b hb => ?_
  have := congrArg (fun z : Half => z.getLsbD b) h0
  have k := h.flags b
  rw [BitVec.getLsbD_and] at this ⊢
  revert this k
  cases (s.m.getIo 0x200).getLsbD b <;> cases (s.m.getIo 0x202).getLsbD b <;> simp

/-- A raised flag, every other entry as before. -/
theorem Quiet.raiseIfGated (s : State) (g : Bool) (b : Nat) : Quiet s (s.onBlock fun m => m.raiseIfGated g b) := by
  cases g
  · exact Quiet.refl s
  · refine ⟨fun a ha he hn => ?_, fun k hk => ?_, ?_, rfl, rfl, rfl, ⟨rfl, fun h => ⟨rfl, h⟩⟩⟩
    · simp only [List.mem_cons, List.not_mem_nil, or_false, not_or] at hn
      rw [onBlock_m, raiseIfGated_getIo_ne _ _ _ (slot_ne_of_ne (by decide) ha (by decide) he (Ne.symm hn.2.2))]
    · rw [onBlock_m, raiseIfGated_eq, if_pos rfl, raiseIf_getIo, if_pos rfl, BitVec.getLsbD_or, hk, Bool.true_or]
    · rw [onBlock_m, raiseIfGated_getIo_ne _ _ _ (by decide)]

/-- A write of a status entry other than IF, which keeps DISPSTAT's control bits. -/
theorem Quiet.status (s : State) {a : Nat} (ha : a = 0x004 ∨ a = 0x006) (v : Half)
    (hv : a = 0x004 → v &&& 0xFFF8 = s.m.getIo 0x004 &&& 0xFFF8) : Quiet s (s.onBlock fun m => m.setIo a v) := by
  refine ⟨fun b hb he hn => ?_, fun k hk => ?_, ?_, rfl, rfl, rfl, ⟨rfl, fun h => ⟨rfl, h⟩⟩⟩
  · simp only [List.mem_cons, List.not_mem_nil, or_false, not_or] at hn
    rw [onBlock_m, getIo_setIo_ne]
    rcases ha with rfl | rfl
    · exact slot_ne_of_ne (by decide) hb (by decide) he (Ne.symm hn.1)
    · exact slot_ne_of_ne (by decide) hb (by decide) he (Ne.symm hn.2.1)
  · rw [onBlock_m, getIo_setIo_ne]
    · exact hk
    · rcases ha with rfl | rfl <;> decide
  · rcases ha with rfl | rfl
    · rw [onBlock_m, getIo_setIo_same]; exact hv rfl
    · rw [onBlock_m, getIo_setIo_ne _ _ (by decide)]

theorem Quiet.video (s : State) (f : Video → Video) : Quiet s (s.onBlock fun m => { m with video := f m.video }) :=
  Quiet.ofEq rfl rfl rfl rfl rfl

theorem Quiet.setDispstat (s : State) {bits : Half} (hb : bits &&& 0xFFF8 = 0) :
    Quiet s (s.onBlock fun m => m.setDispstat bits) :=
  Quiet.status s (.inl rfl) (s.m.getIo 0x004 ||| bits) fun _ => by
    rw [BitVec.and_comm, BitVec.and_or_distrib_left, BitVec.and_comm _ bits, hb, BitVec.and_comm]; exact BitVec.or_zero

theorem Quiet.clearDispstat (s : State) {bits : Half} (hb : ~~~bits &&& 0xFFF8 = 0xFFF8) :
    Quiet s (s.onBlock fun m => m.clearDispstat bits) :=
  Quiet.status s (.inl rfl) (s.m.getIo 0x004 &&& ~~~bits) fun _ => by rw [BitVec.and_assoc, hb]

theorem Quiet.setVcount (s : State) : Quiet s (s.onBlock Block.setVcount) :=
  Quiet.status s (.inr rfl) (BitVec.ofNat 16 s.m.video.scanline) fun h => absurd h (by decide)

theorem Quiet.vcountCompare (s : State) : Quiet s (s.onBlock Block.vcountCompare) := by
  rcases vcountCompare_cases s.m with ⟨-, e⟩ | ⟨-, e⟩
  · have h := (Quiet.setDispstat s (bits := 0x0004) (by decide)).trans (Quiet.raiseIfGated _ ((s.m.getIo 0x004).getLsbD 5) 2)
    have : s.onBlock Block.vcountCompare =
        (s.onBlock fun m => m.setDispstat 0x0004).onBlock fun m => m.raiseIfGated ((s.m.getIo 0x004).getLsbD 5) 2 := by
      simp only [State.onBlock, e]
    rw [this]; exact h
  · have : s.onBlock Block.vcountCompare = s.onBlock fun m => m.clearDispstat 0x0004 := by
      simp only [State.onBlock, e]
    rw [this]; exact Quiet.clearDispstat s (by decide)

theorem Quiet.enterHblank (s : State) : Quiet s (s.onBlock Block.enterHblank) :=
  ((Quiet.video s fun v => { v with mode := .hblank, cim := 0 }).trans (Quiet.setDispstat _ (bits := 0x0002) (by decide))).trans
    (Quiet.raiseIfGated _ _ 1)

theorem Quiet.endLine (s : State) : Quiet s (s.onBlock Block.endLine) :=
  ((Quiet.clearDispstat s (bits := 0x0002) (by decide)).trans (Quiet.video _ fun v => { v with scanline := v.scanline + 1, cim := 0 })).trans
    (Quiet.setVcount _)

theorem Quiet.enterVblank (s : State) : Quiet s (s.onBlock Block.enterVblank) :=
  (((Quiet.video s fun v => { v with mode := .vblank }).trans (Quiet.setDispstat _ (bits := 0x0001) (by decide))).trans
    (Quiet.vcountCompare _)).trans (Quiet.raiseIfGated _ _ 0)

theorem Quiet.enterDrawing (s : State) : Quiet s (s.onBlock Block.enterDrawing) :=
  (Quiet.video s fun v => { v with mode := .drawing }).trans (Quiet.vcountCompare _)

theorem Quiet.endVblankLine (s : State) : Quiet s (s.onBlock Block.endVblankLine) := by
  by_cases h : s.m.video.scanline = VBLANK_LAST
  · have e : s.onBlock Block.endVblankLine = ((((s.onBlock fun m => { m with video := ⟨0, .drawing, 0⟩ }).onBlock
        fun m => m.clearDispstat 0x0001).onBlock Block.setVcount).onBlock Block.vcountCompare) := by
      simp only [State.onBlock, Block.endVblankLine, h, if_true]
    rw [e]
    exact (((Quiet.video s fun _ => ⟨0, .drawing, 0⟩).trans (Quiet.clearDispstat _ (bits := 0x0001) (by decide))).trans
      (Quiet.setVcount _)).trans (Quiet.vcountCompare _)
  · have e : s.onBlock Block.endVblankLine = (((s.onBlock fun m => { m with video :=
        ⟨m.video.scanline + 1, m.video.mode, 0⟩ }).onBlock Block.setVcount).onBlock Block.vcountCompare) := by
      simp only [State.onBlock, Block.endVblankLine, if_neg h]
    rw [e]
    exact ((Quiet.video s fun v => ⟨v.scanline + 1, v.mode, 0⟩).trans (Quiet.setVcount _)).trans (Quiet.vcountCompare _)

/-! ## The video edge -/

theorem irqLog_cons {s t : State} {e : Event} (h : t.trace = e :: s.trace) (he : ∀ n, e ≠ .interrupt n) :
    t.irqLog = s.irqLog := by
  unfold State.irqLog
  rw [h]
  cases e <;> first | rfl | exact absurd rfl (he _)

/-- Without DMA an edge completes, and leaves the latch, the DMA cost, the timers, the CPU and the record of interrupts
and overflows alone. -/
theorem videoEdge_quiet {s : State} (h : s.m.noneArmed) : ∃ t, videoEdge s = .next t ∧ Quiet s t ∧
    t.m.latch = s.m.latch ∧ t.m.dmaStall = s.m.dmaStall ∧ t.m.timers = s.m.timers ∧ t.cpu = s.cpu ∧
    t.irqLog = s.irqLog ∧ ∀ i, overflowTimes i t.trace = overflowTimes i s.trace := by
  have rest : ∀ m : Block, (m.enterHblank.latch = m.latch ∧ m.enterHblank.dmaStall = m.dmaStall ∧
      m.enterHblank.timers = m.timers) ∧ (m.lineEnd.latch = m.latch ∧ m.lineEnd.dmaStall = m.dmaStall ∧
      m.lineEnd.timers = m.timers) ∧ (m.endVblankLine.latch = m.latch ∧ m.endVblankLine.dmaStall = m.dmaStall ∧
      m.endVblankLine.timers = m.timers) := by
    intro m
    have g : ∀ (m : Block) (g : Bool) (b : Nat), (m.raiseIfGated g b).timers = m.timers := by intro m g b; cases g <;> rfl
    have v : ∀ m : Block, m.vcountCompare.timers = m.timers := by
      intro m
      rcases vcountCompare_cases m with ⟨-, e⟩ | ⟨-, e⟩ <;> rw [e]
      · rw [g]; rfl
      · rfl
    refine ⟨?_, ⟨(lineEnd_rest m).2.2.1, (lineEnd_rest m).2.1, ?_⟩,
      ⟨(endVblankLine_rest m).2.2.1, (endVblankLine_rest m).2.1, ?_⟩⟩
    · simp [Block.enterHblank, Block.setDispstat, g]
    · unfold Block.lineEnd
      split
      · simp only [Block.enterVblank, g, v]; rfl
      · simp only [Block.enterDrawing, v]; rfl
    · unfold Block.endVblankLine
      simp only [v]
      split <;> rfl
  unfold videoEdge
  split
  · have q : Quiet s ((requestRender s).onBlock Block.enterHblank) :=
      (Quiet.ofEq (s := s) (t := requestRender s) rfl rfl rfl rfl rfl).trans (Quiet.enterHblank _)
    refine ⟨_, checkAndTrigger_quiet (q.noneArmed h) 2 0xF, q, (rest s.m).1.1, (rest s.m).1.2.1, (rest s.m).1.2.2, rfl,
      irqLog_cons (e := .render s.m.video.scanline s.m.io s.m.cycleCounter) rfl (by simp), fun i => rfl⟩
  · have q : Quiet s (s.onBlock Block.lineEnd) := by
      by_cases e : s.m.endLine.video.scanline = VBLANK_FIRST
      · have : s.onBlock Block.lineEnd = (s.onBlock Block.endLine).onBlock Block.enterVblank := by
          simp only [State.onBlock, Block.lineEnd, if_pos e]
        rw [this]; exact (Quiet.endLine s).trans (Quiet.enterVblank _)
      · have : s.onBlock Block.lineEnd = (s.onBlock Block.endLine).onBlock Block.enterDrawing := by
          simp only [State.onBlock, Block.lineEnd, if_neg e]
        rw [this]; exact (Quiet.endLine s).trans (Quiet.enterDrawing _)
    refine ⟨s.onBlock Block.lineEnd, ?_, q, (rest s.m).2.1.1, (rest s.m).2.1.2.1, (rest s.m).2.1.2.2, rfl, rfl,
      fun _ => rfl⟩
    unfold execEvLineEnd
    simp only
    by_cases e : s.m.endLine.video.scanline = VBLANK_FIRST
    · have : s.onBlock Block.lineEnd = (s.onBlock Block.endLine).onBlock Block.enterVblank := by
        simp only [State.onBlock, Block.lineEnd, if_pos e]
      rw [this] at q ⊢
      rw [if_pos (show (s.onBlock Block.endLine).m.video.scanline = VBLANK_FIRST from e)]
      exact checkAndTrigger_quiet (q.noneArmed h) 1 0xF
    · rw [if_neg (show ¬(s.onBlock Block.endLine).m.video.scanline = VBLANK_FIRST from e)]
      simp only [State.onBlock, Block.lineEnd, if_neg e]
  · exact ⟨_, rfl, Quiet.endVblankLine s, (rest s.m).2.2.1, (rest s.m).2.2.2.1, (rest s.m).2.2.2.2, rfl, rfl,
      fun _ => rfl⟩

/-! ## The timers -/

/-- The state after an overflow without DMA: audio told, and the flag raised by the latched enable (R205). -/
def overflowed (i : Fin 4) (s : State) : State :=
  { s with
    m := s.m.raiseIfGated (s.m.timer i).irqEnable (3 + i.val)
    audio := s.audio.tail
    trace := .audio i (s.audio.headD 0) s.m.cycleCounter :: s.trace }

theorem overflow_quiet {s : State} (h : s.m.noneArmed) (i : Fin 4) : overflow i s = .next (overflowed i s) := by
  have q : (overflowed i s).m.noneArmed := (Quiet.raiseIfGated s (s.m.timer i).irqEnable (3 + i.val)).noneArmed h
  unfold overflow signalAudio
  simp only
  split
  · exact checkAndTrigger_quiet q _ _
  · rfl

/-- Without DMA one turn of the timer loop completes: this timer ticks, and on an overflow audio is told and the flag is
raised by the latched enable. -/
theorem stepTimer_quiet {s : State} (h : s.m.noneArmed) (i : Fin 4) (before : Bool) {t : Timer} {o : Bool}
    (ht : tick i (s.m.reload i) before (s.m.timer i) = (t, o)) :
    stepTimer i before s = .next
      (if o then overflowed i (s.onBlock fun m => m.setTimer i t) else s.onBlock fun m => m.setTimer i t, o) := by
  unfold stepTimer
  rw [ht]
  simp only
  cases o
  · rfl
  · rw [if_pos rfl, if_pos rfl, overflow_quiet (s := s.onBlock fun m => m.setTimer i t) (fun c => h c)]; rfl

/-- A tick keeps the latched control fields. -/
theorem tick_irqEnable (i : Fin 4) (r : Half) (b : Bool) (t : Timer) : (tick i r b t).1.irqEnable = t.irqEnable := by
  rcases tick_cases i r b t with ⟨e, -⟩ | ⟨-, -, e⟩ | ⟨-, -, -, -, e⟩ | ⟨-, -, -, -, e⟩ <;> rw [e]

/-- What one turn without DMA does, as an effect. -/
theorem stepTimer_quiet_effect {s : State} (h : s.m.noneArmed) (i : Fin 4) (before : Bool) :
    ∃ t, stepTimer i before s = .next (t, (tick i (s.m.reload i) before (s.m.timer i)).2) ∧ Quiet s t ∧
      (∀ j, t.m.timer j = if i = j then (tick i (s.m.reload i) before (s.m.timer i)).1 else s.m.timer j) ∧
      t.m.latch = s.m.latch ∧ t.m.dmaStall = s.m.dmaStall ∧ t.m.cycleCounter = s.m.cycleCounter ∧ t.cpu = s.cpu ∧
      t.irqLog = s.irqLog ∧ ∀ j, overflowTimes j t.trace =
        if (tick i (s.m.reload i) before (s.m.timer i)).2 = true ∧ i = j
        then s.m.cycleCounter :: overflowTimes j s.trace else overflowTimes j s.trace := by
  obtain ⟨t, o, ht⟩ : ∃ t o, tick i (s.m.reload i) before (s.m.timer i) = (t, o) := ⟨_, _, rfl⟩
  rw [ht]
  refine ⟨_, stepTimer_quiet h i before ht, ?_⟩
  have q : Quiet s (s.onBlock fun m => m.setTimer i t) := Quiet.ofEq rfl rfl rfl rfl rfl
  cases o
  · exact ⟨q, fun j => timer_setTimer _ _ _ _, rfl, rfl, rfl, rfl, rfl, fun j => by simp⟩
  · refine ⟨q.trans ((Quiet.raiseIfGated _ _ (3 + i.val)).trans (Quiet.ofEq rfl rfl rfl rfl rfl)), fun j => ?_, ?_, ?_, ?_, rfl,
      irqLog_cons (e := .audio i (s.audio.headD 0) s.m.cycleCounter) rfl (by simp), fun j => ?_⟩
    · exact (raiseIfGated_timer _ _ _ _).trans (timer_setTimer _ _ _ _)
    · exact raiseIfGated_latch _ _ _
    · exact raiseIfGated_dmaStall _ _ _
    · exact raiseIfGated_cycleCounter _ _ _
    · by_cases hj : i = j <;> simp [overflowed, overflowTimes, hj]

/-- Without DMA a timer step completes and leaves everything but timers, IF and audio alone; a free-running timer whose
countdown is over starts a new period and is recorded at this cycle, one whose countdown is not stays as it is. -/
theorem timerStep_quiet {s : State} (h : s.m.noneArmed) : ∃ t, timerStep s = .next t ∧ Quiet s t ∧
    t.m.latch = s.m.latch ∧ t.m.dmaStall = s.m.dmaStall ∧ t.cpu = s.cpu ∧ t.irqLog = s.irqLog ∧
    ∀ i, freeRunning i (s.m.timer i) = true →
      t.m.timer i = (if (s.m.timer i).ticks = 0 then { s.m.timer i with ticks := s.m.period i } else s.m.timer i) ∧
      overflowTimes i t.trace = (if (s.m.timer i).ticks = 0 then s.m.cycleCounter :: overflowTimes i s.trace
        else overflowTimes i s.trace) := by
  obtain ⟨u0, h0, q0, t0, l0, d0, c0, p0, i0, o0⟩ := stepTimer_quiet_effect h 0 false
  have a0 := q0.noneArmed h
  obtain ⟨u1, h1, q1, t1, l1, d1, c1, p1, i1, o1⟩ :=
    stepTimer_quiet_effect a0 1 (tick 0 (s.m.reload 0) false (s.m.timer 0)).2
  have a1 := q1.noneArmed a0
  obtain ⟨u2, h2, q2, t2, l2, d2, c2, p2, i2, o2⟩ :=
    stepTimer_quiet_effect a1 2 (tick 1 (u0.m.reload 1) (tick 0 (s.m.reload 0) false (s.m.timer 0)).2 (u0.m.timer 1)).2
  have a2 := q2.noneArmed a1
  obtain ⟨u3, h3, q3, t3, l3, d3, c3, p3, i3, o3⟩ := stepTimer_quiet_effect a2 3 (tick 2 (u1.m.reload 2)
    (tick 1 (u0.m.reload 1) (tick 0 (s.m.reload 0) false (s.m.timer 0)).2 (u0.m.timer 1)).2 (u1.m.timer 2)).2
  have q := ((q0.trans q1).trans q2).trans q3
  refine ⟨u3, ?_, q, by rw [l3, l2, l1, l0], by rw [d3, d2, d1, d0], by rw [p3, p2, p1, p0],
    by rw [i3, i2, i1, i0], fun i hf => ?_⟩
  · unfold timerStep
    rw [h0, andThen_next]
    simp only
    rw [h1, andThen_next]
    simp only
    rw [h2, andThen_next]
    simp only
    rw [h3, andThen_next]
  have key : ∀ (r : Half) (b : Bool), tick i r b (s.m.timer i) =
      (if (s.m.timer i).ticks = 0 then { s.m.timer i with ticks := cyclesFrom r (s.m.timer i).shift } else s.m.timer i,
        decide ((s.m.timer i).ticks = 0)) := by
    intro r b
    simp only [freeRunning, Bool.and_eq_true, Bool.not_eq_true'] at hf
    unfold tick
    rw [if_pos hf.1, if_neg (by rw [hf.2]; decide)]
    split
    · rename_i e; simp [e]
    · rename_i e; simp [e]
  have e0 : ∀ i, u0.m.reload i = s.m.reload i := q0.reload
  have e1 : ∀ i, u1.m.reload i = s.m.reload i := (q0.trans q1).reload
  have e2 : ∀ i, u2.m.reload i = s.m.reload i := ((q0.trans q1).trans q2).reload
  have cc1 : u1.m.cycleCounter = s.m.cycleCounter := c1.trans c0
  have cc2 : u2.m.cycleCounter = s.m.cycleCounter := c2.trans cc1
  have hp : ∀ i, s.m.period i = cyclesFrom (s.m.reload i) (s.m.timer i).shift := fun _ => rfl
  simp only [t3, t2, t1, t0, o3, o2, o1, o0, e0, e1, e2, c0, cc1, cc2, hp]
  clear h0 h1 h2 h3 t0 t1 t2 t3 o0 o1 o2 o3
  fin_cases i
  · simp only [Fin.zero_eta, Fin.isValue] at *
    simp [key]
  · simp only [Fin.mk_one, Fin.isValue] at *
    simp [key]
  · simp only [Fin.reduceFinMk, Fin.isValue] at *
    simp [key]
  · simp only [Fin.reduceFinMk, Fin.isValue] at *
    simp [key]

/-! ## The interrupt check -/

/-- What `IrqCheck` leaves alone, and what it does with a latch whose countdown is over or runs (R155). -/
theorem irqCheck_quiet (s : State) : ∃ t, execEvIrqCheck s = .next t ∧ Quiet s t ∧ t.m.timers = s.m.timers ∧
    t.m.dmaStall = s.m.dmaStall ∧ (∀ i, overflowTimes i t.trace = overflowTimes i s.trace) ∧
    (s.m.latch = .pending 0 → s.m.deliverable s.cpu.irqEnabled = true → t.m.latch = .delivered ∧
      t.cpu = s.cpu.vector ∧ t.irqLog = s.irqLog ++ [s.m.cycleCounter]) ∧
    (∀ k, s.m.latch = .pending (k + 1) → t.m.latch = .pending (k + 1) ∧ t.cpu = s.cpu ∧ t.irqLog = s.irqLog) := by
  have ev : ∀ u : State, Quiet u (irqEval u) ∧ (irqEval u).m.timers = u.m.timers ∧
      (u.m.latch ≠ .idle → (irqEval u).m.latch = u.m.latch) := by
    intro u
    have e := irqEval_eq u.m u.cpu.irqEnabled
    refine ⟨Quiet.ofEq ?_ rfl ?_ rfl rfl, ?_, fun h => ?_⟩
    · exact irqEval_io u.m _
    · exact (congrArg Block.cursors e).trans rfl
    · exact (congrArg Block.timers e).trans rfl
    · exact (irqEval_latch u.m _).trans (if_neg fun x => h x.1)
  have stall : ∀ u : State, (irqEval u).m.dmaStall = u.m.dmaStall := fun u => irqEval_dmaStall _ _
  unfold execEvIrqCheck expireLatch
  by_cases h0 : s.m.latch = .pending 0
  · rw [if_pos h0]
    by_cases hd : s.m.deliverable s.cpu.irqEnabled = true
    · rw [if_pos hd]
      refine ⟨_, rfl, (Quiet.takeInterrupt s).trans (ev _).1, (ev _).2.1, stall _,
        fun _ => rfl, fun _ _ => ⟨(ev (takeInterrupt s)).2.2 (by simp [takeInterrupt]), rfl, ?_⟩,
        fun k hk => by rw [h0] at hk; cases hk⟩
      simp [State.irqLog, takeInterrupt, irqEval]
    · rw [if_neg hd]
      exact ⟨_, rfl, (Quiet.ofEq (s := s) (t := s.onBlock fun m => { m with latch := .idle }) rfl rfl rfl rfl rfl).trans
        (ev _).1, (ev _).2.1, stall _, fun _ => rfl, fun _ x => absurd x hd, fun k hk => by rw [h0] at hk; cases hk⟩
  · rw [if_neg h0]
    refine ⟨_, rfl, (ev s).1, (ev s).2.1, stall s, fun _ => rfl, fun x => absurd x h0, fun k hk => ⟨?_, rfl, rfl⟩⟩
    rw [(ev s).2.2 (by rw [hk]; simp), hk]

/-! ## The sub-step -/

/-- Without DMA a sub-step within the horizon completes; what it does to the DMA cost, to a latch that is pending, and
to a free-running timer. -/
theorem subStep_quiet {n : Nat} {src : Source} {s : State} (hs : s.m.Inv s.cfg) (ha : s.m.noneArmed)
    (hn : ∀ c ∈ s.m.countdowns, n ≤ c) : ∃ t, subStep n src s = .next t ∧ Elapsed n s t ∧ Quiet s t ∧
    t.m.dmaStall = (if src = .stall then s.m.dmaStall - n else s.m.dmaStall) ∧
    (s.m.latch = .pending n → s.m.deliverable s.cpu.irqEnabled = true → t.m.latch = .delivered ∧
      t.cpu = s.cpu.vector ∧ t.irqLog = s.irqLog ++ [s.m.cycleCounter + n]) ∧
    (∀ k, s.m.latch = .pending (k + 1 + n) → t.m.latch = .pending (k + 1) ∧ t.cpu = s.cpu ∧ t.irqLog = s.irqLog) ∧
    ∀ i, freeRunning i (s.m.timer i) = true →
      t.m.timer i = { s.m.timer i with ticks :=
        if (s.m.timer i).ticks = n then s.m.period i else (s.m.timer i).ticks - n } ∧
      overflowTimes i t.trace = (if (s.m.timer i).ticks = n then (s.m.cycleCounter + n) :: overflowTimes i s.trace
        else overflowTimes i s.trace) := by
  have qa : Quiet s (s.onBlock fun m => m.advance n src) := Quiet.ofEq rfl rfl rfl rfl rfl
  obtain ⟨u, hu, qu, lu, du, tu, cu, iu, ou⟩ : ∃ u, videoStep (s.onBlock fun m => m.advance n src) = .next u ∧
      Quiet (s.onBlock fun m => m.advance n src) u ∧ u.m.latch = s.m.latch.advance n ∧
      u.m.dmaStall = (if src = .stall then s.m.dmaStall - n else s.m.dmaStall) ∧
      (∀ i, u.m.timer i = (s.m.timer i).advance i n) ∧ u.cpu = s.cpu ∧ u.irqLog = s.irqLog ∧
      ∀ i, overflowTimes i u.trace = overflowTimes i s.trace := by
    unfold videoStep
    split
    · obtain ⟨u, h, q, l, d, t, c, g, o⟩ := videoEdge_quiet (qa.noneArmed ha)
      refine ⟨u, h, q, l, d, fun i => ?_, c, g, o⟩
      rw [← advance_timer s.m n src i]
      exact congrArg (fun v : Vector Timer 4 => v[i]) t
    · exact ⟨_, rfl, Quiet.refl _, rfl, rfl, fun i => advance_timer _ _ _ _, rfl, rfl, fun _ => rfl⟩
  have cc : u.m.cycleCounter = s.m.cycleCounter + n := (videoStep_effect hs hn hu).2.2.2.2.2.1
  have hc : completionStep src u = .next u := by
    unfold completionStep execEvDmaComplete; split <;> rfl
  have q1 := qa.trans qu
  obtain ⟨w, hw, qw, lw, dw, cw, iw, ow⟩ := timerStep_quiet (q1.noneArmed ha)
  obtain ⟨t, ht, qt, tt, dt, ot, l1, l2⟩ := irqCheck_quiet w
  have heq : subStep n src s = .next t := by
    unfold subStep
    rw [hu, andThen_next, hc, andThen_next, hw, andThen_next, ht]
  have ccw : w.m.cycleCounter = s.m.cycleCounter + n := by
    obtain ⟨a, -⟩ := timerStep_effect hw
    rw [a.cycleCounter, cc]
  have q2 := q1.trans qw
  refine ⟨t, heq, subStep_elapsed hs hn heq, q2.trans qt, by rw [dt, dw, du], fun hl hd => ?_, fun k hk => ?_,
    fun i hf => ?_⟩
  · have h0 : w.m.latch = .pending 0 := by rw [lw, lu, hl]; simp [Latch.advance]
    obtain ⟨x1, x2, x3⟩ := l1 h0 (by rw [cw, cu]; exact q2.deliverable hd)
    exact ⟨x1, by rw [x2, cw, cu], by rw [x3, iw, iu, ccw]⟩
  · have h0 : w.m.latch = .pending (k + 1) := by
      rw [lw, lu, hk]; simp [Latch.advance]
    obtain ⟨x1, x2, x3⟩ := l2 k h0
    exact ⟨x1, by rw [x2, cw, cu], by rw [x3, iw, iu]⟩
  · have hle : n ≤ (s.m.timer i).ticks := hn _ (timer_mem_countdowns hf)
    have e : u.m.timer i = { s.m.timer i with ticks := (s.m.timer i).ticks - n } := by
      rw [tu, Timer.advance, if_pos hf]
    obtain ⟨x1, x2⟩ := ow i (by rw [e]; exact hf)
    have ett : t.m.timer i = w.m.timer i := congrArg (fun v : Vector Timer 4 => v[i]) tt
    have ep : u.m.period i = s.m.period i := by
      show cyclesFrom (u.m.reload i) (u.m.timer i).shift = cyclesFrom (s.m.reload i) (s.m.timer i).shift
      rw [q1.reload i, e]
    rw [ett, ot, x1, x2, ou, cc, ep, e]
    simp only
    by_cases h : (s.m.timer i).ticks = n
    · rw [if_pos (by omega), if_pos h, if_pos (by omega), if_pos h]; exact ⟨rfl, rfl⟩
    · rw [if_neg (by omega), if_neg h, if_neg (by omega), if_neg h]; exact ⟨rfl, rfl⟩

/-! ## Accounting -/

/-- Without DMA accounting completes (R124). -/
theorem accountLoop_quiet {src : Source} {fuel rem : Nat} {s : State} (hs : s.m.Inv s.cfg) (ha : s.m.noneArmed)
    (hf : rem ≤ fuel) : ∃ t, accountLoop src fuel rem s = .next t ∧ Elapsed rem s t ∧ Quiet s t ∧
    t.m.dmaStall = (if src = .stall then s.m.dmaStall - rem else s.m.dmaStall) := by
  induction fuel generalizing rem s with
  | zero =>
    have : rem = 0 := by omega
    subst this
    exact ⟨s, rfl, Elapsed.refl hs, Quiet.refl s, by simp⟩
  | succ fuel ih =>
    cases rem with
    | zero => exact ⟨s, rfl, Elapsed.refl hs, Quiet.refl s, by simp⟩
    | succ r =>
      obtain ⟨c1, c2⟩ := capped_spec s.m (r + 1)
      have c3 := capped_pos hs (n := r + 1) (by omega)
      obtain ⟨u, hu, eu, qu, du, -⟩ := subStep_quiet (src := src) hs ha c1
      obtain ⟨t, ht, et, qt, dt⟩ := ih (rem := r + 1 - s.m.capped (r + 1)) eu.inv (qu.noneArmed ha) (by omega)
      refine ⟨t, ?_, ?_, qu.trans qt, ?_⟩
      · simp only [accountLoop]
        rw [if_neg (by omega), hu, andThen_next, ht]
      · have := eu.trans et
        rwa [Nat.add_sub_cancel' c2] at this
      · rw [dt, du]; split <;> omega

theorem account_quiet {src : Source} {n : Nat} {s : State} (hs : s.m.Inv s.cfg) (ha : s.m.noneArmed) :
    ∃ t, account n src s = .next t ∧ Elapsed n s t ∧ Quiet s t ∧
    t.m.dmaStall = (if src = .stall then s.m.dmaStall - n else s.m.dmaStall) :=
  accountLoop_quiet hs ha (Nat.le_refl n)

end Sys2Proof.Machine
end

