-- ==== Sys2Proof/Laws/Transfer.lean ====
section
/-! SUPPORT. Alignment; the units of a transfer in order, and what those do whose destinations lie outside the register
window (they always complete, and everything they change is said once); the end of a transfer; and port writes that are no
control entry's. -/

namespace Sys2Proof.Machine

/-! ## Alignment (R65) -/

theorem and_not_eq_self_iff {n : Nat} (a m : BitVec n) : a &&& ~~~m = a ↔ a &&& m = 0#n := by
  constructor
  · intro h
    rw [← h, BitVec.and_assoc, BitVec.and_comm (~~~m), BitVec.and_not_self]; exact BitVec.and_zero
  · intro h
    refine BitVec.eq_of_getLsbD_eq fun i hi => ?_
    have := congrArg (fun z => z.getLsbD i) h
    simp only [BitVec.getLsbD_and, BitVec.getLsbD_zero] at this
    rw [BitVec.getLsbD_and, BitVec.getLsbD_not]
    cases ha : a.getLsbD i <;> cases hm : m.getLsbD i <;> simp_all

/-- An address is aligned to a width when it is a multiple of its bytes. -/
theorem align_eq_self_iff (w : Width) (a : Addr) : w.align a = a ↔ a.toNat % w.bytes = 0 := by
  unfold Width.align
  rw [and_not_eq_self_iff]
  have key : ∀ n ≤ 2, (a &&& BitVec.ofNat 32 (2 ^ n - 1) = 0#32 ↔ a.toNat % 2 ^ n = 0) := by
    intro n hn
    have hsmall : 2 ^ n - 1 < 2 ^ 32 := by
      have : 2 ^ n ≤ 2 ^ 2 := Nat.pow_le_pow_right (by decide) hn
      omega
    have e : (a &&& BitVec.ofNat 32 (2 ^ n - 1)).toNat = a.toNat % 2 ^ n := by
      rw [BitVec.toNat_and, BitVec.toNat_ofNat, Nat.mod_eq_of_lt hsmall, Nat.and_two_pow_sub_one_eq_mod]
    rw [← e]
    exact ⟨fun h => by rw [h]; rfl, fun h => BitVec.eq_of_toNat_eq h⟩
  cases w
  · exact key 0 (by decide)
  · exact key 1 (by decide)
  · exact key 2 (by decide)

theorem align_idem (w : Width) (a : Addr) : w.align (w.align a) = w.align a := by
  unfold Width.align; rw [BitVec.and_assoc, BitVec.and_self]

theorem bytes_dvd (w : Width) : w.bytes ∣ 2 ^ 32 := by cases w <;> decide

/-- Sums of aligned addresses are aligned. -/
theorem align_add {w : Width} {a b : Addr} (ha : w.align a = a) (hb : w.align b = b) : w.align (a + b) = a + b := by
  rw [align_eq_self_iff] at *
  rw [BitVec.toNat_add, Nat.mod_mod_of_dvd _ (bytes_dvd w), Nat.add_mod, ha, hb]; simp

theorem align_mul {w : Width} {b : Addr} (n : Addr) (hb : w.align b = b) : w.align (n * b) = n * b := by
  rw [align_eq_self_iff] at *
  rw [BitVec.toNat_mul, Nat.mod_mod_of_dvd _ (bytes_dvd w), Nat.mul_mod, hb]; simp

/-- Every step a plan resolves to is aligned. -/
theorem srcStep_aligned {w : Width} {code : Nat} {d : Addr} (h : srcStep code w.bytes = some d) : w.align d = d := by
  unfold srcStep at h
  split at h <;> first | (injection h with h; subst h; cases w <;> decide) | cases h

theorem dstStep_aligned (w : Width) (code : Nat) : w.align (dstStep code w.bytes) = dstStep code w.bytes := by
  unfold dstStep; split <;> cases w <;> decide

/-- Everything about alignment a plan guarantees: the width is no byte, both addresses and both steps are aligned. -/
theorem plan_aligned {m : Block} {c : Fin 4} {reason : BitVec 2} {p : Plan} (h : m.plan c reason = some p) :
    p.width ≠ .byte ∧ p.width.align p.src = p.src ∧ p.width.align p.dst = p.dst ∧
    p.width.align p.sstep = p.sstep ∧ p.width.align p.dstep = p.dstep := by
  unfold Block.plan at h
  simp only [Option.map_eq_some_iff] at h
  obtain ⟨d, hd, rfl⟩ := h
  refine ⟨?_, align_idem _ _, align_idem _ _, srcStep_aligned hd, ?_⟩
  · simp only; split <;> simp
  · simp only
    generalize hw : (if (isFifo c reason || (m.dmaControl c).getLsbD 10) = true then Width.word else Width.half) = w
    by_cases hf : isFifo c reason = true
    · rw [if_pos hf, align_eq_self_iff]; simp
    · rw [if_neg hf]; exact dstStep_aligned _ _

/-! ## Accesses outside the window -/

/-- A read takes one turn, and the calls of that turn arrive; nothing else changes. -/
theorem busRead_state (w : Width) (a : Addr) (s : State) :
    (busRead w a s).2 = { arrive (calls 1 s.bus) s with bus := s.bus.tail } := by
  rw [calls_one, arrive_append]
  show arrive s.turn.after (arrive s.turn.before { s with bus := s.bus.tail }) = _
  rw [arrive_with s.turn.before s s.mem s.bus.tail s.trace]
  have := arrive_with s.turn.after (arrive s.turn.before s) s.mem s.bus.tail s.trace
  rw [this]
  simp

/-- A write outside the window: one turn, its calls, and the bytes unless the turn loses them. -/
theorem busWriteWith_outside {pw : Offset → Half → State → Res State} {w : Width} {a : Addr} {v : BitVec 32} {s : State}
    (ha : w.align a = a) (hw : windowOffset s.cfg a = none) :
    busWriteWith pw w a v s = .next { arrive (calls 1 s.bus) s with
      mem := if s.turn.answer = none then s.mem.write a v w.bytes else s.mem
      bus := s.bus.tail } := by
  rw [calls_one, arrive_append]
  have e : s.startAccess = { arrive s.turn.before s with bus := s.bus.tail } := by
    have := arrive_with s.turn.before s s.mem s.bus.tail s.trace
    unfold State.startAccess
    rw [this]
    simp
  have k : ∀ mem, arrive s.turn.after { arrive s.turn.before s with mem := mem, bus := s.bus.tail } =
      { arrive s.turn.after (arrive s.turn.before s) with mem := mem, bus := s.bus.tail } := by
    intro mem
    have := arrive_with s.turn.after (arrive s.turn.before s) mem s.bus.tail s.trace
    rw [show s.trace = (arrive s.turn.before s).trace by simp] at this
    rw [this]
    simp
  unfold busWriteWith
  simp only [BusTurn.answerAt, e, arrive_cfg, ha, hw]
  cases h : s.turn.answer
  · simp only [memWriteWith, ha, hw, andThen_next, arrive_mem, if_true]
    exact congrArg Host.Outcome.next (by simpa using k (s.mem.write a v w.bytes))
  · exact congrArg Host.Outcome.next (by simpa using k s.mem)

/-! ## Units outside the window -/

/-- One unit outside the window completes: its accesses' turns and their calls, one write of the byte store unless its
turn loses it, and the record (R176, R177). -/
theorem dmaUnit_outside {ch : Fin 4} {w : Width} {src dst : Addr} {s : State} (ha : w.align dst = dst)
    (hw : windowOffset s.cfg dst = none) :
    dmaUnit ch w src dst s = .next { arrive (calls (unitAccesses s.cfg src dst) s.bus) s with
      mem := if ((s.bus.drop (unitAccesses s.cfg src dst - 1)).headD .plain).answer = none
        then s.mem.write dst (unitRead w src dst s).1 w.bytes else s.mem
      bus := s.bus.drop (unitAccesses s.cfg src dst)
      trace := if openBus s.cfg src dst then .memWrite w dst 0 :: s.trace
        else .memWrite w dst (unitRead w src dst s).1 :: .memRead w src (unitRead w src dst s).1 :: s.trace } := by
  unfold dmaUnit
  cases hb : openBus s.cfg src dst
  · have e : (unitRead w src dst s).2 = { arrive (calls 1 s.bus) s with
        bus := s.bus.tail, trace := .memRead w src (unitRead w src dst s).1 :: s.trace } := by
      simp only [unitRead, hb, Bool.false_eq_true, if_false, State.emit, busRead_state, arrive_trace]
    simp only [e, State.emit]
    rw [busWriteWith_outside ha (by simpa using hw)]
    have c2 : calls 2 s.bus = calls 1 s.bus ++ calls 1 s.bus.tail := by
      rw [show (2 : Nat) = 1 + 1 from rfl, calls_add, List.drop_one]
    have d2 : s.bus.drop 2 = s.bus.tail.tail := by cases s.bus with
      | nil => rfl
      | cons t rest => exact List.drop_one
    simp only [unitAccesses, hb, Bool.false_eq_true, if_false, c2, d2, arrive_append, State.turn, List.drop_one,
      show 2 - 1 = 1 from rfl, arrive_mem]
    have := arrive_with (calls 1 s.bus.tail) (arrive (calls 1 s.bus) s) s.mem s.bus.tail
      (.memWrite w dst (unitRead w src dst s).1 :: .memRead w src (unitRead w src dst s).1 :: s.trace)
    rw [this]
  · have e : unitRead w src dst s = (0, s) := by simp [unitRead, hb]
    simp only [e, State.emit]
    rw [busWriteWith_outside ha (by simpa using hw)]
    have := arrive_with (calls 1 s.bus) s s.mem s.bus (.memWrite w dst 0 :: s.trace)
    simp only [unitAccesses, hb, if_true, State.turn, List.drop_one, Nat.sub_self, List.drop_zero, this]
    rfl

theorem step_assoc (a d : Addr) (j : Nat) : a + d + BitVec.ofNat 32 j * d = a + BitVec.ofNat 32 (j + 1) * d := by
  rw [BitVec.ofNat_add, BitVec.add_mul, BitVec.add_assoc, BitVec.add_comm d]
  simp

/-- Operations one after another from an outcome are those from its state. -/
theorem foldl_andThen {α β : Type} (f : β → α → Res α) (l : List β) (r : Res α) :
    l.foldl (fun r j => andThen r (f j)) r = andThen r fun s => l.foldl (fun r j => andThen r (f j)) (.next s) := by
  induction l generalizing r with
  | nil => cases r <;> rfl
  | cons j l ih =>
    simp only [List.foldl_cons]
    rw [ih, andThen_assoc]
    congr 1
    funext s
    rw [ih (andThen (.next s) (f j))]
    rfl

/-- The units of a transfer, in ascending order, each from the state the one before it left; then the cursors (R176). -/
theorem dmaUnits_eq_foldl (ch : Fin 4) (p : Plan) (n : Nat) (src dst : Addr) (s : State) :
    dmaUnits ch p n src dst s = andThen ((List.range n).foldl (fun r j => andThen r (dmaUnit ch p.width
        (src + BitVec.ofNat 32 j * p.sstep) (dst + BitVec.ofNat 32 j * p.dstep))) (.next s)) fun s =>
      .next (s.onBlock fun m =>
        m.setCursor ch ⟨src + BitVec.ofNat 32 n * p.sstep, dst + BitVec.ofNat 32 n * p.dstep⟩) := by
  induction n generalizing src dst s with
  | zero => simp [dmaUnits]
  | succ n ih =>
    rw [List.range_succ_eq_map, List.foldl_cons, List.foldl_map, foldl_andThen, andThen_assoc]
    simp only [dmaUnits, ih, step_assoc, andThen_next, Nat.succ_eq_add_one, BitVec.zero_mul, BitVec.add_zero]

/-- The accesses of `n` units from `src` and `dst`. -/
def accessesOf (cfg : Config) (p : Plan) (n : Nat) (src dst : Addr) : Nat :=
  ((List.range n).map fun j =>
    unitAccesses cfg (src + BitVec.ofNat 32 j * p.sstep) (dst + BitVec.ofNat 32 j * p.dstep)).sum

theorem accessesOf_succ (cfg : Config) (p : Plan) (n : Nat) (src dst : Addr) :
    accessesOf cfg p (n + 1) src dst =
      unitAccesses cfg src dst + accessesOf cfg p n (src + p.sstep) (dst + p.dstep) := by
  simp only [accessesOf, List.range_succ_eq_map, List.map_cons, List.sum_cons, List.map_map, step_assoc,
    Function.comp_def, Nat.succ_eq_add_one]
  simp

/-- Units outside the window complete; the turns taken and their calls, the cursors, the bytes they leave alone, and the
record of their writes. -/
theorem dmaUnits_outside {ch : Fin 4} {p : Plan} (hd : p.width.align p.dstep = p.dstep) {n : Nat} {src dst : Addr}
    {s : State} (ha : p.width.align dst = dst)
    (hw : ∀ j < n, windowOffset s.cfg (dst + BitVec.ofNat 32 j * p.dstep) = none) :
    ∃ mem' new, dmaUnits ch p n src dst s = .next
        { (arrive (calls (accessesOf s.cfg p n src dst) s.bus) s).onBlock fun m =>
            m.setCursor ch ⟨src + BitVec.ofNat 32 n * p.sstep, dst + BitVec.ofNat 32 n * p.dstep⟩ with
          mem := mem'
          bus := s.bus.drop (accessesOf s.cfg p n src dst)
          trace := new ++ s.trace } ∧
      (∀ b, (∀ j < n, ∀ k < p.width.bytes, unitByte dst p.dstep j k ≠ b) → mem'.get b = s.mem.get b) ∧
      new.filterMap Event.unitWrite =
        ((List.range n).map fun j => (p.width, dst + BitVec.ofNat 32 j * p.dstep)).reverse := by
  induction n generalizing src dst s with
  | zero => exact ⟨s.mem, [], by simp [dmaUnits, State.onBlock, accessesOf, calls], fun _ _ => rfl, rfl⟩
  | succ n ih =>
    have h0 := hw 0 (by omega)
    have e0 : dst + BitVec.ofNat 32 0 * p.dstep = dst := by simp
    rw [e0] at h0
    simp only [dmaUnits, dmaUnit_outside ha h0, andThen_next]
    generalize hm : (if ((s.bus.drop (unitAccesses s.cfg src dst - 1)).headD .plain).answer = none
      then s.mem.write dst (unitRead p.width src dst s).1 p.width.bytes else s.mem) = mem1
    generalize hn : (if openBus s.cfg src dst then [.memWrite p.width dst 0]
      else [.memWrite p.width dst (unitRead p.width src dst s).1, .memRead p.width src (unitRead p.width src dst s).1] :
      List Event) = new1
    have ht : (if openBus s.cfg src dst then .memWrite p.width dst 0 :: s.trace
        else .memWrite p.width dst (unitRead p.width src dst s).1 ::
          .memRead p.width src (unitRead p.width src dst s).1 :: s.trace) = new1 ++ s.trace := by
      rw [← hn]; split <;> rfl
    rw [ht]
    generalize hk : unitAccesses s.cfg src dst = k
    rw [show s.cfg = (arrive (calls k s.bus) s).cfg by simp] at hw
    obtain ⟨mem', new, h1, h2, h3⟩ := ih (src := src + p.sstep) (dst := dst + p.dstep)
      (s := { arrive (calls k s.bus) s with mem := mem1, bus := s.bus.drop k, trace := new1 ++ s.trace })
      (align_add ha hd) (fun j hj => by rw [step_assoc]; exact hw (j + 1) (by omega))
    refine ⟨mem', new ++ new1, ?_, ?_, ?_⟩
    · rw [h1, accessesOf_succ, hk, calls_add, arrive_append, step_assoc, step_assoc]
      have e : accessesOf s.cfg = accessesOf (arrive (calls k s.bus) s).cfg := by rw [arrive_cfg]
      have := arrive_with (calls (accessesOf (arrive (calls k s.bus) s).cfg p n (src + p.sstep) (dst + p.dstep))
        (s.bus.drop k)) (arrive (calls k s.bus) s) mem1 (s.bus.drop k) (new1 ++ s.trace)
      simp only [e, this, State.onBlock, List.drop_drop, List.append_assoc]
    · intro b hb
      rw [h2 b fun j hj k hk => by
        have := hb (j + 1) (by omega) k hk
        unfold unitByte at this ⊢
        rwa [step_assoc]]
      show mem1.get b = s.mem.get b
      rw [← hm]
      split
      · refine Memory.get_write_other _ _ _ _ _ fun k hk => ?_
        have := hb 0 (by omega) k hk
        unfold unitByte at this
        rwa [e0] at this
      · rfl
    · rw [List.filterMap_append, h3, List.range_succ_eq_map, List.map_cons, List.reverse_cons, List.map_map, e0]
      congr 1
      · congr 2
        funext j
        simp only [Function.comp_apply, step_assoc]
      · rw [← hn]
        cases openBus s.cfg src dst <;> rfl

/-! ## After the units (R179, R180) -/

theorem isFifo_iff (c : Fin 4) (reason : BitVec 2) : isFifo c reason = true ↔ reason = 3 ∧ (c = 1 ∨ c = 2) := by
  simp [isFifo]

theorem field_eq_extract (v : Half) (lo n : Nat) : field v lo n = (v.extractLsb' lo n).toNat := by
  simp [field, BitVec.extractLsb', Nat.shiftRight_eq_div_pow]

/-- Everything the end of a transfer does: the enable bit, the reload of the destination cursor, the flag. -/
theorem afterTransfer_spec (c : Fin 4) (reason : BitVec 2) (ctl : Half) (m : Block) :
    let t := afterTransfer c reason ctl m
    t.getIo (dmaBase c + 10) = (if ¬(reason = 3 ∧ (c = 1 ∨ c = 2)) ∧ (ctl.getLsbD 9 = false ∨ reason = 0)
      then m.getIo (dmaBase c + 10) &&& 0x7FFF else m.getIo (dmaBase c + 10)) ∧
    t.getIo 0x202 = (if ctl.getLsbD 14 = true then m.getIo 0x202 ||| ((1 : Half) <<< (8 + c.val)) else m.getIo 0x202) ∧
    (∀ a, slot (dmaBase c + 10) ≠ slot a → slot 0x202 ≠ slot a → t.getIo a = m.getIo a) ∧
    (∀ e, t.cursor e = if e = c ∧ ¬(reason = 3 ∧ (c = 1 ∨ c = 2)) ∧ ctl.getLsbD 9 = true ∧ reason ≠ 0 ∧
      ctl.extractLsb' 5 2 = 3 then ⟨(m.cursor c).src, m.dad c⟩ else m.cursor e) ∧
    t = { m with io := t.io, cursors := t.cursors } := by
  have h3 : field ctl 5 2 = 3 ↔ ctl.extractLsb' 5 2 = 3 := by
    rw [field_eq_extract]
    exact ⟨fun h => BitVec.eq_of_toNat_eq h, fun h => by rw [h]; rfl⟩
  have hne : ∀ c : Fin 4, slot 0x202 ≠ slot (dmaBase c + 10) := by decide
  have c1 : (!isFifo c reason && (!ctl.getLsbD 9 || reason == 0)) = true ↔
      ¬(reason = 3 ∧ (c = 1 ∨ c = 2)) ∧ (ctl.getLsbD 9 = false ∨ reason = 0) := by rw [← isFifo_iff]; simp
  have c2 : (!isFifo c reason && field ctl 5 2 == 3) = true ↔
      ¬(reason = 3 ∧ (c = 1 ∨ c = 2)) ∧ ctl.extractLsb' 5 2 = 3 := by rw [← isFifo_iff, ← h3]; simp
  -- The flag comes last and is all it is.
  have flag : ∀ x : Block, let t := x.raiseIfGated (ctl.getLsbD 14) (8 + c.val)
      t.getIo (dmaBase c + 10) = x.getIo (dmaBase c + 10) ∧
      t.getIo 0x202 = (if ctl.getLsbD 14 = true then x.getIo 0x202 ||| ((1 : Half) <<< (8 + c.val)) else x.getIo 0x202) ∧
      (∀ a, slot 0x202 ≠ slot a → t.getIo a = x.getIo a) ∧ (∀ e, t.cursor e = x.cursor e) ∧
      t = { x with io := t.io, cursors := t.cursors } := by
    intro x
    refine ⟨raiseIfGated_getIo_ne _ _ _ (hne c), ?_, fun a h => raiseIfGated_getIo_ne _ _ _ h,
      fun e => raiseIfGated_cursor _ _ _ _, by cases ctl.getLsbD 14 <;> rfl⟩
    rw [raiseIfGated_eq]
    split
    · rw [raiseIf_getIo, if_pos rfl]
    · rfl
  unfold afterTransfer
  simp only
  by_cases x1 : (!isFifo c reason && (!ctl.getLsbD 9 || reason == 0)) = true
  · simp only [if_pos x1, if_pos (c1.mp x1)]
    obtain ⟨f1, f2, f3, f4, f5⟩ := flag (m.setIo (dmaBase c + 10) (m.dmaControl c &&& 0x7FFF))
    refine ⟨f1.trans (getIo_setIo_same _ _ _), ?_, fun a h1 h2 => (f3 a h2).trans (getIo_setIo_ne _ _ h1), fun e => ?_, f5⟩
    · rw [f2, getIo_setIo_ne _ _ (hne c).symm]
    · rw [f4, setIo_cursor, if_neg]
      rintro ⟨-, -, h9, hr, -⟩
      rcases (c1.mp x1).2 with y | y
      · rw [h9] at y; cases y
      · exact hr y
  · simp only [if_neg x1, if_neg (mt c1.mpr x1)]
    by_cases x2 : (!isFifo c reason && field ctl 5 2 == 3) = true
    · simp only [if_pos x2]
      obtain ⟨f1, f2, f3, f4, f5⟩ := flag (m.setCursor c { m.cursor c with dst := m.dad c })
      refine ⟨f1, f2, fun a _ h2 => f3 a h2, fun e => ?_, f5⟩
      have q := c2.mp x2
      have all : ¬(reason = 3 ∧ (c = 1 ∨ c = 2)) ∧ ctl.getLsbD 9 = true ∧ reason ≠ 0 ∧ ctl.extractLsb' 5 2 = 3 :=
        ⟨q.1, (Bool.not_eq_false _).mp fun y => x1 (c1.mpr ⟨q.1, .inl y⟩), fun y => x1 (c1.mpr ⟨q.1, .inr y⟩), q.2⟩
      rw [f4, cursor_setCursor]
      simp only [and_iff_left all, eq_comm (a := e)]
    · simp only [if_neg x2]
      obtain ⟨f1, f2, f3, f4, f5⟩ := flag m
      refine ⟨f1, f2, fun a _ h2 => f3 a h2, fun e => ?_, f5⟩
      rw [f4, if_neg]
      rintro ⟨-, h, -, -, h5⟩
      exact x2 (c2.mpr ⟨h, h5⟩)

/-! ## A port write that is no control entry's -/

/-- It completes, makes no record, and leaves the control entries and the cursors of the DMA channels. -/
theorem portWrite_plain {o : Offset} {v : Half} {s : State} (h : ∀ c, Reg.ofOffset o ≠ .cntH c) :
    ∃ t, (∀ cntH, portWriteWith cntH o v s = .next t) ∧ t.cfg = s.cfg ∧ t.trace = s.trace ∧ t.m.cursors = s.m.cursors ∧
      ∀ c, t.m.dmaControl c = s.m.dmaControl c := by
  have d : ∀ c e : Fin 4, slot (dmaBase e) ≠ slot (dmaBase c + 10) ∧ slot (dmaBase e + 2) ≠ slot (dmaBase c + 10) ∧
      slot (dmaBase e + 4) ≠ slot (dmaBase c + 10) ∧ slot (dmaBase e + 6) ≠ slot (dmaBase c + 10) ∧
      slot (dmaBase e + 8) ≠ slot (dmaBase c + 10) ∧ slot (tmBase e) ≠ slot (dmaBase c + 10) ∧
      slot (tmBase e + 2) ≠ slot (dmaBase c + 10) := by decide
  have f : ∀ c : Fin 4, slot 0x004 ≠ slot (dmaBase c + 10) ∧ slot 0x200 ≠ slot (dmaBase c + 10) ∧
      slot 0x202 ≠ slot (dmaBase c + 10) ∧ slot 0x204 ≠ slot (dmaBase c + 10) ∧
      slot 0x208 ≠ slot (dmaBase c + 10) := by decide
  have g : ∀ o : Offset, Reg.ofOffset o = .other → ∀ c : Fin 4, slot (evenOffset o).toNat ≠ slot (dmaBase c + 10) := by
    decide
  unfold portWriteWith
  cases hr : Reg.ofOffset o with
  | dispstat => exact ⟨_, fun _ => rfl, rfl, rfl, rfl, fun c => getIo_setIo_ne _ _ (f c).1⟩
  | vcount => exact ⟨_, fun _ => rfl, rfl, rfl, rfl, fun c => rfl⟩
  | sadL e => exact ⟨_, fun _ => rfl, rfl, rfl, rfl, fun c => getIo_setIo_ne _ _ (d c e).1⟩
  | sadH e => exact ⟨_, fun _ => rfl, rfl, rfl, rfl, fun c => getIo_setIo_ne _ _ (d c e).2.1⟩
  | dadL e => exact ⟨_, fun _ => rfl, rfl, rfl, rfl, fun c => getIo_setIo_ne _ _ (d c e).2.2.1⟩
  | dadH e => exact ⟨_, fun _ => rfl, rfl, rfl, rfl, fun c => getIo_setIo_ne _ _ (d c e).2.2.2.1⟩
  | cntL e => exact ⟨_, fun _ => rfl, rfl, rfl, rfl, fun c => getIo_setIo_ne _ _ (d c e).2.2.2.2.1⟩
  | cntH e => exact absurd hr (h e)
  | tmL e => exact ⟨_, fun _ => rfl, rfl, rfl, rfl, fun c => getIo_setIo_ne _ _ (d c e).2.2.2.2.2.1⟩
  | tmH e => exact ⟨_, fun _ => rfl, rfl, rfl, rfl, fun c => getIo_setIo_ne _ _ (d c e).2.2.2.2.2.2⟩
  | ie =>
    refine ⟨_, fun _ => rfl, rfl, rfl, ?_, fun c => ?_⟩
    · show (Block.irqEval _ _).cursors = s.m.cursors
      unfold Block.irqEval; split <;> rfl
    · exact (irqEval_getIo _ _ _).trans (getIo_setIo_ne _ _ (f c).2.1)
  | if_ => exact ⟨_, fun _ => rfl, rfl, rfl, rfl, fun c => getIo_setIo_ne _ _ (f c).2.2.1⟩
  | waitcnt => exact ⟨_, fun _ => rfl, rfl, rfl, rfl, fun c => getIo_setIo_ne _ _ (f c).2.2.2.1⟩
  | ime =>
    refine ⟨_, fun _ => rfl, rfl, rfl, ?_, fun c => ?_⟩
    · show (Block.irqEval _ _).cursors = s.m.cursors
      unfold Block.irqEval; split <;> rfl
    · exact (irqEval_getIo _ _ _).trans (getIo_setIo_ne _ _ (f c).2.2.2.2)
  | other => exact ⟨_, fun _ => rfl, rfl, rfl, rfl, fun c => getIo_setIo_ne _ _ (g o hr c)⟩

end Sys2Proof.Machine
end

