-- ==== Sys2Proof/Tests/Slice0.lean ====
section
/-! SUPPORT. Tests: the operand checks, one word per operation written out from R90 and the table, small one-step
examples whose results are taken from spec/95_test_vectors.md or worked out by hand from the rules, and for every
statement with hypotheses a witness that meets them. -/

namespace Sys2Proof.Tests

open Sys2Proof Sys2Proof.Machine

/-! ## Small states -/

/-- Register entries laid over a block. -/
def laid (l : List (Nat × Half)) (m : Block) : Block := l.foldl (fun m p => m.setIo p.1 p.2) m

/-- `TESTWT` (95_test_vectors.md section 0). -/
def testCfg : Config := { Config.default with waitDecoder := .uniform ⟨2, 2, 2, 2⟩ }

/-- The reset state with `TESTWT` and some register entries. -/
def withIo (l : List (Nat × Half)) : State := { State.reset with cfg := testCfg, m := laid l (Block.reset testCfg) }

/-- The same with the cursors of one channel. -/
def withDma (l : List (Nat × Half)) (c : Fin 4) (src dst : Addr) : State :=
  (withIo l).onBlock fun m => m.setCursor c ⟨src, dst⟩

/-- The same with one timer. -/
def withTimer (l : List (Nat × Half)) (i : Fin 4) (t : Timer) : State := (withIo l).onBlock fun m => m.setTimer i t

/-- Something of the next state. -/
def after {σ α : Type} (r : Res σ) (f : σ → α) : Option α :=
  match r with
  | .next s => some (f s)
  | .fault _ | .refused _ => none

/-- An operation answers a next state. -/
def answers {α : Type} (r : Res α) : Bool :=
  match r with
  | .next _ => true
  | .fault _ | .refused _ => false

theorem exists_next {α : Type} {r : Res α} (h : answers r = true) : ∃ t, r = .next t := by
  cases r with
  | next t => exact ⟨t, rfl⟩
  | fault e => cases h
  | refused e => cases h

/-! ## Operand checks: an ill-formed term for each -/

theorem test_wellFormed_other_odd : (Instr.wOther 0x001 0x1234).wellFormed = false := by decide
theorem test_wellFormed_other_core : (Instr.wOther 0x200 0x1234).wellFormed = false := by decide
theorem test_wellFormed_stored_odd : (Instr.rStored 0x201).wellFormed = false := by decide
theorem test_wellFormed_stored_count : (Instr.rStored 0x104).wellFormed = false := by decide
theorem test_wellFormed_extIrq_14 : (Instr.extIrq 14).wellFormed = false := by decide
theorem test_wellFormed_accepts : (Instr.wOther 0x206 0xFFFF).wellFormed = true ∧
    (Instr.rStored 0x102).wellFormed = true ∧ (Instr.extIrq 13).wellFormed = true := by decide

/-! ## Decoding: a word for every operation, from R90 (`dir ++ a[9:0] ++ v[15:0]`) and opcode_table.json -/

/-- Video, interrupt and wait-state registers: 1 0000000100 for 0x004 and so on. -/
theorem test_decode_plain_registers :
    decode 0b10000000100_0000000000101000 = .ok (.wDispstat 0x0028) ∧
    decode 0b10000000110_0000000011111111 = .ok (.wVcount 0x00FF) ∧
    decode 0b11000000000_0000000000001000 = .ok (.wIe 0x0008) ∧
    decode 0b11000000010_0000000000000010 = .ok (.wIf 0x0002) ∧
    decode 0b11000000100_0100001100010111 = .ok (.wWaitcnt 0x4317) ∧
    decode 0b11000001000_0000000000000001 = .ok (.wIme 0x0001) := by decide

/-- DMA 0 and 1: offsets 0x0B0 to 0x0C6. -/
theorem test_decode_dma0_dma1 :
    decode 0x4B00001 = .ok (.wDma0SadL 1) ∧ decode 0x4B20200 = .ok (.wDma0SadH 0x0200) ∧
    decode 0x4B40002 = .ok (.wDma0DadL 2) ∧ decode 0x4B60500 = .ok (.wDma0DadH 0x0500) ∧
    decode 0x4B80002 = .ok (.wDma0CntL 2) ∧ decode 0x4BAA260 = .ok (.wDma0CntH 0xA260) ∧
    decode 0x4BC0003 = .ok (.wDma1SadL 3) ∧ decode 0x4BE0200 = .ok (.wDma1SadH 0x0200) ∧
    decode 0x4C000A0 = .ok (.wDma1DadL 0x00A0) ∧ decode 0x4C20400 = .ok (.wDma1DadH 0x0400) ∧
    decode 0x4C40123 = .ok (.wDma1CntL 0x0123) ∧ decode 0x4C6B640 = .ok (.wDma1CntH 0xB640) := by decide

/-- DMA 2 and 3: offsets 0x0C8 to 0x0DE. -/
theorem test_decode_dma2_dma3 :
    decode 0x4C80010 = .ok (.wDma2SadL 0x0010) ∧ decode 0x4CA0200 = .ok (.wDma2SadH 0x0200) ∧
    decode 0x4CC0004 = .ok (.wDma2DadL 4) ∧ decode 0x4CE0300 = .ok (.wDma2DadH 0x0300) ∧
    decode 0x4D00003 = .ok (.wDma2CntL 3) ∧ decode 0x4D280C0 = .ok (.wDma2CntH 0x80C0) ∧
    decode 0x4D40000 = .ok (.wDma3SadL 0) ∧ decode 0x4D60200 = .ok (.wDma3SadH 0x0200) ∧
    decode 0x4D80000 = .ok (.wDma3DadL 0) ∧ decode 0x4DA0300 = .ok (.wDma3DadH 0x0300) ∧
    decode 0x4DC0004 = .ok (.wDma3CntL 4) ∧ decode 0x4DEC400 = .ok (.wDma3CntH 0xC400) := by decide

/-- Timers: offsets 0x100 to 0x10E, writes and the four count reads. -/
theorem test_decode_timers :
    decode 0x500FFF0 = .ok (.wTm0CntL 0xFFF0) ∧ decode 0x50200C0 = .ok (.wTm0CntH 0x00C0) ∧
    decode 0x504FFFE = .ok (.wTm1CntL 0xFFFE) ∧ decode 0x50600C4 = .ok (.wTm1CntH 0x00C4) ∧
    decode 0x5080007 = .ok (.wTm2CntL 7) ∧ decode 0x50A0080 = .ok (.wTm2CntH 0x0080) ∧
    decode 0x50C0008 = .ok (.wTm3CntL 8) ∧ decode 0x50E0081 = .ok (.wTm3CntH 0x0081) ∧
    decode 0x1000000 = .ok .rTm0CntL ∧ decode 0x1040000 = .ok .rTm1CntL ∧
    decode 0x1080000 = .ok .rTm2CntL ∧ decode 0x10C0000 = .ok .rTm3CntL := by decide

/-- The two default rows (R91), and bit 0 of the offset dropped (R64). -/
theorem test_decode_defaults :
    decode 0x4001234 = .ok (.wOther 0x000 0x1234) ∧ decode 0x7FE0001 = .ok (.wOther 0x3FE 0x0001) ∧
    decode 0x7FF0001 = .ok (.wOther 0x3FE 0x0001) ∧ decode 0x0DE0000 = .ok (.rStored 0x0DE) ∧
    decode 0x1030000 = .ok (.rStored 0x102) ∧ decode 0x1010000 = .ok .rTm0CntL ∧
    decode 0x6010008 = .ok (.wIe 0x0008) := by decide

/-- Events (R92; the words are the model's own, log entry 6). -/
theorem test_decode_events :
    decode 0x8000001 = .ok .evHblankStart ∧ decode 0x8000002 = .ok .evLineEnd ∧
    decode 0x8000003 = .ok .evVblankLineEnd ∧ decode 0x80003E4 = .ok (.evDmaTrigger 2 0xF) ∧
    decode 0x8000005 = .ok .evDmaComplete ∧ decode 0x8000006 = .ok .evTimerStep ∧
    decode 0x8000007 = .ok .evIrqCheck ∧ decode 0x8000038 = .ok (.evTimerApply 3) ∧
    decode 0x8000009 = .ok .evInsnFetch := by decide

/-- Host calls (R92; the words are the model's own, log entry 6). -/
theorem test_decode_host_calls :
    decode 0x10000001 = .ok .reset ∧ decode (40 * 2 ^ 29 + 0x10000002) = .ok (.run 40) ∧
    decode 0x10000063 = .ok (.extIrq 12) ∧ decode 0x10000004 = .ok .save ∧ decode 0x10000005 = .ok .load := by decide

/-- What is no operation is rejected by name. -/
theorem test_decode_rejects :
    decode 0x0DE0001 = .error .readWithValue ∧ decode 0x8000000 = .error .unknownEvent ∧
    decode 0x800000A = .error .unknownEvent ∧ decode 0x8000011 = .error .strayBits ∧
    decode 0x10000006 = .error .unknownHostCall ∧ decode 0x18000000 = .error .unknownFormat ∧
    decode 0x24000000 = .error .strayBits := by decide

/-- Bytes, the first the least significant (the model's choice, log entry 24). -/
theorem test_decode_bytes : decodeBytes [0x08, 0x00, 0x00, 0x06] = .ok (.wIe 0x0008) ∧
    decodeBytes [] = .ok (.rStored 0) := by decide

/-- The table's own numbering (log entry 7). -/
theorem test_decode_table_words : decodeTableWord 16 0x0DE = some (.wDma3CntH 0) ∧
    decodeTableWord 8 4 = some (.evDmaTrigger 0 0) ∧ decodeTableWord 32 0x0DE0000 = some (.rStored 0x0DE) := by decide

/-! ## Registers -/

/-- V2: the flags are kept, the mask is 0xFF38. -/
theorem test_dispstat : after (exec (.wDispstat 0xFFFF) (withIo [(0x004, 0x0001)])) (·.m.getIo 0x004) = some 0xFF39 := by
  decide
/-- V1. -/
theorem test_dma_masks : after (exec (.wDma0SadH 0xFFFF) (withIo [])) (·.m.getIo 0x0B2) = some 0x07FF ∧
    after (exec (.wDma3DadH 0xFFFF) (withIo [])) (·.m.getIo 0x0DA) = some 0x0FFF ∧
    after (exec (.wDma2DadH 0xFFFF) (withIo [])) (·.m.getIo 0x0CE) = some 0x07FF ∧
    after (exec (.wDma2CntL 0xFFFF) (withIo [])) (·.m.getIo 0x0D0) = some 0x3FFF := by decide
/-- V1, its note: 0xFFFF arms the channel and transfers nothing. -/
theorem test_dma_control_mask : after (exec (.wDma1CntH 0xFFFF) (withIo [])) (·.m.getIo 0x0C6) = some 0xF7E0 ∧
    after (exec (.wDma3CntH 0xFFFF) (withIo [])) (·.m.getIo 0x0DE) = some 0xFFE0 := by decide
/-- V1: the entry is masked, the apply waits. -/
theorem test_timer_control : after (exec (.wTm3CntH 0xFFFF) (withIo []))
    (fun t => (t.m.getIo 0x10E, (t.m.timer 3).pending, (t.m.timer 3).running)) = some (0x00C7, true, false) := by decide
/-- S1 (V3). -/
theorem test_if_clears : after (exec (.wIf 0x0002) (withIo [(0x202, 0x000A)])) (·.m.getIo 0x202) = some 0x0008 := by decide
/-- S2. -/
theorem test_if_clears_all : after (exec (.wIf 0xFFFF) (withIo [(0x202, 0x3FFF)])) (·.m.getIo 0x202) = some 0 ∧
    after (exec (.wIf 0) (withIo [(0x202, 0x3FFF)])) (·.m.getIo 0x202) = some 0x3FFF := by decide
/-- V10. -/
theorem test_ie_arms : after (exec (.wIe 0x0008) (withIo [(0x202, 0x0008), (0x208, 1)])) (·.m.latch) =
    some (.pending 7) := by decide
/-- V12, its last write. -/
theorem test_ime_arms : after (exec (.wIme 0xFFFF) (withIo [(0x200, 8), (0x202, 8)]))
    (fun t => (t.m.getIo 0x208, t.m.latch)) = some (1, .pending 7) := by decide
/-- V7, with the default decoder. -/
theorem test_waitcnt : after (exec (.wWaitcnt 0x4317) State.reset) (fun t => (t.m.getIo 0x204, t.m.waitRow 0x08)) =
    some (0x4317, ⟨3, 1, 5, 3⟩) := by decide
/-- V8. -/
theorem test_other : after (exec (.wOther 0x000 0x1234) (withIo [])) (·.m.getIo 0x000) = some 0x1234 := by decide
/-- V20: the read at cc 5 sees 0xFFFF - 13. -/
theorem test_count_read : after (exec .rTm0CntL (withTimer [(0x100, 0xFFF0)] 0 ⟨0xFFF0, .by1, false, false, true, 13, false⟩))
    (·.trace.head?) = some (some (.returned 0x100 0xFFF2)) := by decide
/-- V21: prescaler 64, 128 cycles left. -/
theorem test_count_read_prescaled : (withTimer [] 2 ⟨0, .by64, false, false, true, 128, false⟩).m.visible 2 = 0xFFFD := by
  decide
/-- V4. -/
theorem test_stored_read : after (exec (.rStored 0x200) (withIo [(0x200, 8)])) (·.trace.head?) =
    some (some (.returned 0x200 8)) := by decide
/-- V5: the read-modify-write of a byte clears flags of the other byte too. -/
theorem test_byte_write : after (memWrite .byte 0x04000202 0x08 (withIo [(0x202, 0x0108)])) (·.m.getIo 0x202) = some 0 := by
  decide

/-! ## Interrupts -/

/-- V12 at cc 7: one call, the CPU masks itself. -/
theorem test_delivery : after (exec .evIrqCheck ((withIo [(0x200, 8), (0x202, 8), (0x208, 1)]).onBlock
    fun m => { m with latch := .pending 0, cycleCounter := 7 })) (fun t => (t.m.latch, t.irqLog, t.cpu.irqEnabled)) =
    some (.delivered, [7], false) := by decide
/-- V13 at cc 7: cancelled. -/
theorem test_cancel : after (exec .evIrqCheck ((withIo [(0x200, 8), (0x208, 1)]).onBlock
    fun m => { m with latch := .pending 0 })) (fun t => (t.m.latch, t.irqLog)) = some (.idle, []) := by decide
/-- V17. -/
theorem test_extIrq : after (exec (.extIrq 12) (withIo [(0x200, 0x1000), (0x208, 1)]))
    (fun t => (t.m.getIo 0x202, t.m.latch)) = some (0x1000, .pending 7) := by decide
/-- V16's latch, at the next fetch. -/
theorem test_fetch : after (exec .evInsnFetch ((withIo []).onBlock fun m => { m with latch := .delivered })) (·.m.latch) =
    some .idle := by decide

/-! ## DMA -/

/-- V32: alignment, one word, cost 10. -/
theorem test_dma_alignment : after (exec (.wDma3CntH 0x8400)
    (withIo [(0x0D4, 0x0003), (0x0D6, 0x0200), (0x0D8, 0x0002), (0x0DA, 0x0300), (0x0DC, 1)]))
    (fun t => (t.m.cursor 3, t.m.dmaStall, t.m.getIo 0x0DE, t.m.getIo 0x0D4)) =
    some (⟨0x02000004, 0x03000004⟩, 10, 0x0400, 0x0003) := by decide
/-- V34: decrementing source, fixed destination. -/
theorem test_dma_decrement : after (exec (.wDma2CntH 0x80C0)
    { withIo [(0x0C8, 0x0010), (0x0CA, 0x0200), (0x0CE, 0x0300), (0x0D0, 3)] with
      mem := [(0x0200000C, 0xD2), (0x0200000E, 0xD1), (0x02000010, 0xD0)] })
    (fun t => (t.m.cursor 2, t.m.dmaStall, t.mem.get 0x03000000)) = some (⟨0x0200000A, 0x03000000⟩, 18, 0xD2) := by decide
/-- V35: the second unit is the open-bus case. -/
theorem test_dma_open_bus : after (exec (.wDma3CntH 0x8000)
    { withIo [(0x0D6, 0x0800), (0x0D8, 0xFFFE), (0x0DA, 0x0FFF), (0x0DC, 2)] with
      mem := [(0x08000000, 0xAA), (0x08000002, 0xBB), (0x10000000, 0x77)] })
    (fun t => (t.mem.get 0x0FFFFFFE, t.mem.get 0x10000000, t.m.dmaStall)) = some (0xAA, 0, 14) := by decide
/-- V33: four words, the count field ignored, `EN` kept. -/
theorem test_dma_fifo : after (exec (.evDmaTrigger 3 0b0010)
    (withDma [(0x0C4, 0x0123), (0x0C6, 0xB640)] 1 0x02000100 0x040000A0))
    (fun t => (t.m.cursor 1, t.m.dmaStall, t.m.getIo 0x0C6)) = some (⟨0x02000110, 0x040000A0⟩, 22, 0xB640) := by decide
/-- P5 at its first hblank: the destination is reloaded, `EN` stays. -/
theorem test_dma_reload : after (exec (.evDmaTrigger 2 0xF)
    (withDma [(0x0B4, 0), (0x0B6, 0x0500), (0x0B8, 2), (0x0BA, 0xA260)] 0 0x02000000 0x05000000))
    (fun t => (t.m.cursor 0, t.m.dmaStall, t.m.getIo 0x0BA)) = some (⟨0x02000004, 0x05000000⟩, 14, 0xA260) := by decide
/-- V36: channel 3 reads what channel 0 wrote. -/
theorem test_dma_order : after (exec (.evDmaTrigger 1 0xF)
    { (withIo [(0x0B8, 1), (0x0BA, 0x9000), (0x0DC, 1), (0x0DE, 0xD000)]).onBlock
        (fun m => (m.setCursor 0 ⟨0x02000000, 0x03000000⟩).setCursor 3 ⟨0x03000000, 0x03000100⟩) with
      mem := [(0x02000000, 1)] })
    (fun t => (t.mem.get 0x03000100, t.m.getIo 0x202, t.m.getIo 0x0DE)) = some (1, 0x0800, 0x5000) := by decide
/-- U1 (R175). -/
theorem test_dma_reserved : exec (.wDma0CntH 0x8180) (withIo []) = .refused .dmaSourceStepReserved := by rfl

/-! ## Timers -/

/-- S7, P1: the apply at cc 4 starts 16 ticks from the reload. -/
theorem test_timer_apply : after (exec (.evTimerApply 0) (withTimer [(0x100, 0xFFF0), (0x102, 0x00C0)] 0
    ⟨0, .by1, false, false, false, 0, true⟩)) (·.m.timer 0) = some ⟨0xFFF0, .by1, false, true, true, 16, false⟩ := by decide
/-- V22 at cc 12: a stop keeps the visible count. -/
theorem test_timer_stop : after (exec (.evTimerApply 0) (withTimer [(0x100, 0xFF00)] 0
    ⟨0xFF00, .by1, false, false, true, 245, true⟩)) (fun t => ((t.m.timer 0).value, (t.m.timer 0).running)) =
    some (0xFF0A, false) := by decide
/-- S7, P1 at cc 20: overflow, flag, a new period of 16. -/
theorem test_timer_overflow : after (exec .evTimerStep (withTimer [(0x100, 0xFFF0)] 0
    ⟨0xFFF0, .by1, false, true, true, 0, false⟩)) (fun t => (t.m.getIo 0x202, (t.m.timer 0).ticks)) =
    some (0x0008, 16) := by decide
/-- V23: a chain of four in index order. -/
theorem test_timer_cascade : after (exec .evTimerStep ((withIo [(0x100, 0xFFFE), (0x104, 0xFFFF), (0x108, 0xFFFF),
      (0x10C, 0xFFFF)]).onBlock fun m => (((m.setTimer 0 ⟨0xFFFE, .by1, false, true, true, 0, false⟩).setTimer 1
        ⟨0xFFFF, .by1, true, true, true, 0, false⟩).setTimer 2 ⟨0xFFFF, .by1, true, true, true, 0, false⟩).setTimer 3
        ⟨0xFFFF, .by1, true, true, true, 0, false⟩))
    (fun t => (t.m.getIo 0x202, (t.m.timer 3).value, overflowOrder t.trace)) = some (0x0078, 0xFFFF, [3, 2, 1, 0]) := by
  decide

/-! ## Video -/

/-- V40, V46: the flag, the mode, one render request. -/
theorem test_hblank_start : after (exec .evHblankStart ((withIo [(0x004, 0x0010)]).onBlock
    fun m => { m with video := ⟨0, .drawing, 960⟩, cycleCounter := 960 }))
    (fun t => (t.m.getIo 0x004, t.m.getIo 0x202, t.m.video, t.trace.length)) = some (0x0012, 2, ⟨0, .hblank, 0⟩, 1) := by
  decide
/-- V48. -/
theorem test_line_end_vblank : after (exec .evLineEnd ((withIo [(0x004, 0x000A), (0x006, 0x009F)]).onBlock
    fun m => { m with video := ⟨159, .hblank, 272⟩ }))
    (fun t => (t.m.getIo 0x004, t.m.getIo 0x006, t.m.getIo 0x202, t.m.video)) =
    some (0x0009, 0x00A0, 0x0001, ⟨160, .vblank, 0⟩) := by decide
/-- V44: the match on line 5. -/
theorem test_line_end_match : after (exec .evLineEnd ((withIo [(0x004, 0x0522), (0x006, 4)]).onBlock
    fun m => { m with video := ⟨4, .hblank, 272⟩ }))
    (fun t => (t.m.getIo 0x004, t.m.getIo 0x202, t.m.video)) = some (0x0524, 0x0004, ⟨5, .drawing, 0⟩) := by decide
/-- V49. -/
theorem test_frame_end : after (exec .evVblankLineEnd ((withIo [(0x004, 0x0001), (0x006, 0x00E3)]).onBlock
    fun m => { m with video := ⟨227, .vblank, 1232⟩ }))
    (fun t => (t.m.getIo 0x004, t.m.getIo 0x006, t.m.video)) = some (0x0004, 0, ⟨0, .drawing, 0⟩) := by decide

/-! ## Host operations -/

/-- A CPU that runs a script and is vectored nowhere (R104). -/
def running (script : List Insn) : Cpu := ⟨script, true, false, [], []⟩

/-- V10: one instruction of one cycle. -/
theorem test_run : after (exec (.run 1) { withIo [] with
      cpu := running [⟨1, [.extIrq 3, .w16 0x208 1, .w16 0x200 8]⟩] })
    (fun t => (t.m.cycleCounter, t.m.latch, t.result)) = some (1, .pending 6, .budgetExhausted) := by decide
/-- V43: the fatal trap, after the write that stays. -/
theorem test_run_fatal : after (exec (.run 10) { withIo [] with cpu := running [⟨0, [.w16 0x200 3]⟩] })
    (fun t => (t.m.cycleCounter, t.m.getIo 0x200, t.result)) = some (0, 3, .fatalTrap) := by decide
/-- V47: a stall across the end of a budget. -/
theorem test_run_stall : after (exec (.run 8) ((withIo []).onBlock fun m => { m with dmaStall := 20 }))
    (fun t => (t.m.cycleCounter, t.m.dmaStall)) = some (8, 12) := by decide
/-- V54: the version comes first. -/
theorem test_load_both_wrong : after (exec .load { withIo [] with file := ⟨2, 5, Block.reset testCfg, []⟩ }) (·.result) =
    some .loadVersionMismatch := by decide
/-- V53. -/
theorem test_load_other_cartridge : after (exec .load { withIo [] with file := ⟨1, 5, Block.reset testCfg, []⟩ })
    (·.result) = some .loadCartridgeMismatch := by decide

/-! ## The CPU as data (R296, log entry 1) -/

/-- V33's trigger: timer 0 overflows beside a timer that does not, audio asks for every channel, and channel 1 is armed. -/
def fifoDue : State :=
  { (withDma [(0x100, 0xFFF0), (0x0C6, 0xB640)] 1 0x02000100 0x040000A0).onBlock fun m =>
      (m.setTimer 0 ⟨0xFFF0, .by1, false, true, true, 0, false⟩).setTimer 2 ⟨0, .by1, false, false, true, 3, false⟩ with
    audio := [0xF] }

/-- The same with a chain behind timer 0: timer 1 is at its last count, timer 2 is not. -/
def fifoTwice : State :=
  { (fifoDue.onBlock fun m => (m.setTimer 1 ⟨0xFFFF, .by1, true, true, true, 0, false⟩).setTimer 2
      ⟨5, .by1, true, true, true, 0, false⟩) with audio := [0xF, 2, 9] }

/-- Turns of the memory collaborator: a read it answers, with a call before it; a write with a call after it; a write it
loses. -/
def turning : State :=
  { withDma [(0x0DC, 2), (0x0DE, 0x8000), (0x200, 0x3000), (0x208, 1)] 3 0x02000000 0x02000004 with
    mem := [(0x02000000, 0x11), (0x02000003, 0x22)]
    bus := [⟨some 0x1234, [12], []⟩, ⟨none, [], [13]⟩, ⟨none, [], []⟩, ⟨some 0, [], []⟩] }

/-- A CPU that is vectored to one instruction and goes on accepting interrupts. -/
def vectored : State :=
  { withIo [] with cpu := { running [⟨2, []⟩] with halted := true, entries := [⟨true, [⟨4, [.w16 0x202 8]⟩]⟩] } }

set_option maxRecDepth 4000 in
/-- The port acts at the last offset and at the first that is none of the block's (R64). -/
theorem test_cpu_port_acts : after (runOp (.w16 0x3FF 7) (withIo [])) (·.m.getIo 0x3FE) = some 7 ∧
    runOp (.w16 0x400 7) (withIo []) = .refused .offsetOutOfRange ∧
    runOp (.r16 0x400) (withIo []) = .refused .offsetOutOfRange :=  by
  refine ⟨?_, ?_, ?_⟩
  · rw [runOp, if_pos (by decide)]; decide
  · rw [runOp, if_neg (by decide)]
  · rw [runOp, if_neg (by decide)]
/-- A poll of IF: the act that arms the timer is passed over while the flag read is clear. -/
theorem test_cpu_skips_on_a_value_read :
    let ops := [CpuOp.r16 0x202, .skip ⟨0, 0x0008, 0⟩ 1, .w16 0x100 0xFFF0]
    after (runOps ops 0 1 (withIo [])) (fun p => p.1.m.getIo 0x100) = some 0 ∧
    after (runOps ops 0 1 (withIo [(0x202, 0x0008)])) (fun p => p.1.m.getIo 0x100) = some 0xFFF0 := by decide
/-- A branch on a value loaded through `mem`, and a cost of 0 where it is not taken. -/
theorem test_cpu_jumps_on_a_value_read :
    let s := fun m => { withIo [] with mem := m, cpu := running [⟨1, []⟩, ⟨2, []⟩] }
    let ops := [CpuOp.read .byte 0x02000000, .jump ⟨0, 0xFF, 7⟩ 1, .skip ⟨0, 0xFF, 7⟩ 1, .cost 0]
    after (runOps ops 0 3 (s [(0x02000000, 7)])) (fun p => (p.1.cpu.script, p.2)) = some ([⟨2, []⟩], 3) ∧
    after (runOps ops 0 3 (s [])) (fun p => (p.1.cpu.script, p.2)) = some ([⟨1, []⟩, ⟨2, []⟩], 0) := by decide
/-- Delivery to a CPU with a handler: it comes before what the CPU was about to execute. -/
theorem test_cpu_is_vectored : vectored.cpu.vector = ⟨[⟨4, [.w16 0x202 8]⟩, ⟨2, []⟩], true, false, [], []⟩ := by decide

/-! ## Turns of the memory collaborator (R7, R133, log entry 2) -/

/-- A transfer whose first read is answered, whose last write is lost, and in which two `EXT_IRQ` calls arrive. -/
theorem test_turns_in_a_transfer : after (exec (.evDmaTrigger 0 0b1000) turning)
    (fun t => (t.mem, t.m.getIo 0x202, t.m.latch, t.bus)) =
    some ([(0x02000000, 0x11), (0x02000003, 0x22), (0x02000004, 0x34), (0x02000005, 0x12)], 0x3000, .pending 7, []) := by
  decide
/-- In the register window the port answers, whatever the turn (R63). -/
theorem test_turn_in_the_window :
    (busRead .half 0x04000200 { withIo [(0x200, 8)] with bus := [⟨some 5, [1], []⟩] }).1 = 8 := by decide
/-- A read of the CPU that its turn answers, and a write that its turn loses. -/
theorem test_turns_of_cpu_acts :
    let s := { withIo [] with mem := [(0x02000000, 7)], bus := [⟨some 0x123, [], []⟩, ⟨some 0, [12], []⟩] }
    after (runOps [.read .byte 0x02000000, .write .byte 0x02000000 9] 0 1 s)
      (fun p => (p.1.cpu.seen, p.1.mem, p.1.m.getIo 0x202)) = some ([0x23], [(0x02000000, 7)], 0x1000) := by decide
/-- V33's trigger comes from the timer: channel 1 is served, and audio's bit 0 and bit 3 ask for nothing (R205). -/
theorem test_overflow_triggers_the_fifo : after (exec .evTimerStep fifoDue)
    (fun t => (t.m.cursor 1, t.m.dmaStall, t.m.getIo 0x202)) = some (⟨0x02000110, 0x040000A0⟩, 22, 0x0008) := by decide

set_option maxRecDepth 4000 in
/-- Two overflows of a chain in one step, audio asking for channel 1 at each: both have their transfer of four words (R203
to R205, V33), and the last link counts one. -/
theorem test_each_overflow_triggers : after (exec .evTimerStep fifoTwice)
    (fun t => (t.m.cursor 1, t.m.dmaStall, t.m.getIo 0x202, (t.m.timer 2).value, t.audio)) =
    some (⟨0x02000120, 0x040000A0⟩, 44, 0x0018, 6, [9]) := by decide

/-! ## The byte store -/

/-- Writing what an unlisted byte reads as removes the entry. -/
theorem test_memory_canonical : Memory.set [(4, 7)] 4 0 = [] ∧ Memory.set [(4, 7)] 2 9 = [(2, 9), (4, 7)] := by decide

/-! ## Witnesses: states and operands that meet the hypotheses of the statements

`live` is no reset state: an interrupt is deliverable and its latch pending, timer 0 runs with an overflow one cycle
ahead, a DMA cost is queued, and the video state is wherever the test puts it. -/

/-- A state in the middle of a run. -/
def live (v : Video) (dispstat : Half) (k : Nat) : State :=
  { withIo [] with
    m := { laid [(0x200, 0x0008), (0x202, 0x0008), (0x208, 0x0001), (0x100, 0xFFF0), (0x102, 0x00C0), (0x004, dispstat),
        (0x006, BitVec.ofNat 16 v.scanline)] (Block.reset testCfg) with
      timers := ⟨#[⟨0xFFF0, .by1, false, true, true, 1, false⟩, Timer.reset, Timer.reset, Timer.reset], rfl⟩
      dmaStall := 3
      latch := .pending k
      video := v
      cycleCounter := 1000 } }

theorem blank_ioOk (cfg : Config) : (Block.reset cfg).IoOk cfg := by
  have e : ∀ a, (Block.reset cfg).getIo a = 0 := by intro a; simp [Block.getIo, Block.reset]
  exact ⟨by rw [e]; rfl, fun a _ _ _ => by rw [e]; exact BitVec.zero_and, by rw [e]; rfl, by rw [e]; rfl⟩

/-- `live` meets the invariant wherever its video state and flags agree. -/
theorem live_inv {v : Video} {d : Half} {k : Nat} (h1 : v.cim < modeLen v.mode) (h2 : v.scanline ≤ VBLANK_LAST)
    (h3 : v.mode = .vblank ↔ VBLANK_FIRST ≤ v.scanline) (h4 : d.getLsbD 0 = true ↔ v.mode = .vblank)
    (h5 : d.getLsbD 1 = true ↔ v.mode = .hblank) (h6 : d &&& 0x00C0 = 0) (h7 : 1 ≤ k ∧ k ≤ IRQ_LATENCY) :
    (live v d k).m.Inv (live v d k).cfg := by
  have io : (live v d k).m.IoOk testCfg := by
    refine Block.IoOk.congr (m := laid [(0x200, 0x0008), (0x202, 0x0008), (0x208, 0x0001), (0x100, 0xFFF0),
      (0x102, 0x00C0), (0x004, d), (0x006, BitVec.ofNat 16 v.scanline)] (Block.reset testCfg)) ?_ (by simp only [live]) (by simp only [live])
    simp only [laid, List.foldl]
    refine Block.IoOk.setIo_vcount (Block.IoOk.setIo_dispstat (Block.IoOk.setIo (Block.IoOk.setIo (Block.IoOk.setIo
      (Block.IoOk.setIo_if (Block.IoOk.setIo (blank_ioOk _) ?_ ?_ ?_ ?_) ?_) ?_ ?_ ?_ ?_) ?_ ?_ ?_ ?_) ?_ ?_ ?_ ?_) h6) _
    all_goals decide
  have e4 : (live v d k).m.getIo 0x004 = d := by
    show (laid _ (Block.reset testCfg)).getIo 0x004 = d
    simp only [laid, List.foldl]
    rw [getIo_setIo_ne _ _ (by decide), getIo_setIo_same]
  have e6 : (live v d k).m.getIo 0x006 = BitVec.ofNat 16 v.scanline := by
    show (laid _ (Block.reset testCfg)).getIo 0x006 = _
    simp only [laid, List.foldl]
    rw [getIo_setIo_same]
  have t : ∀ i, ticksOk i ((live v d k).m.timer i) := by
    intro i hf
    fin_cases i
    · exact ⟨Nat.le_refl 1, (by decide : 1 ≤ MAX_TICKS)⟩
    all_goals cases hf
  refine Block.Inv.ofParts ⟨h2, h3, by rw [e4]; exact h4, by rw [e4]; exact h5, e6⟩ h1 io t fun j hj => ?_
  injection hj with hj
  subst hj
  exact h7

/-- The last cycle of a drawing phase. -/
def liveDrawing : State := live ⟨0, .drawing, 959⟩ 0x0010 7
/-- The first cycle of the last hblank of a frame. -/
def liveHblank : State := live ⟨159, .hblank, 0⟩ 0x000A 1
/-- The last cycle of a frame. -/
def liveVblank : State := live ⟨227, .vblank, 1231⟩ 0xE301 1

theorem liveDrawing_inv : liveDrawing.m.Inv liveDrawing.cfg := live_inv (by decide) (by decide) (by decide) (by decide) (by decide) (by decide) (by decide)
theorem liveHblank_inv : liveHblank.m.Inv liveHblank.cfg := live_inv (by decide) (by decide) (by decide) (by decide) (by decide) (by decide) (by decide)
theorem liveVblank_inv : liveVblank.m.Inv liveVblank.cfg := live_inv (by decide) (by decide) (by decide) (by decide) (by decide) (by decide) (by decide)

theorem live_noneArmed : liveDrawing.m.noneArmed ∧ liveHblank.m.noneArmed ∧ liveVblank.m.noneArmed := by
  unfold Block.noneArmed; decide

/-- `live` with the CPU halted and no cost queued. -/
def liveHalted : State :=
  { liveDrawing with m := { liveDrawing.m with dmaStall := 0 }, cpu := { running [⟨1, []⟩] with halted := true } }

theorem inv_of_stall {cfg : Config} {m : Block} (h : m.Inv cfg) (n : Nat) : Block.Inv cfg { m with dmaStall := n } :=
  ⟨h.cim, h.line, h.mode, h.vbl, h.hbl, h.vcount, h.dispstat, h.ticks, h.latch, h.masks, h.flags, h.wt⟩

theorem liveHalted_inv : liveHalted.m.Inv liveHalted.cfg := inv_of_stall liveDrawing_inv 0

/-- The whole invariant, with commands that wait and a savestate in the host's hands. -/
def liveWaiting : State := { liveDrawing with
  queue := [0x6000008, 0x50200C0]
  file := ⟨1, 9, liveVblank.m, [(0x02000000, 5)]⟩
  mem := [(0x03000000, 7), (0xFFFFFFFF, 1)] }

theorem liveWaiting_inv : liveWaiting.Inv := by
  refine ⟨by decide, liveDrawing_inv, by decide, liveVblank_inv, by decide, fun w hw i hi => ?_⟩
  simp only [liveWaiting, List.mem_cons, List.not_mem_nil, or_false] at hw
  rcases hw with rfl | rfl
  · have e : decode 0x6000008 = .ok (.wIe 0x0008) := by decide
    rw [e] at hi; injection hi with hi; subst hi; rfl
  · have e : decode 0x50200C0 = .ok (.wTm0CntH 0x00C0) := by decide
    rw [e] at hi; injection hi with hi; subst hi; rfl

/-! Encoding and the step. -/

theorem witness_DecodeOfEncodeIsTheOperation : (Instr.wOther 0x3FE 0xFFFF).wellFormed = true ∧
    (Instr.rStored 0x000).wellFormed = true ∧ (Instr.extIrq 13).wellFormed = true ∧
    (Instr.run 280896).wellFormed = true ∧ (Instr.evDmaTrigger 3 0b0110).wellFormed = true := by decide

theorem witness_DecodedWordIsTheEncoding : decode 0x6010008 = .ok (.wIe 0x0008) ∧
    0x6010008 = encode (.wIe 0x0008) + 2 ^ 16 ∧ decode 0x10000073 = .ok (.extIrq 14) := by decide

theorem witness_StepRunsTheDecodedOperation : State.reset.queue = [] ∧
    liveWaiting.queue = 0x6000008 :: [0x50200C0] ∧ decode 0x6000008 = .ok (.wIe 0x0008) ∧
    (State.reset.withFetchWord 32 0x18000000).queue = 0x18000000 :: [] ∧
    decode 0x18000000 = .error .unknownFormat := by decide

theorem witness_PortOperationIsTheOneItsOffsetSelects : (0x000 : BitVec 16).toNat < 0x400 ∧
    (0x3FF : BitVec 16).toNat < 0x400 ∧ 0x400 ≤ (0x400 : BitVec 16).toNat ∧ 0x400 ≤ (0xFFFF : BitVec 16).toNat := by
  decide

/-! Registers. -/

theorem witness_VisibleCountRunsFromReloadMinusOne :
    let m := (withTimer [(0x104, 0xFFF0)] 1 ⟨0xFFF0, .by1, false, false, true, 16, false⟩).m
    let m' := (withTimer [(0x104, 0xFFF0)] 1 ⟨0xFFF0, .by1, false, false, true, 1, false⟩).m
    (freeRunning 1 (m.timer 1) = true ∧ (m.timer 1).shift = .by1 ∧ 0 < 0x10000 - (0xFFF0 : Half).toNat ∧
      (m.timer 1).ticks = 0x10000 - (0xFFF0 : Half).toNat - 0 ∧ m.visible 1 = 0xFFEF) ∧
    (15 < 0x10000 - (0xFFF0 : Half).toNat ∧ (m'.timer 1).ticks = 0x10000 - (0xFFF0 : Half).toNat - 15 ∧
      m'.visible 1 = 0xFFFE) := by decide

theorem witness_OtherWriteIsStorage : ((0x000 : Offset).toNat % 2 = 0 ∧ (0x000 : Offset).toNat ∉ coreOffsets) ∧
    ((0x3FE : Offset).toNat % 2 = 0 ∧ (0x3FE : Offset).toNat ∉ coreOffsets) ∧
    ¬((0x3FF : Offset).toNat % 2 = 0 ∧ (0x3FF : Offset).toNat ∉ coreOffsets) ∧
    ¬((0x004 : Offset).toNat % 2 = 0 ∧ (0x004 : Offset).toNat ∉ coreOffsets) := by decide

theorem witness_StoredReadReturnsTheEntry :
    ((0x3FE : Offset).toNat % 2 = 0 ∧ (0x3FE : Offset).toNat ∉ [0x100, 0x104, 0x108, 0x10C]) ∧
    ((0x102 : Offset).toNat % 2 = 0 ∧ (0x102 : Offset).toNat ∉ [0x100, 0x104, 0x108, 0x10C]) ∧
    ¬((0x001 : Offset).toNat % 2 = 0 ∧ (0x001 : Offset).toNat ∉ [0x100, 0x104, 0x108, 0x10C]) ∧
    ¬((0x10C : Offset).toNat % 2 = 0 ∧ (0x10C : Offset).toNat ∉ [0x100, 0x104, 0x108, 0x10C]) := by decide

theorem witness_WindowAccessesSplitAndJoin : (withIo []).cfg.wf ∧ (0x3FC : Offset).toNat % 4 = 0 ∧
    (0x0DC : Offset).toNat % 4 = 0 := by decide

/-! Interrupts. -/

theorem witness_IrqCheckDeliversCancelsOrArms :
    let s := fun l k => (withIo l).onBlock fun m => { m with latch := k }
    let on := [((0x200 : Nat), (0x2000 : Half)), (0x202, 0x2000), (0x208, 1)]
    ((s on (.pending 0)).m.latch = .pending 0 ∧ (s on (.pending 0)).m.deliverable (s on (.pending 0)).cpu.irqEnabled = true) ∧
    ((s [] (.pending 0)).m.latch = .pending 0 ∧ (s [] (.pending 0)).m.deliverable (s [] (.pending 0)).cpu.irqEnabled = false) ∧
    ((s on .idle).m.latch = .idle ∧ (s on .idle).m.deliverable (s on .idle).cpu.irqEnabled = true) ∧
    (s on (.pending 1)).m.latch ≠ .pending 0 ∧ (s on .delivered).m.latch ≠ .pending 0 ∧
    ¬((s on .delivered).m.latch = .idle ∧ (s on .delivered).m.deliverable (s on .delivered).cpu.irqEnabled = true) ∧
    (s on .idle).cpu.entries = [] ∧ vectored.cpu.entries = ⟨true, [⟨4, [.w16 0x202 8]⟩]⟩ :: [] := by
  decide

theorem witness_ExtIrqRaisesAndEvaluates : (0 : BitVec 4).toNat ≤ 13 ∧ (13 : BitVec 4).toNat ≤ 13 ∧
    13 < (14 : BitVec 4).toNat ∧ 13 < (15 : BitVec 4).toNat := by decide

theorem witness_LatchDeliversAfterItsCycles :
    (liveDrawing.m.Inv liveDrawing.cfg ∧ liveDrawing.m.noneArmed ∧ liveDrawing.m.latch = .pending 7 ∧
      liveDrawing.m.deliverable liveDrawing.cpu.irqEnabled = true) ∧
    (liveVblank.m.Inv liveVblank.cfg ∧ liveVblank.m.noneArmed ∧ liveVblank.m.latch = .pending 1 ∧
      liveVblank.m.deliverable liveVblank.cpu.irqEnabled = true) ∧
    (liveHalted.m.Inv liveHalted.cfg ∧ liveHalted.m.noneArmed ∧ liveHalted.m.latch = .pending 7 ∧
      liveHalted.m.deliverable liveHalted.cpu.irqEnabled = true ∧ liveHalted.cpu.halted = true) :=
  ⟨⟨liveDrawing_inv, live_noneArmed.1, rfl, by decide⟩, ⟨liveVblank_inv, live_noneArmed.2.2, rfl, by decide⟩,
    liveHalted_inv, by unfold Block.noneArmed; decide, rfl, by decide, rfl⟩

/-! DMA. -/

theorem witness_DmaControlWriteLatchesAndChecks :
    let s := withIo [(0x0DE, 0x0400)]
    let v : Half := 0xB000
    (s.m.getIo (0x0B0 + 12 * 3 + 10)).getLsbD 15 = false ∧ v.getLsbD 15 = true ∧
      ¬((s.m.getIo (0x0B0 + 12 * 3 + 10)).getLsbD 15 = false ∧ v.getLsbD 15 = true ∧ v &&& 0x3000 = 0) := by decide

theorem witness_TriggerLeavesOtherChannelsAlone :
    let s := withIo [(0x0BA, 0x9000), (0x0C6, 0x8000), (0x0D2, 0x1000)]
    ∀ c : Fin 4, ¬((0b1110 : BitVec 4).getLsbD c.val = true ∧
      (s.m.getIo (0x0B0 + 12 * c.val + 10)).getLsbD 15 = true ∧
      (s.m.getIo (0x0B0 + 12 * c.val + 10)).extractLsb' 12 2 = (1 : BitVec 2)) := by decide

/-- One channel armed, at the least and at the greatest count. -/
theorem witness_TransferPlanResolves :
    (withDma [(0x0B8, 1), (0x0BA, 0x8000)] 0 0x02000001 0x03000001).m.plan 0 0 =
      some ⟨.half, 1, 2, 2, 0x02000000, 0x03000000⟩ ∧
    (withDma [(0x0DE, 0x84A0)] 3 0x02000003 0x03000003).m.plan 3 0 =
      some ⟨.word, 0x10000, -4, -4, 0x02000000, 0x03000000⟩ ∧
    (withDma [(0x0DE, 0x8180)] 3 0 0).m.plan 3 0 = none := by decide

theorem witness_ReservedSourceStepIsRefused :
    let s := withIo [(0x0D2, 0xA180)]
    (s.m.getIo (0x0B0 + 12 * 2 + 10)).getLsbD 15 = true ∧
      (s.m.getIo (0x0B0 + 12 * 2 + 10)).extractLsb' 12 2 = (2 : BitVec 2) ∧
      (s.m.getIo (0x0B0 + 12 * 2 + 10)).extractLsb' 7 2 = (3 : BitVec 2) := by decide

/-- The open-bus case, and the last address below it; turns that are left and none. -/
theorem witness_DmaUnitReadsThenWrites :
    let s := withIo []
    Width.half.align 0x10000000 = 0x10000000 ∧ windowOffset s.cfg 0x10000000 = none ∧
    (inCartSpace s.cfg 0x08000000 = true ∧ s.cfg.addrTopMax < (0x10000000 : Addr).extractLsb' 24 8) ∧
    Width.half.align 0x0FFFFFFE = 0x0FFFFFFE ∧ windowOffset s.cfg 0x0FFFFFFE = none ∧
    ¬(inCartSpace s.cfg 0x08000000 = true ∧ s.cfg.addrTopMax < (0x0FFFFFFE : Addr).extractLsb' 24 8) ∧
    s.bus = [] ∧ turning.bus = ⟨some 0x1234, [12], []⟩ :: [⟨none, [], [13]⟩, ⟨none, [], []⟩, ⟨some 0, [], []⟩] := by decide

/-- Two halfwords of channel 3, from 0x02000000 to the bytes right after them. -/
def moving : State :=
  { withDma [(0x0DC, 2), (0x0DE, 0x8000)] 3 0x02000000 0x02000004 with mem := [(0x02000000, 0x11), (0x02000003, 0x22)] }

theorem witness_TransferOfOneChannelCompletes : moving.m.triggered 0 0b1000 3 = true ∧
    (∀ e, e ≠ 3 → moving.m.triggered 0 0b1000 e = false) ∧
    moving.m.plan 3 0 = some ⟨.half, 2, 2, 2, 0x02000000, 0x02000004⟩ ∧
    Plan.outside moving.cfg ⟨.half, 2, 2, 2, 0x02000000, 0x02000004⟩ ∧
    turning.m.triggered 0 0b1000 3 = true ∧ (∀ e, e ≠ 3 → turning.m.triggered 0 0b1000 e = false) ∧
    turning.m.plan 3 0 = some ⟨.half, 2, 2, 2, 0x02000000, 0x02000004⟩ ∧
    Plan.outside turning.cfg ⟨.half, 2, 2, 2, 0x02000000, 0x02000004⟩ := by
  unfold Plan.outside; decide

/-- V33: the units fall into the register window. And the second of two channels of one trigger: the first is armed for
another reason. -/
theorem witness_TransferOfOneChannelCompletes_window :
    let s := withDma [(0x0C4, 0x0123), (0x0C6, 0xB640)] 1 0x02000100 0x040000A0
    let u := withDma [(0x0BA, 0x8000), (0x0DC, 1), (0x0DE, 0xD000)] 3 0x03000000 0x040003FE
    (s.m.triggered 3 0b0010 1 = true ∧ (∀ e, e < 1 → s.m.triggered 3 0b0010 e = false) ∧
      s.m.plan 1 3 = some ⟨.word, 4, 4, 0, 0x02000100, 0x040000A0⟩ ∧ windowOffset s.cfg 0x040000A0 = some 0x0A0) ∧
    u.m.triggered 1 0xF 3 = true ∧ (∀ e, e < 3 → u.m.triggered 1 0xF e = false) ∧
      u.m.plan 3 1 = some ⟨.half, 1, 2, 2, 0x03000000, 0x040003FE⟩ ∧ windowOffset u.cfg 0x040003FE = some 0x3FE := by
  decide

theorem witness_TransferMovesTheData :
    let p : Plan := ⟨.half, 2, 2, 2, 0x02000000, 0x02000004⟩
    (moving.m.triggered 0 0b1000 3 = true ∧ (∀ e, e ≠ 3 → moving.m.triggered 0 0b1000 e = false) ∧
      moving.m.plan 3 0 = some p ∧ p.outside moving.cfg ∧ moving.mem.wf = true ∧
      ∀ turn ∈ moving.bus, turn.answer = none) ∧
    (∀ j < p.count, windowOffset moving.cfg (p.src + BitVec.ofNat 32 j * p.sstep) = none) ∧
    (∀ j < p.count, openBus moving.cfg (p.src + BitVec.ofNat 32 j * p.sstep) (p.dst + BitVec.ofNat 32 j * p.dstep) = false) ∧
    (∀ i < p.count, ∀ j < p.count, ∀ k < p.width.bytes, ∀ l < p.width.bytes,
      unitByte p.dst p.dstep i k ≠ unitByte p.src p.sstep j l) ∧
    (∀ i < p.count, ∀ j < p.count, i ≠ j → ∀ k < p.width.bytes, ∀ l < p.width.bytes,
      unitByte p.dst p.dstep i k ≠ unitByte p.dst p.dstep j l) ∧
    ∃ t, exec (.evDmaTrigger 0 0b1000) moving = .next t := by
  refine ⟨⟨by decide, by decide, by decide, by unfold Plan.outside; decide, by decide, by decide⟩, by decide,
    by decide, by decide, by decide, exists_next (by decide)⟩

theorem witness_FifoTriggerMovesFourWords :
    let s := withDma [(0x0D2, 0xB640)] 2 0x02000100 0x03000002
    (s.m.getIo (0x0B0 + 12 * 2 + 10)).getLsbD 15 = true ∧
      (s.m.getIo (0x0B0 + 12 * 2 + 10)).extractLsb' 12 2 = (3 : BitVec 2) ∧
      (s.m.getIo (0x0B0 + 12 * 2 + 10)).extractLsb' 7 2 ≠ (3 : BitVec 2) ∧
      windowOffset s.cfg (Width.word.align (s.m.cursor 2).dst) = none := by decide

/-- V33 itself, and the last word of the window. -/
theorem witness_FifoTriggerMovesFourWords_window :
    let s := fun dst => withDma [(0x0C4, 0x0123), (0x0C6, 0xB640)] 1 0x02000100 dst
    let v := s 0x040000A0
    ((v.m.getIo (0x0B0 + 12 * 1 + 10)).getLsbD 15 = true ∧
      (v.m.getIo (0x0B0 + 12 * 1 + 10)).extractLsb' 12 2 = (3 : BitVec 2) ∧
      (v.m.getIo (0x0B0 + 12 * 1 + 10)).extractLsb' 7 2 ≠ (3 : BitVec 2) ∧ v.cfg.wf) ∧
    (windowOffset v.cfg (Width.word.align (v.m.cursor 1).dst) = some 0x0A0 ∧
      ∀ e, Reg.ofOffset (0x0A0 + 2) ≠ .cntH e) ∧
    windowOffset (s 0x040003FE).cfg (Width.word.align ((s 0x040003FE).m.cursor 1).dst) = some 0x3FC ∧
      ∀ e, Reg.ofOffset (0x3FC + 2) ≠ .cntH e := by
  exact ⟨by decide, by decide, by decide⟩

theorem witness_DmaAccessesAreAligned : ∃ t, exec (.evDmaTrigger 0 0b1000) moving = .next t :=
  exists_next (by decide)

/-- Source data of units into the window. -/
def intoWindow : State := { withIo [] with mem := [(0x02000001, 0x80), (0x02000003, 0xB0), (0x02000007, 0x80)] }

/-- Units of both widths: a plain register, and the control entry of a channel. -/
theorem witness_UnitIntoTheWindowIsAPortWrite : intoWindow.cfg.wf ∧
    (Width.half.align 0x04000200 = 0x04000200 ∧ windowOffset intoWindow.cfg 0x04000200 = some 0x200 ∧
      openBus intoWindow.cfg 0x02000000 0x04000200 = false ∧ ∀ c, Reg.ofOffset 0x200 ≠ .cntH c) ∧
    (Width.word.align 0x040000A0 = 0x040000A0 ∧ windowOffset intoWindow.cfg 0x040000A0 = some 0x0A0 ∧
      openBus intoWindow.cfg 0x02000100 0x040000A0 = false ∧ ∀ c, Reg.ofOffset (0x0A0 + 2) ≠ .cntH c) ∧
    (Width.half.align 0x040000DE = 0x040000DE ∧ windowOffset intoWindow.cfg 0x040000DE = some 0x0DE ∧
      Reg.ofOffset 0x0DE = .cntH 3) ∧
    Width.word.align 0x040000DC = 0x040000DC ∧ windowOffset intoWindow.cfg 0x040000DC = some 0x0DC ∧
      Reg.ofOffset (0x0DC + 2) = .cntH 3 :=
  ⟨by decide, by decide, by decide, by decide, by decide, by decide, by decide⟩

/-- The start of an immediate transfer of channel 3, and a write that starts none. -/
abbrev startsThird (v : Half) : Prop :=
  (intoWindow.m.getIo (0x0B0 + 12 * 3 + 10)).getLsbD 15 = false ∧ v.getLsbD 15 = true ∧ v &&& 0x3000 = 0

theorem witness_UnitIntoTheWindowIsAPortWrite_starts :
    (startsThird ((busRead .half 0x02000000 intoWindow).1.extractLsb' 0 16) ∧
      ¬startsThird ((busRead .half 0x02000002 intoWindow).1.extractLsb' 0 16)) ∧
    startsThird ((busRead .word 0x02000004 intoWindow).1.extractLsb' 16 16) ∧
      ¬startsThird ((busRead .word 0x02000000 intoWindow).1.extractLsb' 16 16) := by decide

/-- An open-bus unit into the window: the parameter lets its region lie above `ADDR_TOP_MAX`. -/
theorem witness_UnitIntoTheWindowIsAPortWrite_open_bus :
    let s := { withIo [] with cfg := { testCfg with addrTopMax := 0x03 } }
    s.cfg.wf ∧ openBus s.cfg 0x08000000 0x04000202 = true ∧ windowOffset s.cfg 0x04000202 = some 0x202 ∧
      (∀ c, Reg.ofOffset 0x202 ≠ .cntH c) ∧ openBus s.cfg 0x08000000 0x040000DC = true ∧
      windowOffset s.cfg 0x040000DC = some 0x0DC ∧ Reg.ofOffset (0x0DC + 2) = .cntH 3 ∧
      (0 : BitVec 32).extractLsb' 16 16 &&& 0x8000 = 0 := by decide

/-! Timers and video. -/

theorem witness_TimerStepOverflowsAndCascades :
    (withTimer [(0x100, 0xFFF0)] 0 ⟨0xFFF0, .by1, false, true, true, 0, false⟩).m.noneArmed ∧
    (∀ s ∈ [fifoDue, { fifoDue with audio := [] }], freeRunning 0 (s.m.timer 0) = true ∧ (s.m.timer 0).ticks = 0 ∧
      ∀ j, j ≠ 0 → (s.m.timer j).running = false ∨ (freeRunning j (s.m.timer j) = true ∧ (s.m.timer j).ticks ≠ 0)) := by
  unfold Block.noneArmed; decide

/-- The chain `fifoTwice` link by link: which timers are cascaded, and which overflow when told so of the one before. -/
abbrev linked (i : Fin 4) : Prop := i ≠ 0 ∧ (fifoTwice.m.timer i).cascade = true
/-- See `linked`. -/
abbrev runsOver (i : Fin 4) (before : Bool) : Prop := (fifoTwice.m.timer i).running = true ∧
  ((linked i ∧ before = true ∧ (fifoTwice.m.timer i).value = 0xFFFF) ∨ (¬linked i ∧ (fifoTwice.m.timer i).ticks = 0))

/-- Turns of each kind: a free-running timer and a cascaded one that overflow, a cascaded one that counts or, untold, stands,
and one that is stopped. -/
theorem witness_TimerStepOverflowsAndCascades_turns :
    (runsOver 0 false ∧ ¬linked 0) ∧ (runsOver 1 true ∧ linked 1) ∧ ¬runsOver 1 false ∧
    (¬runsOver 2 true ∧ (fifoTwice.m.timer 2).running = true ∧ linked 2) ∧ ¬runsOver 2 false ∧ ¬runsOver 3 false :=
  ⟨⟨by decide, by decide⟩, ⟨by decide, by decide⟩, by decide, ⟨by decide, by decide, by decide⟩, by decide, by decide⟩

/-- A span that overflows at its first cycle, and one that ends just before the second overflow. -/
theorem witness_TimerOverflowsOncePerPeriod : liveDrawing.m.Inv liveDrawing.cfg ∧ liveDrawing.m.noneArmed ∧
    freeRunning 0 (liveDrawing.m.timer 0) = true ∧ (liveDrawing.m.timer 0).ticks = 1 ∧ liveDrawing.m.period 0 = 16 ∧
    (∃ t, account 1 .cpu liveDrawing = .next t) ∧ ∃ t, account 16 .halt liveDrawing = .next t := by
  refine ⟨liveDrawing_inv, live_noneArmed.1, by decide, by decide, by decide, ?_, ?_⟩
  · obtain ⟨t, ht, -⟩ := account_quiet (src := .cpu) (n := 1) liveDrawing_inv live_noneArmed.1
    exact ⟨t, ht⟩
  · obtain ⟨t, ht, -⟩ := account_quiet (src := .halt) (n := 16) liveDrawing_inv live_noneArmed.1
    exact ⟨t, ht⟩

/-- Channels armed for other reasons do not stop the completion of the three video events. -/
theorem witness_VideoEventsComplete :
    let s := withIo [(0x0BA, 0x8000), (0x0C6, 0xB000), (0x0D2, 0x2000), (0x0DE, 0x1000)]
    (∀ c : Fin 4, ¬((s.m.getIo (0x0B0 + 12 * c.val + 10)).getLsbD 15 = true ∧
        (s.m.getIo (0x0B0 + 12 * c.val + 10)).extractLsb' 12 2 = (2 : BitVec 2))) ∧
    (∀ c : Fin 4, ¬((s.m.getIo (0x0B0 + 12 * c.val + 10)).getLsbD 15 = true ∧
        (s.m.getIo (0x0B0 + 12 * c.val + 10)).extractLsb' 12 2 = (1 : BitVec 2))) := by decide

theorem witness_RunMovesTheFrameByItsCycles : liveVblank.m.Inv liveVblank.cfg ∧
    ∃ t, exec (.run 1) liveVblank = .next t := ⟨liveVblank_inv, exists_next (by decide)⟩

/-- The last cycle of the drawing phase, the first of an hblank, the last cycle of the frame. -/
theorem witness_FrameFlagsFollowThePosition :
    (liveDrawing.m.Inv liveDrawing.cfg ∧ framePos liveDrawing.m.video = 959) ∧
    (liveHblank.m.Inv liveHblank.cfg ∧ framePos liveHblank.m.video = 159 * 1232 + 960) ∧
    (liveVblank.m.Inv liveVblank.cfg ∧ framePos liveVblank.m.video = 280895) :=
  ⟨⟨liveDrawing_inv, by decide⟩, ⟨liveHblank_inv, by decide⟩, liveVblank_inv, by decide⟩

/-! The scheduler. -/

theorem witness_HorizonIsTheLeastCountdown : liveHblank.m.Inv liveHblank.cfg ∧ liveHblank.m.horizon = some 1 ∧
    freeRunning 0 (liveHblank.m.timer 0) = true ∧ 0 < liveHblank.m.dmaStall ∧ liveHblank.m.latch = .pending 1 :=
  ⟨liveHblank_inv, by decide, by decide, by decide, by decide⟩

theorem witness_OnlyRunMovesTime : isEvent (.wDma3CntH 0x8000) = false ∧ Instr.wDma3CntH 0x8000 ≠ .reset ∧
    Instr.wDma3CntH 0x8000 ≠ .load ∧ (∀ n, Instr.wDma3CntH 0x8000 ≠ .run n) ∧
    ∃ t, exec (.wDma3CntH 0x8000) (withIo [(0x0DC, 1), (0x0D6, 0x0200), (0x0DA, 0x0300)]) = .next t :=
  ⟨rfl, nofun, nofun, fun _ => nofun, exists_next (by decide)⟩

theorem witness_StallPassDoesNotStepTheCpu : liveDrawing.m.Inv liveDrawing.cfg ∧ 0 < liveDrawing.m.dmaStall ∧
    liveDrawing.m.noneArmed ∧ (∃ r, onePass 1 liveDrawing = .next r) ∧ ∃ r, onePass 40 liveDrawing = .next r :=
  ⟨liveDrawing_inv, by decide, live_noneArmed.1, exists_next (by decide), exists_next (by decide)⟩

theorem witness_HaltPassDoesNotStepTheCpu : liveHalted.m.Inv liveHalted.cfg ∧ liveHalted.m.dmaStall = 0 ∧
    liveHalted.cpu.halted = true ∧ liveHalted.m.horizon = some 1 ∧ ∃ r, onePass 5 liveHalted = .next r :=
  ⟨liveHalted_inv, rfl, rfl, by decide, exists_next (by decide)⟩

/-- V43's second instruction, on a state in the middle of a run; and a cost that an act makes 0. -/
theorem witness_FatalTrapEndsTheRun :
    let s := fun (c : Nat) (ops : List CpuOp) => { liveHalted with cpu := running [⟨c, ops⟩] }
    let f := fun s : State => { s with
      m := { s.m with latch := if s.m.latch = .delivered then .idle else s.m.latch }
      cpu := { s.cpu with script := [] } }
    ((s 0 [.w16 0x200 3]).m.Inv (s 0 []).cfg ∧ (s 0 [.w16 0x200 3]).m.dmaStall = 0 ∧
      (s 0 [.w16 0x200 3]).cpu.halted = false ∧ (s 0 [.w16 0x200 3]).cpu.script = ⟨0, [.w16 0x200 3]⟩ :: []) ∧
    (∃ u, runOps [.w16 0x200 3] 0 0 (f (s 0 [.w16 0x200 3])) = .next (u, 0)) ∧
    ∃ u, runOps [.cost 0] 0 5 (f (s 5 [.cost 0])) = .next (u, 0) :=
  ⟨⟨liveHalted_inv, rfl, rfl, rfl⟩, ⟨_, rfl⟩, _, rfl⟩

/-- The least and a longer span, where the horizon is one cycle. -/
theorem witness_AccountingRunsSubStepsInOrder : liveHblank.m.Inv liveHblank.cfg ∧ liveHblank.m.horizon = some 1 ∧
    (∃ t, account 1 .stall liveHblank = .next t) ∧ ∃ t, account 9 .cpu liveHblank = .next t := by
  refine ⟨liveHblank_inv, by decide, ?_, ?_⟩
  · obtain ⟨t, ht, -⟩ := account_quiet (src := .stall) (n := 1) liveHblank_inv live_noneArmed.2.1
    exact ⟨t, ht⟩
  · obtain ⟨t, ht, -⟩ := account_quiet (src := .cpu) (n := 9) liveHblank_inv live_noneArmed.2.1
    exact ⟨t, ht⟩

/-- A first turn of each kind: a queued cost, a halted CPU, and an instruction whose timer write waits at its end. -/
theorem witness_RunIsItsFirstTurnAndTheRest :
    let s := { liveHalted with cpu := running [⟨3, [.w16 0x102 0x00C0]⟩] }
    (liveDrawing.m.Inv liveDrawing.cfg ∧ 0 < liveDrawing.m.dmaStall ∧ ∃ t, exec (.run 2) liveDrawing = .next t) ∧
    (liveHalted.m.Inv liveHalted.cfg ∧ liveHalted.m.dmaStall = 0 ∧ liveHalted.cpu.halted = true ∧
      liveHalted.m.horizon = some 1 ∧ ∃ t, exec (.run 2) liveHalted = .next t) ∧
    (s.m.Inv s.cfg ∧ s.m.dmaStall = 0 ∧ s.cpu.halted = false ∧ ∃ t, exec (.run 2) s = .next t) :=
  ⟨⟨liveDrawing_inv, by decide, exists_next (by decide)⟩,
    ⟨liveHalted_inv, rfl, rfl, by decide, exists_next (by decide)⟩, liveHalted_inv, rfl, rfl, exists_next (by decide)⟩

/-- The acts: in the window and outside it, in a plain turn and in one that answers. -/
theorem witness_RunIsItsFirstTurnAndTheRest_acts :
    (windowOffset turning.cfg (Width.word.align 0x02000003) = none ∧ turning.turn.answer ≠ none) ∧
    (windowOffset moving.cfg (Width.byte.align 0x040003FF) ≠ none ∧ moving.turn.answer = none) ∧
    windowOffset moving.cfg (Width.half.align 0x04000000) = some 0x000 ∧
    windowOffset moving.cfg (Width.half.align 0x040003FF) = some 0x3FE ∧
    windowOffset moving.cfg (Width.half.align 0x04000400) = none := by decide

theorem witness_RunAccountsItsBudget : liveDrawing.m.Inv liveDrawing.cfg ∧
    ∃ t, exec (.run 2) liveDrawing = .next t ∧ t.result = .budgetExhausted := by
  refine ⟨liveDrawing_inv, ?_⟩
  obtain ⟨t, ht⟩ := exists_next (r := exec (.run 2) liveDrawing) (by decide)
  have e : after (exec (.run 2) liveDrawing) (·.result) = some .budgetExhausted := by decide
  rw [ht] at e
  injection e with e
  exact ⟨t, ht, e⟩

theorem witness_RunOfAnIdleCpuTakesExactlyItsBudget : liveDrawing.m.Inv liveDrawing.cfg ∧ liveDrawing.m.noneArmed ∧
    liveDrawing.cpu.script = [] ∧ (∀ e ∈ liveDrawing.cpu.entries, e.handler = []) ∧
    let s := { liveDrawing with cpu := { liveDrawing.cpu with entries := [⟨true, []⟩] } }
    s.m.Inv s.cfg ∧ s.m.noneArmed ∧ s.cpu.script = [] ∧ ∀ e ∈ s.cpu.entries, e.handler = [] :=
  ⟨liveDrawing_inv, live_noneArmed.1, rfl, by decide, liveDrawing_inv, live_noneArmed.1, rfl, by decide⟩

/-! The invariant and the host operations. -/

theorem witness_StepKeepsTheInvariant : liveWaiting.Inv ∧ ∃ t, step liveWaiting = .next t :=
  ⟨liveWaiting_inv, exists_next (by decide)⟩

theorem witness_StepNeverFaults : liveWaiting.Inv := liveWaiting_inv

theorem witness_LoadOfSaveRestoresTheState :
    liveDrawing.m.wt = waitDecode liveDrawing.cfg.waitDecoder (liveDrawing.m.getIo 0x204) ∧
    let u := { withIo [] with file := ⟨1, liveDrawing.cartId, liveDrawing.m, liveDrawing.mem⟩ }
    u.cfg = liveDrawing.cfg ∧ u.file = ⟨1, liveDrawing.cartId, liveDrawing.m, liveDrawing.mem⟩ ∧
      u.cartId = liveDrawing.cartId := ⟨liveDrawing_inv.wt, rfl, rfl, rfl⟩

/-- The first version that is too new, another cartridge, and a savestate that loads. -/
theorem witness_LoadIsAllOrNothing :
    let s := fun v c => { liveDrawing with file := ⟨v, c, liveVblank.m, []⟩ }
    1 < (s 2 5).file.version ∧ ((s 1 5).file.version ≤ 1 ∧ (s 1 5).file.cartId ≠ (s 1 5).cartId) ∧
    ((s 1 0).file.version ≤ 1 ∧ (s 1 0).file.cartId = (s 1 0).cartId) := by decide

end Sys2Proof.Tests
end

section
/-! SUPPORT. The invariant of the whole state (R47): it holds at reset, and every step keeps it. A command word decodes to
a port write, a port read, an event or a host call (`decode_cases`); the invariant has one lemma for each. -/

namespace Sys2Proof.Machine

/-! ## What a command word can be (R90, R92) -/

/-- A port command is the write or the read that its offset selects. -/
theorem decodePort_cases {w : Nat} {i : Instr} (h : decodePort w = .ok i) :
    (∃ a v, i = selectWrite a v) ∨ ∃ a, i = selectRead a := by
  unfold decodePort at h
  simp only at h
  split_ifs at h
  · injection h with h; exact .inl ⟨_, _, h.symm⟩
  · injection h with h; exact .inr ⟨_, h.symm⟩

theorem plainOp_eq_ok {x : Nat} {i j : Instr} (h : plainOp x i = .ok j) : j = i := by
  unfold plainOp at h
  split_ifs at h
  injection h with h; exact h.symm

/-- An event command is one of the scheduler's own events. -/
theorem decodeEvent_isEvent {w : Nat} {i : Instr} (h : decodeEvent w = .ok i) : isEvent i = true := by
  have plain : ∀ {j : Instr}, isEvent j = true → plainOp (w / 16) j = .ok i → isEvent i = true :=
    fun hj h => plainOp_eq_ok h ▸ hj
  unfold decodeEvent at h
  simp only at h
  split at h
  case h_1 | h_2 | h_3 | h_5 | h_6 | h_7 | h_9 => exact plain rfl h
  case h_4 | h_8 =>
    split_ifs at h
    injection h with h; subst h; rfl
  case h_10 => cases h

/-- A host command is one of the five host calls. -/
theorem decodeHost_cases {low high : Nat} {i : Instr} (h : decodeHost low high = .ok i) :
    i = .reset ∨ (∃ n, i = .run n) ∨ (∃ b, i = .extIrq b) ∨ i = .save ∨ i = .load := by
  unfold decodeHost at h
  simp only at h
  split at h
  · exact .inl (plainOp_eq_ok h)
  · exact .inr (.inl ⟨_, plainOp_eq_ok h⟩)
  · split_ifs at h
    injection h with h; exact .inr (.inr (.inl ⟨_, h.symm⟩))
  · exact .inr (.inr (.inr (.inl (plainOp_eq_ok h))))
  · exact .inr (.inr (.inr (.inr (plainOp_eq_ok h))))
  · cases h

/-- Everything a command word can decode to. -/
theorem decode_cases {w : Nat} {i : Instr} (h : decode w = .ok i) :
    (∃ a v, i = selectWrite a v) ∨ (∃ a, i = selectRead a) ∨ isEvent i = true ∨
      i = .reset ∨ (∃ n, i = .run n) ∨ (∃ b, i = .extIrq b) ∨ i = .save ∨ i = .load := by
  unfold decode at h
  simp only at h
  split at h
  · split_ifs at h
    exact (decodePort_cases h).imp_right .inl
  · split_ifs at h
    exact .inr (.inr (.inl (decodeEvent_isEvent h)))
  · exact .inr (.inr (.inr (decodeHost_cases h)))
  · cases h

/-! ## The port operations by their offset (R91, R230, R231) -/

theorem evenOffset_evenOffset (a : Offset) : evenOffset (evenOffset a) = evenOffset a := by
  simp [evenOffset, BitVec.and_assoc]

/-- The offset of a storage register is an operand of `W.OTHER` (R235). -/
theorem otherOffset_evenOffset {a : Offset} (h : Reg.ofOffset a = .other) : otherOffset (evenOffset a) = true := by
  have all : ∀ a : Offset, Reg.ofOffset a = .other → otherOffset (evenOffset a) = true := by decide +kernel
  exact all a h

/-- The write operation that an offset selects is `PortWrite` at that offset (R91, R230). -/
theorem exec_selectWrite (a : Offset) (v : Half) (s : State) : exec (selectWrite a v) s = portWrite a v s := by
  unfold selectWrite portWrite portWriteWith
  cases h : Reg.ofOffset a with
  | dispstat | vcount | ie | if_ | waitcnt | ime => rfl
  | sadL c | sadH c | dadL c | dadH c | cntL c | cntH c => fin_cases c <;> rfl
  | tmL i | tmH i => fin_cases i <;> rfl
  | other =>
    show execWOther (evenOffset a) v s = .next (storeOther a v s)
    rw [execWOther, if_pos (otherOffset_evenOffset h), storeOther, evenOffset_evenOffset, storeOther]

/-- A port read hands out a value and does nothing else (R231). -/
theorem exec_selectRead {a : Offset} {s t : State} (h : exec (selectRead a) s = .next t) : ∃ e, t = s.emit e := by
  unfold selectRead at h
  split at h
  case h_1 | h_2 | h_3 | h_4 => injection h with h; exact ⟨_, h.symm⟩
  case h_5 =>
    change execRStored (evenOffset a) s = .next t at h
    unfold execRStored at h
    split_ifs at h
    injection h with h; exact ⟨_, h.symm⟩

/-! ## RUN (R120) -/

/-- A run accounts cycles, keeping the invariant all the while, and at its end says how it ended. -/
theorem runLoop_elapsed {fuel left : Nat} {s t : State} (hs : s.m.Inv s.cfg) (h : runLoop fuel left s = .next t) :
    ∃ k u r, Elapsed k s u ∧ t = { u with result := r } := by
  induction fuel generalizing left s with
  | zero =>
    cases left with
    | zero => injection h with h; exact ⟨0, s, _, Elapsed.refl hs, h.symm⟩
    | succ left => cases h
  | succ fuel ih =>
    cases left with
    | zero => injection h with h; exact ⟨0, s, _, Elapsed.refl hs, h.symm⟩
    | succ left =>
      obtain ⟨⟨u, e⟩, hu, h⟩ := andThen_eq_next.mp h
      have ends := pass_ends hs (Nat.succ_pos left) hu
      cases e with
      | ran n =>
        obtain ⟨j, -, -, hj⟩ := ends
        obtain ⟨k, v, r, hk, ht⟩ := ih hj.inv h
        exact ⟨j + k, v, r, hj.trans hk, ht⟩
      | fatalTrap =>
        obtain ⟨j, hj⟩ := ends
        injection h with h
        exact ⟨j, u, _, hj, h.symm⟩
      | earlyExit => exact ends.elim

/-! ## Reset (R48) -/

@[simp] theorem reset_getIo (cfg : Config) (a : Nat) : (Block.reset cfg).getIo a = 0 := by
  simp [Block.getIo, Block.reset]

@[simp] theorem reset_timer (cfg : Config) (i : Fin 4) : (Block.reset cfg).timer i = Timer.reset := by
  simp [Block.timer, Block.reset]

@[simp] theorem reset_video (cfg : Config) : (Block.reset cfg).video = ⟨0, .drawing, 0⟩ := rfl

/-- R47 holds of `M` after reset, whatever the parameters. -/
theorem reset_inv (cfg : Config) : (Block.reset cfg).Inv cfg where
  cim := by simp [modeLen]
  line := by simp
  mode := by simp
  vbl := by simp
  hbl := by simp
  vcount := by simp
  dispstat := by simp
  ticks i hi := by simp [freeRunning, Timer.reset] at hi
  latch k hk := by cases hk
  masks a _ _ _ := by simp
  flags := by simp
  wt := by rw [reset_getIo]; rfl

/-! ## The invariant of the whole state -/

/-- Whatever cycles are accounted, the invariant is kept. -/
theorem State.Inv.of_elapsed {n : Nat} {s t : State} (hs : s.Inv) (h : Elapsed n s t) : t.Inv where
  cfg := h.cfg ▸ hs.cfg
  m := h.inv
  mem := h.mem hs.mem
  fileM := by rw [h.file, h.cfg]; exact hs.fileM
  fileMem := by rw [h.file]; exact hs.fileMem
  commands := by rw [h.queue]; exact hs.commands

/-- A port operation keeps it. -/
theorem State.Inv.of_portEffect {s t : State} (hs : s.Inv) (h : PortEffect s t) : t.Inv := hs.of_elapsed (h.elapsed hs.m)

/-- It does not look at how the last host call ended. -/
theorem State.Inv.with_result {s : State} (hs : s.Inv) (r : HostResult) : ({ s with result := r } : State).Inv :=
  { hs with }

/-- Taking the next command off the queue keeps it. -/
theorem State.Inv.pop {s : State} {w : Nat} {rest : List Nat} (hs : s.Inv) (hq : s.queue = w :: rest) :
    ({ s with queue := rest } : State).Inv :=
  { hs with commands := fun x hx => hs.commands x (hq ▸ List.mem_cons_of_mem w hx) }

/-- `RESET` keeps it (R320). -/
theorem State.Inv.after_reset {s t : State} (hs : s.Inv) (h : execReset s = .next t) : t.Inv := by
  injection h with h; subst h
  exact { hs with m := reset_inv s.cfg }

/-- `RUN` keeps it, whatever its budget and however it ends (R120). -/
theorem State.Inv.after_run {budget : Nat} {s t : State} (hs : s.Inv) (h : execRun budget s = .next t) : t.Inv := by
  obtain ⟨k, u, r, hk, rfl⟩ := runLoop_elapsed hs.m h
  exact (hs.of_elapsed hk).with_result r

/-- `EXT_IRQ` keeps it (R157). -/
theorem State.Inv.after_extIrq {b : BitVec 4} {s t : State} (hs : s.Inv) (h : execExtIrq b s = .next t) : t.Inv := by
  unfold execExtIrq at h
  split_ifs at h with hb
  injection h with h; subst h
  exact hs.of_portEffect (PortEffect.raiseAndEval s hb)

/-- `SAVE` keeps it: the savestate is the state that meets it (R300). -/
theorem State.Inv.after_save {s t : State} (hs : s.Inv) (h : execSave s = .next t) : t.Inv := by
  injection h with h; subst h
  exact { hs with fileM := hs.m, fileMem := hs.mem }

/-- `LOAD` keeps it: the tables it decodes anew are the savestate's own (R301, R47 (h)). -/
theorem State.Inv.after_load {s t : State} (hs : s.Inv) (h : execLoad s = .next t) : t.Inv := by
  unfold execLoad at h
  split_ifs at h
  · injection h with h; subst h; exact hs.with_result _
  · injection h with h; subst h; exact hs.with_result _
  · rw [← hs.fileM.wt] at h
    injection h with h; subst h
    exact { hs with m := hs.fileM, mem := hs.fileMem }

/-- Every operation that a command word stands for keeps it, the scheduler's own events apart. -/
theorem State.Inv.after_decoded {w : Nat} {i : Instr} {s t : State} (hs : s.Inv) (hw : decode w = .ok i)
    (hi : isEvent i = false) (h : exec i s = .next t) : t.Inv := by
  rcases decode_cases hw with ⟨a, v, rfl⟩ | ⟨a, rfl⟩ | he | rfl | ⟨n, rfl⟩ | ⟨b, rfl⟩ | rfl | rfl
  · rw [exec_selectWrite] at h
    exact hs.of_portEffect (portWrite_effect h)
  · obtain ⟨e, rfl⟩ := exec_selectRead h
    exact hs.of_portEffect (PortEffect.emit s e)
  · rw [he] at hi; cases hi
  · exact hs.after_reset h
  · exact hs.after_run h
  · exact hs.after_extIrq h
  · exact hs.after_save h
  · exact hs.after_load h

/-- Settles O55: the command taken off the queue is none of the scheduler's events, and every other operation keeps the
invariant. -/
theorem stepKeepsTheInvariant : Obligations.StepKeepsTheInvariant := by
  intro s t hs h
  unfold step at h
  split at h
  case h_1 =>
    injection h with h; subst h; exact hs
  case h_2 w rest hq =>
    split at h
    case h_1 i hw =>
      exact (hs.pop hq).after_decoded hw (hs.commands w (hq ▸ List.mem_cons_self) i hw) h
    case h_2 => cases h

/-- Settles O56: `M` meets R47 after reset, both byte stores are empty and no command waits. -/
theorem resetMeetsTheInvariant : Obligations.ResetMeetsTheInvariant where
  cfg := by decide
  m := reset_inv Config.default
  mem := rfl
  fileM := reset_inv Config.default
  fileMem := rfl
  commands := by intro w hw; cases hw

end Sys2Proof.Machine
end

section
/-! SUPPORT. How accesses of the system space reach the register window (R63): an address of the window is as aligned as
its offset, and each width has its port operations. -/

namespace Sys2Proof.Machine

/-! ## Addresses of the window -/

/-- An offset above `IOBASE` lies in the window, at that offset. -/
theorem windowOffset_ioBase_add (cfg : Config) (a : Offset) :
    windowOffset cfg (cfg.ioBase + a.setWidth 32) = some a := by
  have ha : (a.setWidth 32).toNat < 0x400 := by
    rw [BitVec.toNat_setWidth_of_le (by decide)]; exact a.isLt
  unfold windowOffset
  rw [add_sub_cancel_left, if_pos ha, BitVec.setWidth_setWidth_of_le _ (by decide), BitVec.setWidth_eq]

/-- `IOBASE` is a multiple of 0x400 (R7), so an address in the window is as aligned as its offset. -/
theorem align_ioBase_add {cfg : Config} (hc : cfg.wf) {w : Width} {a : Offset} (ha : a.toNat % w.bytes = 0) :
    w.align (cfg.ioBase + a.setWidth 32) = cfg.ioBase + a.setWidth 32 := by
  have hd : w.bytes ∣ 0x400 := by cases w <;> decide
  refine align_add ((align_eq_self_iff _ _).mpr ?_) ((align_eq_self_iff _ _).mpr ?_)
  · exact Nat.mod_eq_zero_of_dvd (hd.trans (Nat.dvd_of_mod_eq_zero hc))
  · rwa [BitVec.toNat_setWidth_of_le (by decide)]

/-! ## Halves and bytes -/

theorem extract_shiftRight (v : BitVec 32) : (v >>> 16).extractLsb' 0 16 = v.extractLsb' 16 16 := by
  ext i hi
  simp

/-- A mask of the low byte is that byte. -/
theorem and_low_byte {n m : Nat} (hn : 8 ≤ n) (v : BitVec n) :
    (v &&& 0xFF).setWidth m = (v.setWidth 8).setWidth m := by
  have hmask : (0xFF : BitVec n).toNat = 2 ^ 8 - 1 :=
    Nat.mod_eq_of_lt (Nat.lt_of_lt_of_le (by decide) (Nat.pow_le_pow_right (by decide) hn))
  refine BitVec.eq_of_toNat_eq ?_
  simp only [BitVec.toNat_setWidth, BitVec.toNat_and, hmask, Nat.and_two_pow_sub_one_eq_mod]

theorem shiftRight_eq_extract_high_byte (h : Half) : (h >>> 8).setWidth 32 = (h.extractLsb' 8 8).setWidth 32 := by
  have hlt : h.toNat / 2 ^ 8 < 2 ^ 8 := by omega
  refine BitVec.eq_of_toNat_eq ?_
  simp only [BitVec.toNat_setWidth, BitVec.toNat_ushiftRight, BitVec.extractLsb'_toNat, Nat.shiftRight_eq_div_pow,
    Nat.mod_eq_of_lt hlt]

/-! ## One lemma per access (R63) -/

section window
variable {s : State} (hc : s.cfg.wf)
include hc

theorem memWrite_word_window {a : Offset} (ha : a.toNat % 4 = 0) (v : BitVec 32) :
    memWrite .word (s.cfg.ioBase + a.setWidth 32) v s =
      andThen (portWrite a (v.extractLsb' 0 16) s) fun s => portWrite (a + 2) (v.extractLsb' 16 16) s := by
  simp only [memWrite, memWriteWith, align_ioBase_add hc (w := .word) ha, windowOffset_ioBase_add,
    BitVec.setWidth_eq_extractLsb' (show 16 ≤ 32 by decide), extract_shiftRight]

theorem memRead_word_window {a : Offset} (ha : a.toNat % 4 = 0) :
    memRead .word (s.cfg.ioBase + a.setWidth 32) s = s.m.portRead (a + 2) ++ s.m.portRead a := by
  simp only [memRead, align_ioBase_add hc (w := .word) ha, windowOffset_ioBase_add]

theorem memWrite_byte_window (b : Offset) (v : BitVec 32) :
    memWrite .byte (s.cfg.ioBase + b.setWidth 32) v s =
      portWrite b (if b.getLsbD 0 = false then (s.m.portRead b &&& 0xFF00) ||| (v &&& 0xFF).setWidth 16
        else (s.m.portRead b &&& 0x00FF) ||| ((v &&& 0xFF).setWidth 16 <<< 8)) s := by
  simp only [memWrite, memWriteWith, align_ioBase_add hc (w := .byte) (Nat.mod_one _), windowOffset_ioBase_add,
    and_low_byte (n := 32) (by decide)]
  cases b.getLsbD 0 <;> rfl

theorem memRead_byte_window (b : Offset) :
    memRead .byte (s.cfg.ioBase + b.setWidth 32) s =
      (if b.getLsbD 0 = false then (s.m.portRead b).extractLsb' 0 8
        else (s.m.portRead b).extractLsb' 8 8).setWidth 32 := by
  simp only [memRead, align_ioBase_add hc (w := .byte) (Nat.mod_one _), windowOffset_ioBase_add,
    and_low_byte (n := 16) (by decide), shiftRight_eq_extract_high_byte,
    BitVec.setWidth_eq_extractLsb' (show 8 ≤ 16 by decide)]
  cases b.getLsbD 0 <;> rfl

end window

/-- Settles O21: an address of the window is aligned and names its offset, so each access is the port operations that the
model gives its width. -/
theorem windowAccessesSplitAndJoin : Obligations.WindowAccessesSplitAndJoin := by
  intro a b v s hc ha
  exact ⟨memWrite_word_window hc ha v, memRead_word_window hc ha, memWrite_byte_window hc b v, memRead_byte_window hc b⟩

end Sys2Proof.Machine
end

section
/-! SUPPORT. The accesses a DMA trigger makes (R65, R66), read off the record: a unit records its own accesses and nothing
else, and a plan's addresses and steps are aligned. -/

namespace Sys2Proof.Machine

/-! ## What a DMA unit records (R176, R177) -/

/-- A port write of a DMA unit hands nothing out. -/
theorem portWriteWith_unit_trace {ch : Fin 4} {a : Offset} {v : Half} {s t : State}
    (h : portWriteWith (controlWriteByUnit ch) a v s = .next t) : t.trace = s.trace := by
  by_cases hr : ∃ c, Reg.ofOffset a = .cntH c
  · obtain ⟨c, hr⟩ := hr
    simp only [portWriteWith, hr, controlWriteByUnit] at h
    split_ifs at h
    injection h with h; subst h; rfl
  · obtain ⟨u, hu, -, htrace, -⟩ := portWrite_plain (v := v) (s := s) (not_exists.mp hr)
    rw [hu] at h
    injection h with h; subst h; exact htrace

/-- A write of the system space hands out nothing but what its port writes do. -/
theorem memWriteWith_trace {pw : Offset → Half → State → Res State}
    (hp : ∀ a v s t, pw a v s = .next t → t.trace = s.trace) {w : Width} {a : Addr} {v : BitVec 32} {s t : State}
    (h : memWriteWith pw w a v s = .next t) : t.trace = s.trace := by
  unfold memWriteWith at h
  simp only at h
  split at h
  · exact hp _ _ _ _ h
  · exact hp _ _ _ _ h
  · obtain ⟨u, h1, h2⟩ := andThen_eq_next.mp h
    exact (hp _ _ _ _ h2).trans (hp _ _ _ _ h1)
  · injection h with h; subst h; rfl

/-- Nor does it in any turn of the memory collaborator, whose `EXT_IRQ` calls hand out nothing. -/
theorem busWriteWith_trace {pw : Offset → Half → State → Res State}
    (hp : ∀ a v s t, pw a v s = .next t → t.trace = s.trace) {w : Width} {a : Addr} {v : BitVec 32} {s t : State}
    (h : busWriteWith pw w a v s = .next t) : t.trace = s.trace := by
  obtain ⟨u, h1, h2⟩ := andThen_eq_next.mp h
  injection h2 with h2; subst h2
  rw [arrive_trace, ← show s.startAccess.trace = s.trace from arrive_trace _ _]
  split at h1
  · injection h1 with h1; subst h1; rfl
  · exact memWriteWith_trace hp h1

/-- The read of a unit records itself, or nothing in the open-bus case. -/
theorem unitRead_trace (w : Width) (src dst : Addr) (s : State) :
    (unitRead w src dst s).2.trace = s.trace ∨
      ∃ v, (unitRead w src dst s).2.trace = .memRead w src v :: s.trace := by
  unfold unitRead
  split
  · exact .inl rfl
  · exact .inr ⟨(busRead w src s).1, by simp [busRead_state]⟩

/-- A unit that completes records its write and at most one read, of its own width and addresses. -/
theorem dmaUnit_trace {ch : Fin 4} {w : Width} {src dst : Addr} {s t : State} (h : dmaUnit ch w src dst s = .next t) :
    ∃ v reads, t.trace = .memWrite w dst v :: reads ++ s.trace ∧ (reads = [] ∨ ∃ u, reads = [.memRead w src u]) := by
  have hw : t.trace = .memWrite w dst _ :: (unitRead w src dst s).2.trace :=
    busWriteWith_trace (fun _ _ _ _ => portWriteWith_unit_trace) h
  rcases unitRead_trace w src dst s with hr | ⟨u, hr⟩
  · exact ⟨_, [], by rw [hw, hr]; rfl, .inl rfl⟩
  · exact ⟨_, [.memRead w src u], by rw [hw, hr]; rfl, .inr ⟨u, rfl⟩⟩

/-! ## Every access of a trigger is aligned (R65, R66) -/

/-- An event is no access of a DMA unit, or one of 16 or 32 bits at a multiple of its bytes. -/
def Event.AccessAligned (e : Event) : Prop :=
  ∀ w a, e.unitRead = some (w, a) ∨ e.unitWrite = some (w, a) → w ≠ .byte ∧ a.toNat % w.bytes = 0

theorem Event.accessAligned_memRead {w : Width} {a : Addr} {v : BitVec 32} :
    (Event.memRead w a v).AccessAligned ↔ w ≠ .byte ∧ w.align a = a := by
  simp [AccessAligned, unitRead, unitWrite, align_eq_self_iff]

theorem Event.accessAligned_memWrite {w : Width} {a : Addr} {v : BitVec 32} :
    (Event.memWrite w a v).AccessAligned ↔ w ≠ .byte ∧ w.align a = a := by
  simp [AccessAligned, unitRead, unitWrite, align_eq_self_iff]

/-- The record grows, and by aligned accesses alone. -/
def RecordsAligned (s t : State) : Prop := ∃ new, t.trace = new ++ s.trace ∧ ∀ e ∈ new, e.AccessAligned

theorem RecordsAligned.of_trace_eq {s t : State} (h : t.trace = s.trace) : RecordsAligned s t :=
  ⟨[], h, List.forall_mem_nil _⟩

theorem RecordsAligned.trans {s t u : State} (h : RecordsAligned s t) (k : RecordsAligned t u) : RecordsAligned s u := by
  obtain ⟨a, ha, ha'⟩ := h
  obtain ⟨b, hb, hb'⟩ := k
  exact ⟨b ++ a, by rw [hb, ha, List.append_assoc], List.forall_mem_append.mpr ⟨hb', ha'⟩⟩

theorem dmaUnit_recordsAligned {ch : Fin 4} {w : Width} {src dst : Addr} {s t : State} (hw : w ≠ .byte)
    (hs : w.align src = src) (hd : w.align dst = dst) (h : dmaUnit ch w src dst s = .next t) : RecordsAligned s t := by
  obtain ⟨v, reads, ht, hr⟩ := dmaUnit_trace h
  refine ⟨_, ht, List.forall_mem_cons.mpr ⟨Event.accessAligned_memWrite.mpr ⟨hw, hd⟩, ?_⟩⟩
  rcases hr with rfl | ⟨u, rfl⟩
  · exact List.forall_mem_nil _
  · exact List.forall_mem_singleton.mpr (Event.accessAligned_memRead.mpr ⟨hw, hs⟩)

/-- Steps that are aligned keep both addresses aligned from unit to unit. -/
theorem dmaUnits_recordsAligned {ch : Fin 4} {p : Plan} (hw : p.width ≠ .byte)
    (hss : p.width.align p.sstep = p.sstep) (hds : p.width.align p.dstep = p.dstep) {n : Nat} {src dst : Addr}
    {s t : State} (hs : p.width.align src = src) (hd : p.width.align dst = dst)
    (h : dmaUnits ch p n src dst s = .next t) : RecordsAligned s t := by
  induction n generalizing src dst s with
  | zero => injection h with h; subst h; exact .of_trace_eq rfl
  | succ n ih =>
    obtain ⟨u, h1, h2⟩ := andThen_eq_next.mp h
    exact (dmaUnit_recordsAligned hw hs hd h1).trans (ih (align_add hs hss) (align_add hd hds) h2)

theorem transfer_recordsAligned {ch : Fin 4} {reason : BitVec 2} {s t : State} (h : transfer ch reason s = .next t) :
    RecordsAligned s t := by
  unfold transfer at h
  split at h
  · cases h
  · next p hp =>
    obtain ⟨u, h1, h2⟩ := andThen_eq_next.mp h
    injection h2 with h2; subst h2
    obtain ⟨hw, hs, hd, hss, hds⟩ := plan_aligned hp
    exact (dmaUnits_recordsAligned hw hss hds hs hd h1).trans (.of_trace_eq rfl)

theorem triggerChannel_recordsAligned {reason : BitVec 2} {mask : BitVec 4} {c : Fin 4} {s t : State}
    (h : triggerChannel reason mask c s = .next t) : RecordsAligned s t := by
  unfold triggerChannel at h
  split_ifs at h
  · exact transfer_recordsAligned h
  · injection h with h; subst h; exact .of_trace_eq rfl

theorem checkAndTrigger_recordsAligned {reason : BitVec 2} {mask : BitVec 4} {s t : State}
    (h : checkAndTrigger reason mask s = .next t) : RecordsAligned s t := by
  obtain ⟨u0, h0, h⟩ := andThen_eq_next.mp h
  obtain ⟨u1, h1, h⟩ := andThen_eq_next.mp h
  obtain ⟨u2, h2, h⟩ := andThen_eq_next.mp h
  exact (((triggerChannel_recordsAligned h0).trans (triggerChannel_recordsAligned h1)).trans
    (triggerChannel_recordsAligned h2)).trans (triggerChannel_recordsAligned h)

/-- Settles O35: a plan's addresses and steps are aligned to its width, which is no byte, and a unit records no access but
its own. -/
theorem dmaAccessesAreAligned : Obligations.DmaAccessesAreAligned := by
  intro reason mask s t h
  obtain ⟨new, ht, hn⟩ := checkAndTrigger_recordsAligned h
  refine ⟨new, ht, fun w a hwa => ?_⟩
  rw [List.mem_append, List.mem_filterMap, List.mem_filterMap] at hwa
  rcases hwa with ⟨e, he, hr⟩ | ⟨e, he, hr⟩
  · exact hn e he w a (.inl hr)
  · exact hn e he w a (.inr hr)

end Sys2Proof.Machine
end

section
/-! SUPPORT. Offsets and the operations they select (R91, R64). A port operation depends on its offset through the even
offset alone; the operands of `W.OTHER` and `R.STORED` are the even offsets that select no other row. -/

namespace Sys2Proof.Machine

/-! ## The register an offset selects (R22, R91) -/

theorem evenOffset_eq_self {a : Offset} (h : a.toNat % 2 = 0) : evenOffset a = a :=
  BitVec.eq_of_toNat_eq (by rw [evenOffset_toNat]; omega)

theorem evenOffset_or_one (a : Offset) : evenOffset (a ||| 1) = evenOffset a :=
  BitVec.eq_of_toNat_eq (by simp [evenOffset_toNat, Nat.or_div_two])

@[simp] theorem ofOffset_evenOffset (a : Offset) : Reg.ofOffset (evenOffset a) = Reg.ofOffset a := by
  simp only [Reg.ofOffset, evenOffset_toNat, Nat.mul_div_cancel _ (Nat.two_pos)]

/-- A register of the CORE set has the offset that selects it. -/
theorem offset_ofOffset (a : Offset) : Reg.ofOffset a ≠ .other → (Reg.ofOffset a).offset = (evenOffset a).toNat := by
  rw [evenOffset_toNat]
  unfold Reg.ofOffset
  split
  case h_39 => exact fun h => absurd rfl h
  all_goals exact fun _ => Eq.symm ‹_›

theorem offset_mem_coreOffsets {r : Reg} (h : r ≠ .other) : r.offset ∈ coreOffsets := by
  cases r with
  | other => exact absurd rfl h
  | dispstat | vcount | ie | if_ | waitcnt | ime => decide
  | sadL c | sadH c | dadL c | dadH c | cntL c | cntH c => revert c; decide
  | tmL i | tmH i => revert i; decide

theorem ofOffset_eq_tmL_iff (a : Offset) (i : Fin 4) : Reg.ofOffset a = .tmL i ↔ (evenOffset a).toNat = tmBase i := by
  constructor
  · intro h
    rw [← offset_ofOffset a (by rw [h]; nofun), h]; rfl
  · intro h
    rw [← ofOffset_evenOffset, ← BitVec.setWidth_eq (evenOffset a), ← BitVec.ofNat_toNat, h]
    fin_cases i <;> rfl

/-! ## The operands of `W.OTHER` and `R.STORED` (R235, R236) -/

theorem otherOffset_iff (a : Offset) : otherOffset a = true ↔ a.toNat % 2 = 0 ∧ Reg.ofOffset a = .other := by
  constructor
  · intro h
    simp only [otherOffset, Bool.and_eq_true, beq_iff_eq, Bool.not_eq_true', ← Bool.not_eq_true,
      List.contains_iff_mem] at h
    obtain ⟨he, hc⟩ := h
    refine ⟨he, by_contra fun hr => hc ?_⟩
    rw [← evenOffset_eq_self he, ← offset_ofOffset a hr]
    exact offset_mem_coreOffsets hr
  · rintro ⟨he, hr⟩
    rw [← evenOffset_eq_self he]
    exact otherOffset_evenOffset hr

theorem storedOffset_iff (a : Offset) : storedOffset a = true ↔ a.toNat % 2 = 0 ∧ ∀ i, Reg.ofOffset a ≠ .tmL i := by
  have hc : countOffsets = (List.finRange 4).map tmBase := by decide
  simp only [storedOffset, hc, Bool.and_eq_true, beq_iff_eq, Bool.not_eq_true', Ne, ofOffset_eq_tmL_iff]
  refine and_congr_right fun he => ?_
  simp [evenOffset_eq_self he, eq_comm]

/-! ## The operation an offset selects (R91) -/

theorem selectWrite_evenOffset (a : Offset) (v : Half) : selectWrite (evenOffset a) v = selectWrite a v := by
  simp only [selectWrite, ofOffset_evenOffset, evenOffset_evenOffset]

theorem selectWrite_wellFormed (a : Offset) (v : Half) : (selectWrite a v).wellFormed = true := by
  unfold selectWrite
  cases h : Reg.ofOffset a with
  | other => exact otherOffset_evenOffset h
  | dispstat | vcount | ie | if_ | waitcnt | ime => rfl
  | sadL c | sadH c | dadL c | dadH c | cntL c | cntH c => fin_cases c <;> rfl
  | tmL i | tmH i => fin_cases i <;> rfl

theorem selectWrite_of_other {a : Offset} (h : otherOffset a = true) (v : Half) : selectWrite a v = .wOther a v := by
  obtain ⟨he, hr⟩ := (otherOffset_iff a).mp h
  simp only [selectWrite, hr, evenOffset_eq_self he]

/-- `R.TMiCNT_L`. -/
def countRead (i : Fin 4) : Instr := pick i .rTm0CntL .rTm1CntL .rTm2CntL .rTm3CntL

theorem selectRead_evenOffset (a : Offset) : selectRead (evenOffset a) = selectRead a := by
  simp only [selectRead, evenOffset_evenOffset, evenOffset_toNat, Nat.mul_div_cancel _ Nat.two_pos]

theorem selectRead_of_count {a : Offset} {i : Fin 4} (h : Reg.ofOffset a = .tmL i) : selectRead a = countRead i := by
  rw [ofOffset_eq_tmL_iff, evenOffset_toNat] at h
  rw [selectRead, h]
  fin_cases i <;> rfl

theorem selectRead_of_stored {a : Offset} (h : ∀ i, Reg.ofOffset a ≠ .tmL i) :
    selectRead a = .rStored (evenOffset a) := by
  simp only [Ne, ofOffset_eq_tmL_iff, evenOffset_toNat] at h
  unfold selectRead
  split
  case h_1 ha => exact absurd ha (h 0)
  case h_2 ha => exact absurd ha (h 1)
  case h_3 ha => exact absurd ha (h 2)
  case h_4 ha => exact absurd ha (h 3)
  case h_5 => rfl

/-- A read is of the count of the timer whose reload register the offset selects, or of a stored entry (R91). -/
theorem selectRead_cases (a : Offset) :
    (∃ i, Reg.ofOffset a = .tmL i ∧ selectRead a = countRead i) ∨
      (∀ i, Reg.ofOffset a ≠ .tmL i) ∧ selectRead a = .rStored (evenOffset a) := by
  by_cases h : ∃ i, Reg.ofOffset a = .tmL i
  · obtain ⟨i, hi⟩ := h
    exact .inl ⟨i, hi, selectRead_of_count hi⟩
  · exact .inr ⟨not_exists.mp h, selectRead_of_stored (not_exists.mp h)⟩

theorem storedOffset_evenOffset {a : Offset} (h : ∀ i, Reg.ofOffset a ≠ .tmL i) :
    storedOffset (evenOffset a) = true := by
  rw [storedOffset_iff, evenOffset_toNat, ofOffset_evenOffset]
  exact ⟨Nat.mul_mod_left _ _, h⟩

theorem selectRead_wellFormed (a : Offset) : (selectRead a).wellFormed = true := by
  rcases selectRead_cases a with ⟨i, -, h⟩ | ⟨hn, h⟩ <;> rw [h]
  · fin_cases i <;> rfl
  · exact storedOffset_evenOffset hn

end Sys2Proof.Machine
end

section
/-! SUPPORT. Command words (R90 to R92, log entry 6): what the decoder makes of the word of each format, and which words
it takes for an operation. -/

namespace Sys2Proof.Machine

/-! ## The words of the operations an offset selects -/

theorem encode_selectWrite (a : Offset) (v : Half) : encode (selectWrite a v) = writeWord (evenOffset a).toNat v := by
  have ho := offset_ofOffset a
  unfold selectWrite
  generalize Reg.ofOffset a = r at ho ⊢
  cases r with
  | other => rfl
  | dispstat | vcount | ie | if_ | waitcnt | ime => rw [← ho nofun]; rfl
  | sadL c | sadH c | dadL c | dadH c | cntL c | cntH c => rw [← ho nofun]; fin_cases c <;> rfl
  | tmL i | tmH i => rw [← ho nofun]; fin_cases i <;> rfl

theorem encode_countRead (i : Fin 4) : encode (countRead i) = readWord (tmBase i) := by
  fin_cases i <;> rfl

theorem encode_selectRead (a : Offset) : encode (selectRead a) = readWord (evenOffset a).toNat := by
  rcases selectRead_cases a with ⟨i, hi, h⟩ | ⟨-, h⟩ <;> rw [h]
  · rw [encode_countRead, (ofOffset_eq_tmL_iff a i).mp hi]
  · rfl

/-- An offset is the even one, or has the ignored bit 0 set (R64). -/
theorem toNat_eq_evenOffset_or (a : Offset) : a.toNat = (evenOffset a).toNat ∨ a.toNat = (evenOffset a).toNat + 1 := by
  rw [evenOffset_toNat]; omega

/-! ## Decoding the word of each format -/

theorem decode_portWord {w : Nat} (h : w < 2 ^ 27) : decode w = decodePort w := by
  have ht : w / 2 ^ 27 % 4 = 0 := by omega
  have hh : w / 2 ^ 29 = 0 := by omega
  simp only [decode, ht, hh, Nat.mod_eq_of_lt h, if_true]

theorem decode_writeWord {n : Nat} (h : n < 0x400) (v : Half) :
    decode (writeWord n v) = .ok (selectWrite (BitVec.ofNat 10 n) v) := by
  have hv := v.isLt
  have hdir : writeWord n v / 2 ^ 26 = 1 := (Laws.FormatTag.writeWord_tag n v h).2
  have ha : BitVec.ofNat 10 (writeWord n v / 2 ^ 16) = BitVec.ofNat 10 n :=
    BitVec.eq_of_toNat_eq (by simp only [BitVec.toNat_ofNat, writeWord]; omega)
  have hval : BitVec.ofNat 16 (writeWord n v) = v :=
    BitVec.eq_of_toNat_eq (by simp only [BitVec.toNat_ofNat, writeWord]; omega)
  rw [decode_portWord (by unfold writeWord; omega)]
  simp only [decodePort, hdir, ha, hval, if_true]

theorem decode_readWord {n : Nat} (h : n < 0x400) : decode (readWord n) = .ok (selectRead (BitVec.ofNat 10 n)) := by
  have hdir : readWord n / 2 ^ 26 = 0 := (Laws.FormatTag.readWord_tag n h).2
  have ha : readWord n / 2 ^ 16 = n := by unfold readWord; omega
  have hval : BitVec.ofNat 16 (readWord n) = 0 :=
    BitVec.eq_of_toNat_eq (by simp only [BitVec.toNat_ofNat, readWord]; exact Nat.mul_mod_left _ _)
  rw [decode_portWord (by unfold readWord; omega)]
  simp only [decodePort, hdir, ha, hval, if_true, if_neg Nat.zero_ne_one]

theorem decode_dmaTriggerWord (reason : BitVec 2) (mask : BitVec 4) :
    decode (eventWord 4 (mask.toNat * 4 + reason.toNat)) = .ok (.evDmaTrigger reason mask) := by
  revert reason mask; decide

theorem decode_runWord (n : Nat) : decode (hostWord 2 0 n) = .ok (.run n) := by
  have ht : hostWord 2 0 n / 2 ^ 27 % 4 = 2 := Laws.FormatTag.hostWord_tag 2 0 n (by decide) (by decide)
  have hh : hostWord 2 0 n / 2 ^ 29 = n := by unfold hostWord; omega
  have hl : hostWord 2 0 n % 2 ^ 27 = 2 := by unfold hostWord; omega
  simp only [decode, ht, hh, hl]
  rfl

theorem decode_extIrqWord (b : BitVec 4) : decode (hostWord 3 b.toNat 0) = .ok (.extIrq b) := by
  revert b; decide

/-- Settles O1: the word of a port operation has the offset that selects the operation, which for `W.OTHER` and `R.STORED`
is what their operand checks say; the word of an event or a host call has its identifier and its operands. -/
theorem decodeOfEncodeIsTheOperation : Obligations.DecodeOfEncodeIsTheOperation := by
  intro i hi
  cases i with
  | wDispstat v | wVcount v
  | wDma0SadL v | wDma0SadH v | wDma0DadL v | wDma0DadH v | wDma0CntL v | wDma0CntH v
  | wDma1SadL v | wDma1SadH v | wDma1DadL v | wDma1DadH v | wDma1CntL v | wDma1CntH v
  | wDma2SadL v | wDma2SadH v | wDma2DadL v | wDma2DadH v | wDma2CntL v | wDma2CntH v
  | wDma3SadL v | wDma3SadH v | wDma3DadL v | wDma3DadH v | wDma3CntL v | wDma3CntH v
  | wTm0CntL v | wTm0CntH v | wTm1CntL v | wTm1CntH v | wTm2CntL v | wTm2CntH v | wTm3CntL v | wTm3CntH v
  | wIe v | wIf v | wWaitcnt v | wIme v => exact decode_writeWord (by decide) v
  | wOther a v =>
    rw [encode, decode_writeWord a.isLt, BitVec.ofNat_toNat, BitVec.setWidth_eq, selectWrite_of_other hi]
  | rTm0CntL | rTm1CntL | rTm2CntL | rTm3CntL => exact decode_readWord (by decide)
  | rStored a =>
    obtain ⟨he, hn⟩ := (storedOffset_iff a).mp hi
    rw [encode, decode_readWord a.isLt, BitVec.ofNat_toNat, BitVec.setWidth_eq, selectRead_of_stored hn,
      evenOffset_eq_self he]
  | evHblankStart | evLineEnd | evVblankLineEnd | evDmaComplete | evTimerStep | evIrqCheck | evInsnFetch => rfl
  | evDmaTrigger reason mask => exact decode_dmaTriggerWord reason mask
  | evTimerApply k => fin_cases k <;> rfl
  | reset | save | load => rfl
  | run n => exact decode_runWord n
  | extIrq b => exact decode_extIrqWord b

/-! ## The words that decode -/

theorem plainOp_eq_ok_iff {x : Nat} {i j : Instr} : plainOp x i = .ok j ↔ x = 0 ∧ j = i := by
  unfold plainOp
  split_ifs with hx <;> simp [hx, eq_comm]

/-- A port command decodes to what the offset in it selects, the direction and the value as R90 places them. -/
theorem word_of_decodePort {w : Nat} {i : Instr} (hw : w < 2 ^ 27) (h : decodePort w = .ok i) :
    (∃ a v, w = writeWord a.toNat v ∧ i = selectWrite a v) ∨ ∃ a, w = readWord a.toNat ∧ i = selectRead a := by
  unfold decodePort at h
  simp only at h
  split_ifs at h with hdir hval
  · injection h with h
    refine .inl ⟨_, _, ?_, h.symm⟩
    simp only [writeWord, BitVec.toNat_ofNat]
    omega
  · injection h with h
    refine .inr ⟨_, ?_, h.symm⟩
    have hval : w % 2 ^ 16 = 0 := congrArg BitVec.toNat hval
    simp only [readWord, BitVec.toNat_ofNat]
    omega

theorem word_of_decodeEvent {w : Nat} {i : Instr} (h : decodeEvent w = .ok i) : 2 ^ 27 + w = encode i := by
  have plain : ∀ {j : Instr} {id : Nat}, encode j = eventWord id 0 → w % 16 = id → plainOp (w / 16) j = .ok i →
      2 ^ 27 + w = encode i := by
    intro j id hj hid hp
    obtain ⟨hx, rfl⟩ := plainOp_eq_ok_iff.mp hp
    rw [hj, eventWord]
    omega
  unfold decodeEvent at h
  simp only at h
  split at h
  case h_1 hid | h_2 hid | h_3 hid | h_5 hid | h_6 hid | h_7 hid | h_9 hid => exact plain rfl hid h
  case h_4 hid =>
    split_ifs at h
    injection h with h; subst h
    simp only [encode, eventWord, BitVec.toNat_ofNat]
    omega
  case h_8 hid =>
    split_ifs at h
    injection h with h; subst h
    simp only [encode, eventWord]
    omega
  case h_10 => cases h

theorem word_of_decodeHost {low high : Nat} {i : Instr} (h : decodeHost low high = .ok i) :
    high * 2 ^ 29 + 2 ^ 28 + low = encode i := by
  unfold decodeHost at h
  simp only at h
  split at h
  case h_1 hid | h_2 hid | h_4 hid | h_5 hid =>
    obtain ⟨hx, rfl⟩ := plainOp_eq_ok_iff.mp h
    simp only [encode, hostWord]
    omega
  case h_3 hid =>
    split_ifs at h with hx
    injection h with h; subst h
    simp only [encode, hostWord, BitVec.toNat_ofNat]
    omega
  case h_6 => cases h

/-- The words that decode are those of the port commands, with any offset and value, and the own words of the events and
the host calls. -/
theorem word_of_decode {w : Nat} {i : Instr} (h : decode w = .ok i) :
    (∃ a v, w = writeWord a.toNat v ∧ i = selectWrite a v) ∨ (∃ a, w = readWord a.toNat ∧ i = selectRead a) ∨
      w = encode i := by
  unfold decode at h
  simp only at h
  split at h
  case h_1 ht =>
    split_ifs at h with hh
    have hw : w < 2 ^ 27 := by omega
    rw [Nat.mod_eq_of_lt hw] at h
    exact (word_of_decodePort hw h).imp_right .inl
  case h_2 ht =>
    split_ifs at h with hh
    refine .inr (.inr ?_)
    rw [← word_of_decodeEvent h]
    omega
  case h_3 ht =>
    refine .inr (.inr ?_)
    rw [← word_of_decodeHost h]
    omega
  case h_4 => cases h

theorem wellFormed_of_isEvent {i : Instr} (h : isEvent i = true) : i.wellFormed = true := by
  unfold Instr.wellFormed
  split
  case h_1 | h_2 | h_3 => cases h
  all_goals rfl

/-- What a word decodes to is well-formed, but that `EXT_IRQ` takes every source number that fits its four bits. -/
theorem wellFormed_of_decode {w : Nat} {i : Instr} (h : decode w = .ok i) :
    i.wellFormed = true ∨ ∃ b, i = .extIrq b ∧ 13 < b.toNat := by
  rcases decode_cases h with ⟨a, v, rfl⟩ | ⟨a, rfl⟩ | he | rfl | ⟨n, rfl⟩ | ⟨b, rfl⟩ | rfl | rfl
  · exact .inl (selectWrite_wellFormed a v)
  · exact .inl (selectRead_wellFormed a)
  · exact .inl (wellFormed_of_isEvent he)
  · exact .inl rfl
  · exact .inl rfl
  · exact (le_or_gt b.toNat 13).imp (fun hb => decide_eq_true hb) fun hb => ⟨b, rfl, hb⟩
  · exact .inl rfl
  · exact .inl rfl

/-- Settles O2: a word that decodes is an event's or a host call's own word, or a port command's, whose offset is the one
that `encode` gives the operation or that one with bit 0 set. -/
theorem decodedWordIsTheEncoding : Obligations.DecodedWordIsTheEncoding := by
  intro w i h
  refine ⟨?_, wellFormed_of_decode h⟩
  rcases word_of_decode h with ⟨a, v, rfl, rfl⟩ | ⟨a, rfl, rfl⟩ | hw
  · rw [encode_selectWrite]
    rcases toNat_eq_evenOffset_or a with ha | ha <;> rw [ha]
    · exact .inl rfl
    · exact .inr (by unfold writeWord; omega)
  · rw [encode_selectRead]
    rcases toNat_eq_evenOffset_or a with ha | ha <;> rw [ha]
    · exact .inl rfl
    · exact .inr (by unfold readWord; omega)
  · exact .inl hw

/-- Settles O3, by evaluating the decoder on each word. -/
theorem specCommandWordsDecode : Obligations.SpecCommandWordsDecode := by
  unfold Obligations.SpecCommandWordsDecode
  decide

end Sys2Proof.Machine
end

section
/-! SUPPORT. Port reads and the port acts of a CPU instruction (R230, R231, R104): what the operation that an offset
selects does, next to `exec_selectWrite`. -/

namespace Sys2Proof.Machine

/-! ## `PortRead` (R231) -/

@[simp] theorem getIo_evenOffset (m : Block) (a : Offset) : m.getIo (evenOffset a).toNat = m.getIo a.toNat := by
  have h : slot (evenOffset a).toNat = slot a.toNat := by rw [slot_eq_iff, evenOffset_toNat]; omega
  simp only [Block.getIo, h]

theorem portRead_of_count {a : Offset} {i : Fin 4} (h : Reg.ofOffset a = .tmL i) (m : Block) :
    m.portRead a = m.visible i := by
  rw [Block.portRead, h]

theorem portRead_of_stored {a : Offset} (h : ∀ i, Reg.ofOffset a ≠ .tmL i) (m : Block) :
    m.portRead a = m.getIo a.toNat := by
  unfold Block.portRead
  split
  case h_1 i hi => exact absurd hi (h i)
  all_goals rfl

theorem portRead_evenOffset (m : Block) (a : Offset) : m.portRead (evenOffset a) = m.portRead a := by
  simp only [Block.portRead, ofOffset_evenOffset, getIo_evenOffset]

theorem exec_countRead (i : Fin 4) (s : State) :
    exec (countRead i) s = .next (returnValue (tmBase i) (s.m.visible i) s) := by
  fin_cases i <;> rfl

/-- The read operation that an offset selects completes, and hands out `PortRead` at that offset (R91, R231). -/
theorem exec_selectRead_eq (a : Offset) (s : State) :
    exec (selectRead a) s = .next (returnValue (evenOffset a).toNat (s.m.portRead a) s) := by
  rcases selectRead_cases a with ⟨i, hi, h⟩ | ⟨hn, h⟩ <;> rw [h]
  · rw [exec_countRead, portRead_of_count hi, (ofOffset_eq_tmL_iff a i).mp hi]
  · change execRStored (evenOffset a) s = _
    rw [execRStored, if_pos (storedOffset_evenOffset hn), portRead_of_stored hn, getIo_evenOffset]

/-! ## The port acts of a CPU instruction (R104) -/

theorem runOp_w16 {a : BitVec 16} (h : a.toNat < 0x400) (v : Half) (s : State) :
    runOp (.w16 a v) s = exec (selectWrite (a.setWidth 10) v) s := by
  rw [exec_selectWrite, runOp, if_pos h]

theorem runOp_r16 {a : BitVec 16} (h : a.toNat < 0x400) (s : State) :
    runOp (.r16 a) s = andThen (exec (selectRead (a.setWidth 10)) s) fun t =>
      .next (t.see ((s.m.portRead (a.setWidth 10)).setWidth 32)) := by
  rw [exec_selectRead_eq, runOp, if_pos h]; rfl

theorem runOp_port_outOfRange {a : BitVec 16} (h : 0x400 ≤ a.toNat) (v : Half) (s : State) :
    runOp (.w16 a v) s = .refused .offsetOutOfRange ∧ runOp (.r16 a) s = .refused .offsetOutOfRange := by
  simp only [runOp, if_neg (Nat.not_lt.mpr h), and_self]

/-- Settles O4: a port operation does what its offset selects and depends on the even offset alone, and the CPU's port acts
are port operations or refused. -/
theorem portOperationIsTheOneItsOffsetSelects : Obligations.PortOperationIsTheOneItsOffsetSelects := by
  refine ⟨fun a v s => ⟨(exec_selectWrite a v s).symm, exec_selectRead_eq a s, ?_, ?_, ?_⟩, fun a v s =>
    ⟨fun h => ⟨runOp_w16 h v s, ?_⟩, fun h => runOp_port_outOfRange h v s⟩⟩
  · rw [← selectWrite_evenOffset (a ||| 1), evenOffset_or_one]; rfl
  · rw [← selectRead_evenOffset (a ||| 1), evenOffset_or_one]; rfl
  · rw [← portRead_evenOffset _ (a ||| 1), evenOffset_or_one]; rfl
  · rw [runOp_r16 h, exec_selectRead_eq]; rfl

end Sys2Proof.Machine
end

section
/-! SUPPORT. The horizon, an accounted span and a sub-step (R123 to R126), said of the operations themselves. -/

namespace Sys2Proof.Machine

/-! ## The horizon (R123) -/

/-- The countdowns are the video's, every free-running timer's, a queued DMA cost and a pending latch's. -/
theorem mem_countdowns_iff {m : Block} {c : Nat} : c ∈ m.countdowns ↔
    c = modeLen m.video.mode - m.video.cim ∨ (∃ i, freeRunning i (m.timer i) = true ∧ c = (m.timer i).ticks) ∨
      (0 < m.dmaStall ∧ c = m.dmaStall) ∨ m.latch = .pending c := by
  constructor
  · intro h
    simp only [Block.countdowns, List.mem_append, List.mem_map, List.mem_filter, List.mem_singleton] at h
    rcases h with ((h | ⟨i, ⟨-, hi⟩, h⟩) | h) | h
    · exact .inl h
    · exact .inr (.inl ⟨i, hi, h.symm⟩)
    · split at h
      · exact .inr (.inr (.inl ⟨by assumption, List.mem_singleton.mp h⟩))
      · cases h
    · split at h
      case h_1 k hk => exact .inr (.inr (.inr (List.mem_singleton.mp h ▸ hk)))
      all_goals cases h
  · rintro (rfl | ⟨i, hi, rfl⟩ | ⟨h, rfl⟩ | h)
    · exact video_mem_countdowns m
    · exact timer_mem_countdowns hi
    · exact stall_mem_countdowns h
    · exact latch_mem_countdowns h

theorem modeLen_le (mode : Mode) : modeLen mode ≤ LINE_CYCLES := by cases mode <;> decide

/-- Settles O46: the horizon is the least countdown, and the video's is at most a line. -/
theorem horizonIsTheLeastCountdown : Obligations.HorizonIsTheLeastCountdown := by
  intro cfg m hm
  obtain ⟨h, hh, hmem, hle⟩ := horizon_spec m
  have hvideo := hle _ (video_mem_countdowns m)
  refine ⟨h, hh, countdowns_pos hm h hmem, ?_, hvideo, fun i hi => hle _ (timer_mem_countdowns hi),
    fun hd => hle _ (stall_mem_countdowns hd), fun k hk => hle _ (latch_mem_countdowns hk),
    mem_countdowns_iff.mp hmem⟩
  exact hvideo.trans ((Nat.sub_le _ _).trans (modeLen_le _))

/-! ## Accounting and the sub-step (R124, R125) -/

theorem capped_eq_min {m : Block} {h : Nat} (hh : m.horizon = some h) (n : Nat) : m.capped n = min h n := by
  rw [Block.capped, hh]

/-- Accounting is a sub-step to the horizon or the end of the span, and the accounting of the rest (R124). -/
theorem account_eq_subStep {n h : Nat} {src : Source} {s : State} (hs : s.m.Inv s.cfg) (hn : 1 ≤ n)
    (hh : s.m.horizon = some h) :
    account n src s = andThen (subStep (min h n) src s) (account (n - min h n) src) := by
  obtain ⟨r, rfl⟩ : ∃ r, n = r + 1 := ⟨n - 1, by omega⟩
  have hpos := capped_pos hs hn
  rw [← capped_eq_min hh]
  show accountLoop src (r + 1) (r + 1) s = _
  simp only [accountLoop]
  rw [if_neg (by omega)]
  exact andThen_congr fun t ht =>
    accountLoop_fuel (subStep_elapsed hs (capped_spec s.m (r + 1)).1 ht).inv (by omega) (Nat.le_refl _)

theorem Latch.advance_of_not_pending {l : Latch} (h : ∀ k, l ≠ .pending k) (n : Nat) : l.advance n = l := by
  cases l with
  | idle | delivered => rfl
  | pending k => exact absurd rfl (h k)

theorem freeRunning_iff {i : Fin 4} {t : Timer} :
    freeRunning i t = true ↔ t.running = true ∧ ¬(i ≠ 0 ∧ t.cascade = true) := by
  simp [freeRunning, casc, or_iff_not_imp_left]

/-- Settles O51: the first step of a sub-step is `Block.advance`, and the others follow it in the order of R125. -/
theorem accountingRunsSubStepsInOrder : Obligations.AccountingRunsSubStepsInOrder := by
  refine ⟨fun n h src s hs hn hh => account_eq_subStep hs hn hh, fun src s => rfl, fun n src s =>
    ⟨s.onBlock fun m => m.advance n src, rfl, rfl, fun i => ?_, fun k hk => ?_, fun hk => ?_, rfl, rfl, ?_⟩⟩
  · rw [onBlock_m, advance_timer, Timer.advance]
    simp only [freeRunning_iff]
  · rw [onBlock_m, advance_latch, hk]; rfl
  · exact Latch.advance_of_not_pending hk n
  · unfold subStep videoStep videoEdge
    cases (s.onBlock fun m => m.advance n src).m.video.mode <;> rfl

/-- Settles O37: the event is the identity (R126). -/
theorem dmaCompletionChangesNothing : Obligations.DmaCompletionChangesNothing := fun _ => rfl

end Sys2Proof.Machine
end

section
/-! SUPPORT. How a pass ends (R130), and what a pass does with the CPU and a queued DMA cost (R121, R126, R127). -/

namespace Sys2Proof.Machine

/-! ## The end of a pass (R130) -/

@[simp] theorem applyTimer_pending (i : Fin 4) (ctl reload : Half) (t : Timer) :
    (applyTimer i ctl reload t).pending = false := by
  unfold applyTimer
  simp only
  split
  case h_1 | h_2 | h_4 => rfl
  case h_3 => split <;> rfl

/-- The apply of one timer completes and changes that timer alone, whose mark is then clear. -/
theorem applyPending_eq (i : Fin 4) (s : State) :
    ∃ t : Timer, applyPending i s = .next (s.onBlock fun m => m.setTimer i t) ∧ t.pending = false := by
  unfold applyPending
  split
  · exact ⟨_, rfl, applyTimer_pending i _ _ _⟩
  · refine ⟨s.m.timer i, ?_, Bool.eq_false_of_not_eq_true (by assumption)⟩
    simp only [State.onBlock, setTimer_self]

/-- No timer's control write waits. -/
def Block.nonePending (m : Block) : Prop := ∀ i, (m.timer i).pending = false

/-- The end of a pass completes and changes the timers alone, of which none then waits. -/
theorem endOfPass_eq (s : State) : ∃ timers,
    endOfPass s = .next (s.onBlock fun m => { m with timers := timers }) ∧
    Block.nonePending { s.m with timers := timers } := by
  obtain ⟨t0, h0, p0⟩ := applyPending_eq 0 s
  obtain ⟨t1, h1, p1⟩ := applyPending_eq 1 (s.onBlock fun m => m.setTimer 0 t0)
  obtain ⟨t2, h2, p2⟩ := applyPending_eq 2 ((s.onBlock fun m => m.setTimer 0 t0).onBlock fun m => m.setTimer 1 t1)
  obtain ⟨t3, h3, p3⟩ := applyPending_eq 3
    (((s.onBlock fun m => m.setTimer 0 t0).onBlock fun m => m.setTimer 1 t1).onBlock fun m => m.setTimer 2 t2)
  refine ⟨((((s.m.setTimer 0 t0).setTimer 1 t1).setTimer 2 t2).setTimer 3 t3).timers, ?_, fun i => ?_⟩
  · rw [endOfPass, h0, andThen_next, h1, andThen_next, h2, andThen_next, h3]; rfl
  · show ((((((s.m.setTimer 0 t0).setTimer 1 t1).setTimer 2 t2).setTimer 3 t3)).timer i).pending = false
    fin_cases i <;> simp [timer_setTimer, p0, p1, p2, p3]

theorem endOfPass_of_nonePending {s : State} (h : s.m.nonePending) : endOfPass s = .next s := by
  simp [endOfPass, applyPending, h _]

theorem endOfPass_nonePending {s t : State} (h : endOfPass s = .next t) : t.m.nonePending := by
  obtain ⟨timers, ht, hp⟩ := endOfPass_eq s
  rw [ht] at h; injection h with h; subst h
  exact hp

theorem endOfPass_dmaStall {s t : State} (h : endOfPass s = .next t) : t.m.dmaStall = s.m.dmaStall := by
  obtain ⟨timers, ht, -⟩ := endOfPass_eq s
  rw [ht] at h; injection h with h; subst h
  rfl

/-! ## The DMA cost over an accounted span (R126) -/

theorem completionStep_eq (src : Source) (s : State) : completionStep src s = .next s := by
  unfold completionStep; split <;> rfl

/-- Whatever its source, a sub-step takes at most its own cycles off the DMA cost. -/
theorem subStep_stall_ge {n : Nat} {src : Source} {s t : State} (h : subStep n src s = .next t) :
    s.m.dmaStall - n ≤ t.m.dmaStall := by
  obtain ⟨u, hu, h⟩ := andThen_eq_next.mp h
  rw [completionStep_eq, andThen_next] at h
  obtain ⟨w, hw, h⟩ := andThen_eq_next.mp h
  have advance : s.m.dmaStall - n ≤ (s.m.advance n src).dmaStall := by
    show _ ≤ if src = .stall then s.m.dmaStall - n else s.m.dmaStall
    split <;> omega
  have video : (s.m.advance n src).dmaStall ≤ u.m.dmaStall := by
    unfold videoStep at hu
    split at hu
    · exact (videoEdge_effect hu).stall
    · injection hu with hu; subst hu; exact Nat.le_refl _
  calc s.m.dmaStall - n ≤ (s.m.advance n src).dmaStall := advance
    _ ≤ u.m.dmaStall := video
    _ ≤ w.m.dmaStall := (timerStep_effect hw).1.stall
    _ ≤ t.m.dmaStall := (irqCheck_effect h).1.stall

theorem accountLoop_stall_ge {src : Source} {fuel rem : Nat} {s t : State}
    (h : accountLoop src fuel rem s = .next t) : s.m.dmaStall - rem ≤ t.m.dmaStall := by
  induction fuel generalizing rem s with
  | zero =>
    cases rem with
    | zero => injection h with h; subst h; exact Nat.le_refl _
    | succ r => cases h
  | succ fuel ih =>
    cases rem with
    | zero => injection h with h; subst h; exact Nat.le_refl _
    | succ r =>
      simp only [accountLoop] at h
      split at h
      · cases h
      · obtain ⟨u, hu, h⟩ := andThen_eq_next.mp h
        have first := subStep_stall_ge hu
        have rest := ih h
        have := (capped_spec s.m (r + 1)).2
        omega

/-! ## Passes without an instruction of the CPU (R121, R127) -/

theorem onePass_of_stall {left : Nat} {s : State} (h : 0 < s.m.dmaStall) :
    onePass left s = andThen (account (min s.m.dmaStall left) .stall s) (finishPass (min s.m.dmaStall left)) := by
  rw [onePass, if_pos h]

theorem onePass_of_halt {left h : Nat} {s : State} (h0 : s.m.dmaStall = 0) (hc : s.cpu.halted = true)
    (hh : s.m.horizon = some h) :
    onePass left s = andThen (account (min h left) .halt s) (finishPass (min h left)) := by
  rw [onePass, if_neg (by omega), if_pos hc, hh]

/-- An accounted span and the end of the pass: the pass says how long it was and executed nothing. -/
theorem finishPass_after_account {n : Nat} {src : Source} {s t : State} {e : PassEnd} (hs : s.m.Inv s.cfg)
    (h : andThen (account n src s) (finishPass n) = .next (t, e)) : ∃ u, account n src s = .next u ∧ e = .ran n ∧
      (t.cpu = s.cpu ∨ t.cpu = s.cpu.vector) ∧ t.m.cycleCounter = s.m.cycleCounter + n ∧
      t.m.dmaStall = u.m.dmaStall := by
  obtain ⟨u, hu, h⟩ := andThen_eq_next.mp h
  obtain ⟨v, hv, h⟩ := andThen_eq_next.mp h
  injection h with h; injection h with ht he; subst ht
  have elapsed := account_elapsed hs hu
  exact ⟨u, hu, he.symm, ((account_kept hu).trans (endOfPass_kept hv)).cpu,
    (elapsed.trans (endOfPass_elapsed elapsed.inv hv)).cycleCounter, endOfPass_dmaStall hv⟩

/-- Settles O48: a stall pass is an accounted span and the applies that wait, neither of which runs the CPU; a sub-step
takes its own cycles off the cost, and exactly those where no trigger can add to it. -/
theorem stallPassDoesNotStepTheCpu : Obligations.StallPassDoesNotStepTheCpu := by
  intro left s t e hs _ hd h
  rw [onePass_of_stall hd] at h
  obtain ⟨u, hu, he, hcpu, hcc, hstall⟩ := finishPass_after_account hs h
  refine ⟨he, hcpu, hcc, hstall ▸ accountLoop_stall_ge hu, fun ha => ?_⟩
  obtain ⟨v, hv, -, -, hexact⟩ := account_quiet (src := .stall) (n := min s.m.dmaStall left) hs ha
  rw [hu] at hv; injection hv with hv; subst hv
  rw [hstall, hexact, if_pos rfl]

/-- Settles O49: so is a halt pass, to the horizon or the end of the budget. -/
theorem haltPassDoesNotStepTheCpu : Obligations.HaltPassDoesNotStepTheCpu := by
  intro left h s t e hs _ h0 hc hh hp
  rw [onePass_of_halt h0 hc hh] at hp
  obtain ⟨u, -, he, hcpu, hcc, -⟩ := finishPass_after_account hs hp
  exact ⟨he, hcpu, hcc⟩

end Sys2Proof.Machine
end

section
/-! SUPPORT. A `RUN` turn by turn (R120): its first pass and the `RUN` of what is left, and, since the ends of passes
show in the applies alone, its first turn: a stall, a halt or one instruction of the CPU. -/

namespace Sys2Proof.Machine

/-! ## The first pass -/

/-- What a `RUN` does after a pass or a burst (R120): it goes on where that ran some cycles, and else ends. -/
def resume (go : Nat → State → Res State) : State × PassEnd → Res State
  | (s, .ran n) => go n s
  | (s, .fatalTrap) => .next { s with result := .fatalTrap }
  | (s, .earlyExit) => .next { s with result := .earlyExit }

/-- Under the invariant a `RUN` is its first pass and the `RUN` of what is left (R120). -/
theorem execRun_eq_pass {left : Nat} {s : State} (hs : s.m.Inv s.cfg) (hl : 1 ≤ left) :
    execRun left s = andThen (onePass left s) (resume fun n => execRun (left - n)) := by
  obtain ⟨r, rfl⟩ : ∃ r, left = r + 1 := ⟨left - 1, by omega⟩
  refine andThen_congr fun ⟨t, e⟩ ht => ?_
  have ends := pass_ends hs hl ht
  cases e with
  | ran n =>
    obtain ⟨k, hk, hn, helapsed⟩ := ends
    exact runLoop_fuel helapsed.inv (by omega) (Nat.le_refl _)
  | fatalTrap | earlyExit => rfl

/-- What a turn is followed by: the applies that wait, and the `RUN` of what is left. -/
def goOn (budget n : Nat) (s : State) : Res State := andThen (endOfPass s) (execRun (budget - n))

/-- The applies one by one, in index order (R130). -/
theorem goOn_eq_applies (budget n : Nat) : goOn budget n = fun s =>
    andThen (applyPending 0 s) fun s => andThen (applyPending 1 s) fun s => andThen (applyPending 2 s) fun s =>
      andThen (applyPending 3 s) fun s => execRun (budget - n) s := by
  funext s
  simp only [goOn, endOfPass, andThen_assoc]

theorem finishPass_resume (budget n : Nat) (s : State) :
    andThen (finishPass n s) (resume fun n => execRun (budget - n)) = goOn budget n s := by
  rw [finishPass, andThen_assoc]; rfl

theorem goOn_of_nonePending {budget n : Nat} {s : State} (h : s.m.nonePending) :
    goOn budget n s = execRun (budget - n) s := by
  rw [goOn, endOfPass_of_nonePending h, andThen_next]

/-! ## The first turn of each kind -/

theorem execRun_of_stall {budget : Nat} {s : State} (hs : s.m.Inv s.cfg) (hb : 1 ≤ budget) (hd : 0 < s.m.dmaStall) :
    execRun budget s =
      andThen (account (min s.m.dmaStall budget) .stall s) (goOn budget (min s.m.dmaStall budget)) := by
  rw [execRun_eq_pass hs hb, onePass_of_stall hd, andThen_assoc]
  exact andThen_congr fun t _ => finishPass_resume _ _ t

theorem execRun_of_halt {budget h : Nat} {s : State} (hs : s.m.Inv s.cfg) (hb : 1 ≤ budget) (hd : s.m.dmaStall = 0)
    (hc : s.cpu.halted = true) (hh : s.m.horizon = some h) :
    execRun budget s = andThen (account (min h budget) .halt s) (goOn budget (min h budget)) := by
  rw [execRun_eq_pass hs hb, onePass_of_halt hd hc hh, andThen_assoc]
  exact andThen_congr fun t _ => finishPass_resume _ _ t

/-- One instruction of the CPU, and what follows it: the fetch, its acts, the fatal end at cost 0, the evaluation of the
latch, the accounting of its cost. -/
def cpuTurn (budget : Nat) (s : State) : Res State :=
  andThen (execEvInsnFetch s) fun s =>
  andThen (executeOne s) fun (s, c) =>
    if c = 0 then .next { s with result := .fatalTrap } else andThen (account c .cpu (irqEval s)) (goOn budget c)

/-- A `RUN` that begins with a burst: the applies at the end of the pass follow it, and the `RUN` of what is left. -/
theorem execRun_eq_burst {budget : Nat} {s : State} (hs : s.m.Inv s.cfg) (hb : 1 ≤ budget) (hd : s.m.dmaStall = 0)
    (hc : s.cpu.halted = false) : execRun budget s = andThen (burst (s.m.capped budget) s) (resume (goOn budget)) := by
  rw [execRun_eq_pass hs hb, onePass, if_neg (by omega), if_neg (by rw [hc]; decide), andThen_assoc]
  refine andThen_congr fun ⟨t, e⟩ _ => ?_
  cases e with
  | ran n => exact finishPass_resume _ _ t
  | fatalTrap | earlyExit => rfl

/-- Where a burst goes on, no cost is queued, the CPU is not halted and no apply waits (R122). -/
theorem burstBreak_eq_false {s : State} (h : burstBreak s = false) :
    s.m.dmaStall = 0 ∧ s.cpu.halted = false ∧ s.m.nonePending := by
  simp only [burstBreak, Bool.or_eq_false_iff, decide_eq_false_iff_not, Nat.not_lt, Nat.le_zero] at h
  obtain ⟨⟨hd, hc⟩, ⟨⟨h0, h1⟩, h2⟩, h3⟩ := h
  refine ⟨hd, hc, fun i => ?_⟩
  fin_cases i
  · exact h0
  · exact h1
  · exact h2
  · exact h3

/-- A burst and what follows it is one instruction and what follows that, wherever the burst's target lies within the
budget: from instruction to instruction no apply waits, so that a pass that ended there would change nothing. -/
theorem burstLoop_eq_cpuTurn {left target fuel consumed budget : Nat} {s : State} (hs : s.m.Inv s.cfg)
    (hleft : budget - consumed ≤ left) (htarget : consumed < target) (hbudget : target ≤ budget)
    (hfuel : target ≤ consumed + fuel) :
    andThen (burstLoop target fuel consumed s) (resume (goOn budget)) = cpuTurn (budget - consumed) s := by
  induction left generalizing target fuel consumed budget s with
  | zero => omega
  | succ left ih =>
    obtain ⟨f, rfl⟩ : ∃ f, fuel = f + 1 := ⟨fuel - 1, by omega⟩
    simp only [burstLoop, cpuTurn, andThen_assoc]
    refine andThen_congr fun u hu => andThen_congr fun ⟨v, c⟩ hv => ?_
    simp only
    split
    · rfl
    rw [andThen_assoc]
    refine andThen_congr fun w hw => ?_
    have fetched := insnFetch_elapsed hs hu
    have executed := executeOne_elapsed fetched.inv hv
    have accounted := account_elapsed ((PortEffect.irqEval v).elapsed executed.inv).inv hw
    split
    · show goOn budget (consumed + c) w = goOn (budget - consumed) c w
      rw [goOn, goOn, Nat.sub_sub]
    · rename_i hc hgo
      simp only [Bool.or_eq_true, decide_eq_true_eq, not_or, Bool.not_eq_true] at hgo
      obtain ⟨hlt, hbreak⟩ := hgo
      obtain ⟨hd, hh, hp⟩ := burstBreak_eq_false hbreak
      have hcap := (capped_spec w.m (budget - consumed - c)).2
      have hpos := capped_pos accounted.inv (n := budget - consumed - c) (by omega)
      calc andThen (burstLoop target f (consumed + c) w) (resume (goOn budget))
          = cpuTurn (budget - consumed - c) w := by
            rw [ih accounted.inv (by omega) (by omega) hbudget (by omega), Nat.sub_sub]
        _ = andThen (burst (w.m.capped (budget - consumed - c)) w) (resume (goOn (budget - consumed - c))) :=
            (ih (consumed := 0) accounted.inv (by omega) hpos hcap (Nat.le_of_eq (Nat.zero_add _).symm)).symm
        _ = execRun (budget - consumed - c) w := (execRun_eq_burst accounted.inv (by omega) hd hh).symm
        _ = goOn (budget - consumed) c w := (goOn_of_nonePending hp).symm

/-- With no cost queued and the CPU not halted the first turn of a `RUN` is one instruction (R122). -/
theorem execRun_of_cpu {budget : Nat} {s : State} (hs : s.m.Inv s.cfg) (hb : 1 ≤ budget) (hd : s.m.dmaStall = 0)
    (hc : s.cpu.halted = false) : execRun budget s = cpuTurn budget s := by
  rw [execRun_eq_burst hs hb hd hc, burst, burstLoop_eq_cpuTurn hs (Nat.le_refl _) (capped_pos hs hb)
    (capped_spec s.m budget).2 (by omega), Nat.sub_zero]

/-! ## The acts of an instruction (R104, log entries 1 and 2) -/

theorem test_holds_iff {t : Test} {c : Cpu} : t.holds c = true ↔ c.seen.getD t.back 0 &&& t.mask = t.value := by
  simp [Test.holds]

theorem startAccess_cfg (s : State) : s.startAccess.cfg = s.cfg := arrive_cfg _ _

/-- A write of the CPU in the turn of `mem`: outside the window a turn that answers loses it. -/
theorem runOp_write (w : Width) (a : Addr) (v : BitVec 32) (s : State) : runOp (.write w a v) s =
    andThen (if windowOffset s.cfg (w.align a) = none ∧ s.turn.answer ≠ none then .next s.startAccess
      else memWrite w a v s.startAccess) fun u => .next (arrive s.turn.after u) := by
  show andThen (match s.turn.answerAt s.startAccess.cfg w a with
    | some _ => .next s.startAccess
    | none => memWrite w a v s.startAccess) _ = _
  rw [startAccess_cfg, BusTurn.answerAt]
  cases windowOffset s.cfg (w.align a) <;> cases s.turn.answer <;> rfl

theorem memRead_outside {w : Width} {a : Addr} {s : State} (h : windowOffset s.cfg (w.align a) = none) :
    memRead w a s = s.mem.read (w.align a) w.bytes := by
  simp only [memRead, h]

theorem memWrite_outside {w : Width} {a : Addr} {s : State} (h : windowOffset s.cfg (w.align a) = none)
    (v : BitVec 32) : memWrite w a v s = .next { s with mem := s.mem.write (w.align a) v w.bytes } := by
  simp only [memWrite, memWriteWith, h]

theorem memRead_half_window {a : Addr} {o : Offset} {s : State} (h : windowOffset s.cfg (Width.half.align a) = some o) :
    memRead .half a s = (s.m.portRead o).setWidth 32 := by
  simp only [memRead, h]

theorem memWrite_half_window {a : Addr} {o : Offset} {s : State} (h : windowOffset s.cfg (Width.half.align a) = some o)
    (v : BitVec 32) : memWrite .half a v s = portWrite o (v.extractLsb' 0 16) s := by
  simp only [memWrite, memWriteWith, h, portWrite, BitVec.setWidth_eq_extractLsb' (show 16 ≤ 32 by decide)]

theorem runOp_jump (t : Test) (n : Nat) (s : State) : runOp (.jump t n) s = .next { s with cpu := { s.cpu with
    script := if s.cpu.seen.getD t.back 0 &&& t.mask = t.value then s.cpu.script.drop n else s.cpu.script } } := by
  simp only [runOp, test_holds_iff]
  split <;> rfl

/-- The latch after an evaluation, written out (R154). -/
theorem irqEval_eq_latch (s : State) : irqEval s = { s with m := { s.m with
    latch := if s.m.latch = .idle ∧ s.m.deliverable s.cpu.irqEnabled = true then .pending 7 else s.m.latch } } := by
  rw [irqEval, State.onBlock, irqEval_eq, irqEval_latch]

/-- Settles O52. The turn of an instruction is `cpuTurn`, by induction on what is left of the budget; the acts are
evaluated one by one. -/
theorem runIsItsFirstTurnAndTheRest : Obligations.RunIsItsFirstTurnAndTheRest := by
  refine ⟨fun budget s hs hb => ⟨fun hd => ?_, fun h hd hc hh => ?_, fun hd hc => ?_⟩, fun op ops skip cost s =>
    ⟨rfl, rfl, ?_⟩, fun w a v b on t n s => ⟨rfl, runOp_write w a v s,
      fun h => ⟨memRead_outside h, memWrite_outside h v⟩,
      fun o h => ⟨memRead_half_window h, memWrite_half_window h v⟩, rfl, rfl, rfl, runOp_jump t n s, rfl, rfl⟩⟩
  · exact (execRun_of_stall hs hb hd).trans (by rw [goOn_eq_applies]; rfl)
  · exact (execRun_of_halt hs hb hd hc hh).trans (by rw [goOn_eq_applies]; rfl)
  · refine (execRun_of_cpu hs hb hd hc).trans (andThen_congr fun f _ => andThen_congr fun ⟨u, c⟩ _ => ?_)
    show (if c = 0 then _ else andThen (account c .cpu (irqEval u)) (goOn budget c)) = _
    rw [irqEval_eq_latch, goOn_eq_applies]; rfl
  · cases op <;> simp [runOps, CpuOp.skips, CpuOp.price, test_holds_iff]

end Sys2Proof.Machine
end

section
/-! SUPPORT. What a whole `RUN` does under the invariant: how it ends (R129, R131), that it never stops for want of
progress (R132), and that an idle CPU's takes exactly its budget (R120). -/

namespace Sys2Proof.Machine

/-! ## The fatal trap (R129) -/

/-- The state after an instruction fetch, written out (R156). -/
theorem leaveDelivered_eq (m : Block) :
    leaveDelivered m = { m with latch := if m.latch = .delivered then .idle else m.latch } := by
  unfold leaveDelivered; split <;> rfl

/-- Settles O50: the first turn is the instruction, and it ends at its cost 0. -/
theorem fatalTrapEndsTheRun : Obligations.FatalTrapEndsTheRun := by
  intro budget cost ops rest s u hs hb hd hc hscript hrun
  show execRun budget s = _
  have fetch : execEvInsnFetch s = .next { s with
      m := { s.m with latch := if s.m.latch = .delivered then .idle else s.m.latch } } := by
    rw [execEvInsnFetch, State.onBlock, leaveDelivered_eq]
  rw [execRun_of_cpu hs hb hd hc, cpuTurn, fetch, andThen_next, executeOne, hscript]
  exact congrArg (fun r => andThen r _) hrun

/-! ## No fault (R132) -/

theorem execRun_no_fault {budget : Nat} {s : State} (hs : s.m.Inv s.cfg) (e : Fault) :
    execRun budget s ≠ .fault e := by
  induction budget using Nat.strong_induction_on generalizing s with
  | _ budget ih =>
    rcases Nat.eq_zero_or_pos budget with rfl | hb
    · intro h; cases h
    rw [execRun_eq_pass hs hb]
    intro h
    rcases andThen_eq_fault.mp h with h | ⟨⟨t, pe⟩, ht, h⟩
    · exact pass_no_fault hs hb e h
    have ends := pass_ends hs hb ht
    cases pe with
    | ran n =>
      obtain ⟨k, hk, hn, elapsed⟩ := ends
      exact ih (budget - n) (by omega) elapsed.inv h
    | fatalTrap | earlyExit => cases h

theorem execExtIrq_no_fault (b : BitVec 4) (s : State) (e : Fault) : execExtIrq b s ≠ .fault e := by
  unfold execExtIrq; split <;> (intro h; cases h)

theorem execLoad_no_fault (s : State) (e : Fault) : execLoad s ≠ .fault e := by
  unfold execLoad; split_ifs <;> (intro h; cases h)

/-- Under the invariant no operation that a command word stands for faults, the scheduler's own events apart. -/
theorem exec_no_fault_of_decoded {w : Nat} {i : Instr} {s : State} (hs : s.m.Inv s.cfg) (hw : decode w = .ok i)
    (hi : isEvent i = false) (e : Fault) : exec i s ≠ .fault e := by
  rcases decode_cases hw with ⟨a, v, rfl⟩ | ⟨a, rfl⟩ | he | rfl | ⟨n, rfl⟩ | ⟨b, rfl⟩ | rfl | rfl
  · rw [exec_selectWrite]; exact portWrite_no_fault a v s e
  · rw [exec_selectRead_eq]; exact nofun
  · rw [he] at hi; cases hi
  · exact nofun
  · exact execRun_no_fault hs e
  · exact execExtIrq_no_fault b s e
  · exact nofun
  · exact execLoad_no_fault s e

/-- Settles O57: the command taken off the queue is none of the scheduler's events, and of the others only `RUN` has
loops that could want for progress; each of its passes accounts a cycle. -/
theorem stepNeverFaults : Obligations.StepNeverFaults := by
  intro s e hs h
  unfold step at h
  split at h
  case h_1 => cases h
  case h_2 w rest hq =>
    split at h
    case h_1 i hw =>
      exact exec_no_fault_of_decoded (hs.pop hq).m hw (hs.commands w (hq ▸ List.mem_cons_self) i hw) e h
    case h_2 => cases h

/-! ## The budget used up (R120, R131) -/

/-- A pass that ran leaves no timer's write waiting. -/
theorem onePass_ran_nonePending {left n : Nat} {s t : State} (h : onePass left s = .next (t, .ran n)) :
    t.m.nonePending := by
  have finish : ∀ {k : Nat} {u : State}, finishPass k u = .next (t, .ran n) → t.m.nonePending := by
    intro k u h
    obtain ⟨v, hv, h⟩ := andThen_eq_next.mp h
    injection h with h; injection h with h; subst h
    exact endOfPass_nonePending hv
  unfold onePass at h
  split at h
  · obtain ⟨u, -, h⟩ := andThen_eq_next.mp h
    exact finish h
  split at h
  · split at h
    · cases h
    · obtain ⟨u, -, h⟩ := andThen_eq_next.mp h
      exact finish h
  · obtain ⟨⟨u, e⟩, -, h⟩ := andThen_eq_next.mp h
    cases e with
    | ran k => exact finish h
    | fatalTrap | earlyExit => cases h

/-- A run that used up its budget accounted at least that, and where it made a pass none waits. -/
theorem execRun_exhausted {budget : Nat} {s t : State} (hs : s.m.Inv s.cfg) (h : execRun budget s = .next t)
    (hr : t.result = .budgetExhausted) : s.m.cycleCounter + budget ≤ t.m.cycleCounter ∧
      (1 ≤ budget ∨ s.m.nonePending → t.m.nonePending) := by
  induction budget using Nat.strong_induction_on generalizing s with
  | _ budget ih =>
    rcases Nat.eq_zero_or_pos budget with rfl | hb
    · injection h with h; subst h
      exact ⟨Nat.le_refl _, fun hp => hp.resolve_left (by decide)⟩
    rw [execRun_eq_pass hs hb] at h
    obtain ⟨⟨u, e⟩, hu, h⟩ := andThen_eq_next.mp h
    have ends := pass_ends hs hb hu
    cases e with
    | ran n =>
      obtain ⟨k, hk, hn, elapsed⟩ := ends
      obtain ⟨hcc, hp⟩ := ih (budget - n) (by omega) elapsed.inv h
      have := elapsed.cycleCounter
      exact ⟨by omega, fun _ => hp (.inr (onePass_ran_nonePending hu))⟩
    | fatalTrap => injection h with h; subst h; cases hr
    | earlyExit => exact ends.elim

/-- Settles O53: every pass accounts at least one cycle and ends with the applies. -/
theorem runAccountsItsBudget : Obligations.RunAccountsItsBudget := by
  refine ⟨fun s => rfl, fun budget s t hs hb h hr => ?_⟩
  obtain ⟨hcc, hp⟩ := execRun_exhausted hs h hr
  exact ⟨hcc, hp (.inl hb)⟩

/-! ## An idle CPU (R104, R120) -/

/-- No channel is armed, the script is at its end, and interrupts are vectored to no instructions. -/
structure State.Idle (s : State) : Prop where
  inv : s.m.Inv s.cfg
  noneArmed : s.m.noneArmed
  script : s.cpu.script = []
  handlers : ∀ e ∈ s.cpu.entries, e.handler = []

/-- `n` cycles in which nothing but time's own effects shows: the DMA cost has not grown either. -/
structure QuietSpan (n : Nat) (s t : State) : Prop where
  elapsed : Elapsed n s t
  quiet : Quiet s t
  stall : t.m.dmaStall ≤ s.m.dmaStall

theorem QuietSpan.trans {n k : Nat} {s t u : State} (h : QuietSpan n s t) (g : QuietSpan k t u) :
    QuietSpan (n + k) s u :=
  ⟨h.elapsed.trans g.elapsed, h.quiet.trans g.quiet, g.stall.trans h.stall⟩

theorem State.Idle.after {n : Nat} {s t : State} (hs : s.Idle) (h : QuietSpan n s t) : t.Idle := by
  obtain ⟨hscript, hentries⟩ := h.quiet.cpu.2 hs.handlers
  exact ⟨h.elapsed.inv, h.quiet.noneArmed hs.noneArmed, hscript.trans hs.script, hentries⟩

theorem account_quietSpan {n : Nat} {src : Source} {s : State} (hs : s.Idle) :
    ∃ t, account n src s = .next t ∧ QuietSpan n s t := by
  obtain ⟨t, ht, elapsed, quiet, hd⟩ := account_quiet (src := src) (n := n) hs.inv hs.noneArmed
  exact ⟨t, ht, elapsed, quiet, by rw [hd]; split <;> omega⟩

theorem endOfPass_quietSpan {s : State} (hs : s.Idle) : ∃ t, endOfPass s = .next t ∧ QuietSpan 0 s t := by
  obtain ⟨timers, ht, -⟩ := endOfPass_eq s
  exact ⟨_, ht, endOfPass_elapsed hs.inv ht, Quiet.ofEq rfl rfl rfl rfl rfl, Nat.le_refl _⟩

theorem insnFetch_quietSpan {s : State} (hs : s.Idle) : QuietSpan 0 s (s.onBlock leaveDelivered) := by
  refine ⟨insnFetch_elapsed hs.inv rfl, ?_, ?_⟩ <;> rw [State.onBlock, leaveDelivered_eq]
  exact Quiet.ofEq rfl rfl rfl rfl rfl

theorem irqEval_quietSpan {s : State} (hs : s.Idle) : QuietSpan 0 s (irqEval s) := by
  refine ⟨(PortEffect.irqEval s).elapsed hs.inv, ?_, ?_⟩ <;> rw [irqEval_eq_latch]
  exact Quiet.ofEq rfl rfl rfl rfl rfl

/-- A turn whose cycles are accounted, with its applies. -/
theorem goOn_quietSpan {budget n : Nat} {src : Source} {s : State} (hs : s.Idle) :
    ∃ t, QuietSpan n s t ∧ andThen (account n src s) (goOn budget n) = execRun (budget - n) t := by
  obtain ⟨u, hu, q⟩ := account_quietSpan (n := n) (src := src) hs
  obtain ⟨t, ht, q'⟩ := endOfPass_quietSpan (hs.after q)
  exact ⟨t, q.trans q', by rw [hu, andThen_next, goOn, ht, andThen_next]⟩

/-- Each turn of an idle CPU's `RUN` takes a cycle or more, and no more than the budget. -/
theorem execRun_idle_turn {budget : Nat} {s : State} (hs : s.Idle) (hb : 1 ≤ budget) :
    ∃ n t, 1 ≤ n ∧ n ≤ budget ∧ QuietSpan n s t ∧ execRun budget s = execRun (budget - n) t := by
  rcases Nat.eq_zero_or_pos s.m.dmaStall with hd | hd
  · cases hc : s.cpu.halted with
    | true =>
      obtain ⟨h, hh, hmem, -⟩ := horizon_spec s.m
      obtain ⟨t, q, ht⟩ := goOn_quietSpan (budget := budget) (n := min h budget) (src := .halt) hs
      exact ⟨_, t, le_min (countdowns_pos hs.inv h hmem) hb, min_le_right _ _, q,
        (execRun_of_halt hs.inv hb hd hc hh).trans ht⟩
    | false =>
      have q1 := insnFetch_quietSpan hs
      have fetched := hs.after q1
      have q2 := irqEval_quietSpan fetched
      obtain ⟨t, q3, ht⟩ := goOn_quietSpan (budget := budget) (n := 1) (src := .cpu) (fetched.after q2)
      refine ⟨1, t, Nat.le_refl _, hb, by simpa using (q1.trans q2).trans q3, ?_⟩
      have execute : executeOne (s.onBlock leaveDelivered) = .next (s.onBlock leaveDelivered, 1) := by
        rw [executeOne, fetched.script]
      rw [execRun_of_cpu hs.inv hb hd hc, cpuTurn, execEvInsnFetch, andThen_next, execute, andThen_next, ← ht]
      rfl
  · obtain ⟨t, q, ht⟩ := goOn_quietSpan (budget := budget) (n := min s.m.dmaStall budget) (src := .stall) hs
    exact ⟨_, t, le_min hd hb, min_le_right _ _, q, (execRun_of_stall hs.inv hb hd).trans ht⟩

/-- An idle CPU's `RUN` completes and takes exactly its budget. -/
theorem execRun_idle {budget : Nat} {s : State} (hs : s.Idle) :
    ∃ t, QuietSpan budget s t ∧ execRun budget s = .next { t with result := .budgetExhausted } := by
  induction budget using Nat.strong_induction_on generalizing s with
  | _ budget ih =>
    rcases Nat.eq_zero_or_pos budget with rfl | hb
    · exact ⟨s, ⟨Elapsed.refl hs.inv, Quiet.refl s, Nat.le_refl _⟩, rfl⟩
    obtain ⟨n, u, hn, hle, q, hu⟩ := execRun_idle_turn hs hb
    obtain ⟨t, q', ht⟩ := ih (budget - n) (by omega) (hs.after q)
    exact ⟨t, by simpa [Nat.add_sub_cancel' hle] using q.trans q', hu.trans ht⟩

/-- The tables are those of WAITCNT (R47 (h)), which no status entry is. -/
theorem QuietSpan.wt {n : Nat} {s t : State} (h : QuietSpan n s t) (hs : s.m.Inv s.cfg) : t.m.wt = s.m.wt := by
  rw [h.elapsed.inv.wt, hs.wt, h.elapsed.cfg, h.quiet.entries 0x204 (by decide) (by decide) (by decide)]

/-- Settles O54, turn by turn: an instruction of an idle CPU takes one cycle, and what it leaves alone the spans leave
alone. -/
theorem runOfAnIdleCpuTakesExactlyItsBudget : Obligations.RunOfAnIdleCpuTakesExactlyItsBudget := by
  intro budget s hm ha hscript hentries
  have hs : s.Idle := ⟨hm, ha, hscript, hentries⟩
  obtain ⟨t, q, ht⟩ := execRun_idle (budget := budget) hs
  have idle := hs.after q
  exact ⟨_, ht, rfl, q.elapsed.cycleCounter, idle.inv, idle.noneArmed, q.stall, idle.script, q.quiet.entries,
    fun b => congrArg (Memory.get · b) q.quiet.mem, q.quiet.dispstat, q.quiet.flags, q.quiet.cursors, q.wt hm,
    q.quiet.bus, q.quiet.cpu.1, q.elapsed.cfg, q.elapsed.queue, q.elapsed.file, q.elapsed.cartId⟩

end Sys2Proof.Machine
end

section
/-! SUPPORT. The operations that move no time (R120, R133): every operation but the scheduler's events, `RUN`, `RESET`
and `LOAD` is a port operation, an `EXT_IRQ` or a `SAVE`. -/

namespace Sys2Proof.Machine

/-- An operation with an operand that the spec gives no meaning is refused (R64, R157). -/
theorem exec_refused_of_not_wellFormed {i : Instr} (h : i.wellFormed = false) (s : State) :
    ∃ r, exec i s = .refused r := by
  unfold Instr.wellFormed at h
  split at h
  case h_1 a v => exact ⟨_, if_neg (by rw [h]; decide)⟩
  case h_2 a => exact ⟨_, if_neg (by rw [h]; decide)⟩
  case h_3 b => exact ⟨_, if_neg (of_decide_eq_false h)⟩
  all_goals cases h

/-- Such an operation that completes has the effect of a port operation, or is a `SAVE`. -/
theorem exec_portEffect_or_save {i : Instr} {s t : State} (he : isEvent i = false) (hreset : i ≠ .reset)
    (hload : i ≠ .load) (hrun : ∀ n, i ≠ .run n) (h : exec i s = .next t) : PortEffect s t ∨ i = .save := by
  have hwf : i.wellFormed = true := by
    refine (Bool.not_eq_false _).mp fun hwf => ?_
    obtain ⟨r, hr⟩ := exec_refused_of_not_wellFormed hwf s
    rw [hr] at h; cases h
  rcases decode_cases (decodeOfEncodeIsTheOperation i hwf) with
    ⟨a, v, rfl⟩ | ⟨a, rfl⟩ | hev | rfl | ⟨n, rfl⟩ | ⟨b, rfl⟩ | rfl | rfl
  · rw [exec_selectWrite] at h
    exact .inl (portWrite_effect h)
  · obtain ⟨e, rfl⟩ := exec_selectRead h
    exact .inl (PortEffect.emit s e)
  · rw [hev] at he; cases he
  · exact absurd rfl hreset
  · exact absurd rfl (hrun n)
  · change execExtIrq b s = .next t at h
    unfold execExtIrq at h
    split_ifs at h with hb
    injection h with h; subst h
    exact .inl (PortEffect.raiseAndEval s hb)
  · exact .inr rfl
  · exact absurd rfl hload

/-- What moves no time. -/
theorem PortEffect.timeKept {s t : State} (h : PortEffect s t) :
    t.m.video = s.m.video ∧ t.m.cycleCounter = s.m.cycleCounter ∧
    (∀ j, t.m.timer j = { s.m.timer j with pending := (t.m.timer j).pending }) ∧
    (t.m.latch = s.m.latch ∨ (s.m.latch = .idle ∧ t.m.latch = .pending 7)) ∧ t.cpu = s.cpu ∧
    t.m.getIo 0x006 = s.m.getIo 0x006 ∧ t.m.getIo 0x004 &&& 0x0007 = s.m.getIo 0x004 &&& 0x0007 := by
  refine ⟨h.video, h.cycleCounter, fun j => ?_, h.latch, h.cpu, h.vcount, h.status⟩
  obtain ⟨p, hp⟩ := h.timers j
  rw [hp]

/-- Settles O47: a port operation's effect leaves time alone, and `SAVE` leaves `M` and the CPU alone. -/
theorem onlyRunMovesTime : Obligations.OnlyRunMovesTime := by
  intro i s t he hreset hload hrun h
  rcases exec_portEffect_or_save he hreset hload hrun h with effect | rfl
  · exact effect.timeKept
  · injection h with h; subst h
    exact (PortEffect.refl s).timeKept

end Sys2Proof.Machine
end

section
/-! SUPPORT. The interrupt controller (R150 to R157). `W.IE`, `W.IME` and `EXT_IRQ` are each a store into one register
entry and an `IrqEval` after it, so what they do is said once, for any entry; `W.IF` is such a store alone. -/

namespace Sys2Proof.Machine

/-! ## The condition of a delivery (R40) -/

/-- `Deliverable(M)` spelled out: IME, a flag both raised and enabled, and the CPU's own flag. -/
theorem deliverable_iff (m : Block) (on : Bool) : m.deliverable on = true ↔
    (m.getIo 0x208).getLsbD 0 = true ∧ m.getIo 0x200 &&& m.getIo 0x202 ≠ 0 ∧ on = true := by
  simp [Block.deliverable, and_assoc]

theorem deliverable_setIo_ie (m : Block) (v : Half) (on : Bool) : (m.setIo 0x200 v).deliverable on = true ↔
    (m.getIo 0x208).getLsbD 0 = true ∧ v &&& m.getIo 0x202 ≠ 0 ∧ on = true := by
  rw [deliverable_iff, getIo_setIo_same, getIo_setIo_ne m v (by decide), getIo_setIo_ne m v (by decide)]

theorem deliverable_setIo_if (m : Block) (v : Half) (on : Bool) : (m.setIo 0x202 v).deliverable on = true ↔
    (m.getIo 0x208).getLsbD 0 = true ∧ m.getIo 0x200 &&& v ≠ 0 ∧ on = true := by
  rw [deliverable_iff, getIo_setIo_same, getIo_setIo_ne m v (by decide), getIo_setIo_ne m v (by decide)]

theorem deliverable_setIo_ime (m : Block) (v : Half) (on : Bool) : (m.setIo 0x208 v).deliverable on = true ↔
    v.getLsbD 0 = true ∧ m.getIo 0x200 &&& m.getIo 0x202 ≠ 0 ∧ on = true := by
  rw [deliverable_iff, getIo_setIo_same, getIo_setIo_ne m v (by decide), getIo_setIo_ne m v (by decide)]

/-! ## `IrqEval` on the whole state (R154) -/

/-- An idle latch is armed where the condition holds. -/
theorem irqEval_of_deliverable {s : State} (hl : s.m.latch = .idle) (hd : s.m.deliverable s.cpu.irqEnabled = true) :
    irqEval s = { s with m := { s.m with latch := .pending 7 } } := by
  rw [irqEval_eq_latch, if_pos ⟨hl, hd⟩]

/-- Nothing changes where the latch is not idle or the condition does not hold. -/
theorem irqEval_eq_self {s : State} (h : ¬(s.m.latch = .idle ∧ s.m.deliverable s.cpu.irqEnabled = true)) :
    irqEval s = s := by
  rw [irqEval_eq_latch, if_neg h]

/-! ## A store into one entry, and `IrqEval` after it -/

/-- A store into an entry leaves the other entries alone. -/
theorem sameEntries_setIo {a : Nat} (ha : a < 0x400) (he : a % 2 = 0) (v : Half) (s : State) :
    sameEntries [a] s (s.onBlock fun m => m.setIo a v) := fun _ hb heb hne =>
  getIo_setIo_ne s.m v (slot_ne_of_ne ha hb he heb fun e => hne (e ▸ List.mem_singleton.mpr rfl))

/-- `IrqEval` changes no entry. -/
theorem sameEntries.irqEval {offs : List Nat} {s t : State} (h : sameEntries offs s t) :
    sameEntries offs s (irqEval t) := fun b hb heb hne =>
  (irqEval_getIo t.m t.cpu.irqEnabled b).trans (h b hb heb hne)

/-- Everything a store followed by `IrqEval` does: the entry holds the value, the latch is armed where the condition then
holds, and the rest stays. -/
theorem irqEval_setIo_effect {a : Nat} (ha : a < 0x400) (he : a % 2 = 0) (v : Half) {s t : State}
    (ht : irqEval (s.onBlock fun m => m.setIo a v) = t) :
    t.m.getIo a = v ∧
    t.m.latch = (if s.m.latch = .idle ∧ (s.m.setIo a v).deliverable s.cpu.irqEnabled = true then .pending 7
      else s.m.latch) ∧
    t = { s with m := { s.m with io := t.m.io, latch := t.m.latch } } ∧ sameEntries [a] s t ∧ sameBytes s t := by
  subst ht
  refine ⟨?entry, ?latch, ?rest, (sameEntries_setIo ha he v s).irqEval, fun _ => rfl⟩
  case entry => exact (irqEval_getIo _ _ a).trans (getIo_setIo_same s.m a v)
  case latch => exact irqEval_latch (s.m.setIo a v) s.cpu.irqEnabled
  case rest => rw [irqEval_eq_latch]; rfl

/-- Settles O15: the store of `IE` and `IrqEval`. -/
theorem ieWriteStoresAndEvaluates : Obligations.IeWriteStoresAndEvaluates := by
  intro v s
  refine ⟨_, rfl, ?_⟩
  simpa only [deliverable_setIo_ie] using irqEval_setIo_effect (a := 0x200) (by decide) rfl (v &&& 0x3FFF) rfl

/-- Settles O17: the store of `IME` and `IrqEval`; bit 0 of what is stored is bit 0 of the value. -/
theorem imeWriteStoresAndEvaluates : Obligations.ImeWriteStoresAndEvaluates := by
  intro v s
  have bit : (v &&& 0x0001).getLsbD 0 = v.getLsbD 0 := by simp
  refine ⟨_, rfl, ?_⟩
  simpa only [deliverable_setIo_ime, bit] using irqEval_setIo_effect (a := 0x208) (by decide) rfl (v &&& 0x0001) rfl

/-- Settles O24: `RaiseIF` is a store of `IF`, and `IrqEval` follows it. -/
theorem extIrqRaisesAndEvaluates : Obligations.ExtIrqRaisesAndEvaluates := by
  intro b s
  refine ⟨fun hb => ⟨_, if_pos hb, ?_⟩, fun hb => if_neg (Nat.not_le.mpr hb)⟩
  simpa only [deliverable_setIo_if] using
    irqEval_setIo_effect (a := 0x202) (t := raiseAndEval b.toNat s) (by decide) rfl
      (s.m.getIo 0x202 ||| ((1 : Half) <<< b.toNat)) rfl

/-! ## Clearing flags (R151) -/

/-- A bit is left where it was set and is not among those to clear. -/
theorem getLsbD_and_not {w : Nat} (x v : BitVec w) (b : Nat) :
    (x &&& ~~~v).getLsbD b = (x.getLsbD b && !v.getLsbD b) := by
  by_cases hb : b < w
  · simp [hb]
  · simp [BitVec.getLsbD_of_ge x b (Nat.not_lt.mp hb)]

/-- Clearing the bits of `v` flips those that both words have. -/
theorem and_not_eq_xor {w : Nat} (x v : BitVec w) : x &&& ~~~v = x ^^^ (v &&& x) := by
  refine BitVec.eq_of_getLsbD_eq fun b _ => ?_
  rw [getLsbD_and_not, BitVec.getLsbD_xor, BitVec.getLsbD_and]
  cases x.getLsbD b <;> cases v.getLsbD b <;> rfl

/-- Settles O16: the store of `IF`, bit by bit. -/
theorem ifWriteClearsFlagsOnly : Obligations.IfWriteClearsFlagsOnly := by
  intro v s
  have stored : (s.m.setIo 0x202 (s.m.getIo 0x202 &&& ~~~v)).getIo 0x202 = s.m.getIo 0x202 &&& ~~~v :=
    getIo_setIo_same _ _ _
  refine ⟨_, rfl, fun b => ?bits, stored.trans (and_not_eq_xor _ _), rfl, sameEntries_setIo (by decide) rfl _ s,
    fun _ => rfl⟩
  case bits => exact (congrArg (·.getLsbD b) stored).trans (getLsbD_and_not _ _ _)

/-! ## The check and the fetch (R155, R156) -/

theorem expireLatch_of_deliverable {s : State} (hl : s.m.latch = .pending 0)
    (hd : s.m.deliverable s.cpu.irqEnabled = true) : expireLatch s = takeInterrupt s := by
  rw [expireLatch, if_pos hl, if_pos hd]

theorem expireLatch_of_not_deliverable {s : State} (hl : s.m.latch = .pending 0)
    (hd : s.m.deliverable s.cpu.irqEnabled = false) :
    expireLatch s = s.onBlock fun m => { m with latch := .idle } := by
  rw [expireLatch, if_pos hl, if_neg (Bool.eq_false_iff.mp hd)]

theorem expireLatch_of_ne {s : State} (hl : s.m.latch ≠ .pending 0) : expireLatch s = s := if_neg hl

theorem exec_evIrqCheck (s : State) : exec .evIrqCheck s = .next (irqEval (expireLatch s)) := rfl

/-- A delivered latch is not armed again by the same check. -/
theorem irqEval_takeInterrupt (s : State) : irqEval (takeInterrupt s) = takeInterrupt s :=
  irqEval_eq_self fun ⟨hl, _⟩ => Latch.noConfusion hl

theorem vector_of_no_entry {c : Cpu} (h : c.entries = []) :
    c.vector = { c with irqEnabled := false, halted := false } := by
  rw [Cpu.vector, h]

theorem vector_of_entry {c : Cpu} {e : Entry} {rest : List Entry} (h : c.entries = e :: rest) :
    c.vector = { c with
      script := e.handler ++ c.script, irqEnabled := e.irqEnabled, halted := false, entries := rest } := by
  rw [Cpu.vector, h]

/-- Settles O22, by the latch and the condition before the check: an expired latch is delivered or cancelled, and only an
idle one is armed. -/
theorem irqCheckDeliversCancelsOrArms : Obligations.IrqCheckDeliversCancelsOrArms := by
  intro s
  refine ⟨?deliver, vector_of_no_entry, fun _ _ => vector_of_entry, ?cancel, ?arm, ?rest, deliverable_iff _ _⟩
  case deliver =>
    rintro ⟨hl, hd⟩
    rw [exec_evIrqCheck, expireLatch_of_deliverable hl hd, irqEval_takeInterrupt]; rfl
  case cancel =>
    rintro ⟨hl, hd⟩
    have still : ¬(s.onBlock fun m => { m with latch := .idle }).m.deliverable s.cpu.irqEnabled = true :=
      Bool.eq_false_iff.mp hd
    rw [exec_evIrqCheck, expireLatch_of_not_deliverable hl hd, irqEval_eq_self fun h => still h.2]; rfl
  case arm =>
    rintro ⟨hl, hd⟩
    rw [exec_evIrqCheck, expireLatch_of_ne (by rw [hl]; exact Latch.noConfusion), irqEval_of_deliverable hl hd]
  case rest =>
    rintro ⟨hl, hd⟩
    rw [exec_evIrqCheck, expireLatch_of_ne hl, irqEval_eq_self hd]

/-- Settles O23: the fetch is `leaveDelivered` on `M`. -/
theorem insnFetchLeavesDelivered : Obligations.InsnFetchLeavesDelivered := by
  intro s
  change Host.Outcome.next (s.onBlock leaveDelivered) = _
  rw [State.onBlock, leaveDelivered_eq]

end Sys2Proof.Machine
end

section
/-! SUPPORT. The address and count registers of the DMA channels (R170 to R172): each write is one store into one
entry. -/

namespace Sys2Proof.Machine

/-- An operation that is a store into one entry completes, and changes that entry alone. -/
theorem store_effect {a : Nat} (ha : a < 0x400 ∧ a % 2 = 0) {v : Half} {r : Res State} {s : State}
    (h : r = .next (s.onBlock fun m => m.setIo a v)) : ∃ t, r = .next t ∧ t.m.getIo a = v ∧ onlyIo [a] s t :=
  ⟨_, h, getIo_setIo_same _ _ _, rfl, sameEntries_setIo ha.1 ha.2 v s, fun _ => rfl⟩

/-- An entry of a DMA channel has an even offset below 0x400. -/
theorem dmaBase_entry (c : Fin 4) {k : Nat} (hk : k ≤ 10) (he : k % 2 = 0) :
    dmaBase c + k < 0x400 ∧ (dmaBase c + k) % 2 = 0 :=
  ⟨(dmaBase_ordinary c hk he).1, (dmaBase_ordinary c hk he).2.1⟩

/-- Settles O8: both writes are stores, by channel. -/
theorem dmaSourceWriteStoresUnderItsMask : Obligations.DmaSourceWriteStoresUnderItsMask := fun c _ _ =>
  ⟨store_effect (dmaBase_entry c (k := 0) (by decide) rfl) (by fin_cases c <;> rfl),
    store_effect (dmaBase_entry c (k := 2) (by decide) rfl) (by fin_cases c <;> rfl)⟩

/-- Settles O9: both writes are stores, by channel. -/
theorem dmaDestinationWriteStoresUnderItsMask : Obligations.DmaDestinationWriteStoresUnderItsMask := fun c _ _ =>
  ⟨store_effect (dmaBase_entry c (k := 4) (by decide) rfl) (by fin_cases c <;> rfl),
    store_effect (dmaBase_entry c (k := 6) (by decide) rfl) (by fin_cases c <;> rfl)⟩

/-- Settles O10: the write is a store, by channel, and `Count` reads the entry it stores to. -/
theorem dmaCountWriteStoresUnderItsMask : Obligations.DmaCountWriteStoresUnderItsMask := by
  intro c v s
  obtain ⟨t, ht, hv, hrest⟩ :=
    store_effect (r := exec (pick c (.wDma0CntL v) (.wDma1CntL v) (.wDma2CntL v) (.wDma3CntL v)) s) (s := s)
      (v := v &&& countMask c) (dmaBase_entry c (k := 8) (by decide) rfl) (by fin_cases c <;> rfl)
  exact ⟨t, ht, hv, hrest, rfl⟩

end Sys2Proof.Machine
end

section
/-! SUPPORT. A trigger check (R174): which channels it serves, in what order, and what a served channel's transfer
resolves to (R175). -/

namespace Sys2Proof.Machine

/-! ## Which channels are served (R174) -/

theorem dmaReason_eq_extract (ctl : Half) : dmaReason ctl = ctl.extractLsb' 12 2 := by
  rw [dmaReason, field_eq_extract, BitVec.ofNat_toNat, BitVec.setWidth_eq]

/-- The test of R174 spelled out: in the mask, enabled, and armed for the reason. -/
theorem triggered_iff (m : Block) (reason : BitVec 2) (mask : BitVec 4) (c : Fin 4) :
    m.triggered reason mask c = true ↔ mask.getLsbD c.val = true ∧
      (m.dmaControl c).getLsbD 15 = true ∧ (m.dmaControl c).extractLsb' 12 2 = reason := by
  simp only [Block.triggered, dmaEnabled, dmaReason_eq_extract, Bool.and_eq_true, beq_iff_eq, and_assoc]

theorem triggerChannel_of_triggered {reason : BitVec 2} {mask : BitVec 4} {c : Fin 4} {s : State}
    (h : s.m.triggered reason mask c = true) : triggerChannel reason mask c s = transfer c reason s := if_pos h

theorem triggerChannel_of_not_triggered {reason : BitVec 2} {mask : BitVec 4} {c : Fin 4} {s : State}
    (h : s.m.triggered reason mask c = false) : triggerChannel reason mask c s = .next s :=
  if_neg (Bool.eq_false_iff.mp h)

/-- A narrower mask leaves a channel's turn as it is, or takes it away. -/
theorem triggerChannel_and (reason : BitVec 2) (mask k : BitVec 4) (c : Fin 4) (s : State) :
    triggerChannel reason (mask &&& k) c s =
      if k.getLsbD c.val = true then triggerChannel reason mask c s else .next s := by
  have mem : s.m.triggered reason (mask &&& k) c = (k.getLsbD c.val && s.m.triggered reason mask c) := by
    simp only [Block.triggered, BitVec.getLsbD_and]
    cases mask.getLsbD c.val <;> cases k.getLsbD c.val <;> rfl
  cases hk : k.getLsbD c.val
  · exact triggerChannel_of_not_triggered (by rw [mem, hk, Bool.false_and])
  · rw [triggerChannel, mem, hk, Bool.true_and, if_pos rfl]; rfl

theorem andThen_pure {α : Type} (r : Res α) : (andThen r fun a => .next a) = r := by cases r <;> rfl

/-- Where no channel is served nothing happens. -/
theorem checkAndTrigger_of_none {reason : BitVec 2} {mask : BitVec 4} {s : State}
    (h : ∀ c, s.m.triggered reason mask c = false) : checkAndTrigger reason mask s = .next s := by
  simp only [checkAndTrigger, triggerChannel_of_not_triggered (h _), andThen_next]

/-- A mask of one channel leaves that channel's turn alone. -/
theorem checkAndTrigger_and_one (reason : BitVec 2) (mask : BitVec 4) (c : Fin 4) (s : State) :
    checkAndTrigger reason (mask &&& ((1 : BitVec 4) <<< c.val)) s = triggerChannel reason mask c s := by
  have only : ∀ c e : Fin 4, ((1 : BitVec 4) <<< c.val).getLsbD e.val = decide (e = c) := by decide
  simp only [checkAndTrigger, triggerChannel_and, only, decide_eq_true_eq]
  fin_cases c <;> simp [andThen_pure]

/-- The channels below the first one served have no turn; those above it have theirs after it. -/
theorem checkAndTrigger_first {reason : BitVec 2} {mask : BitVec 4} {c : Fin 4} {s : State}
    (h : ∀ e, e < c → s.m.triggered reason mask e = false) :
    checkAndTrigger reason mask s = andThen (triggerChannel reason mask c s) fun u =>
      checkAndTrigger reason (mask &&& ((0b1110 : BitVec 4) <<< c.val)) u := by
  have above : ∀ c e : Fin 4, ((0b1110 : BitVec 4) <<< c.val).getLsbD e.val = decide (c < e) := by decide
  have skip : ∀ e, e < c → triggerChannel reason mask e s = .next s := fun e he =>
    triggerChannel_of_not_triggered (h e he)
  simp only [checkAndTrigger, triggerChannel_and, above, decide_eq_true_eq]
  match c, skip with
  | 0, _ => rfl
  | 1, skip => rw [skip 0 (by decide)]; rfl
  | 2, skip => rw [skip 0 (by decide), andThen_next, skip 1 (by decide)]; rfl
  | 3, skip =>
    rw [skip 0 (by decide), andThen_next, skip 1 (by decide), andThen_next, skip 2 (by decide), andThen_next]
    exact (andThen_pure _).symm

/-- A trigger of one channel that is armed for its reason is that channel's transfer. -/
theorem checkAndTrigger_one {reason : BitVec 2} {c : Fin 4} {s : State} (he : (s.m.dmaControl c).getLsbD 15 = true)
    (hr : (s.m.dmaControl c).extractLsb' 12 2 = reason) :
    checkAndTrigger reason ((1 : BitVec 4) <<< c.val) s = transfer c reason s := by
  have hc : ∀ c : Fin 4, ((1 : BitVec 4) <<< c.val).getLsbD c.val = true := by decide
  rw [← BitVec.and_self (x := (1 : BitVec 4) <<< c.val), checkAndTrigger_and_one]
  exact triggerChannel_of_triggered ((triggered_iff _ _ _ _).mpr ⟨hc c, he, hr⟩)

/-- Settles O27: no channel has a turn. -/
theorem triggerLeavesOtherChannelsAlone : Obligations.TriggerLeavesOtherChannelsAlone := fun _ _ _ h =>
  checkAndTrigger_of_none fun c => Bool.eq_false_iff.mpr fun ht => h c ((triggered_iff _ _ _ _).mp ht)

/-- Settles O28: each of the four events is one channel's turn. -/
theorem triggerServesChannelsInOrder : Obligations.TriggerServesChannelsInOrder := by
  intro reason mask s
  have one : ∀ (c : Fin 4) (s : State), exec (.evDmaTrigger reason (mask &&& ((1 : BitVec 4) <<< c.val))) s =
      triggerChannel reason mask c s := fun c => checkAndTrigger_and_one reason mask c
  have h0 : ∀ s, exec (.evDmaTrigger reason (mask &&& 1)) s = _ := one 0
  have h1 : ∀ s, exec (.evDmaTrigger reason (mask &&& 2)) s = _ := one 1
  have h2 : ∀ s, exec (.evDmaTrigger reason (mask &&& 4)) s = _ := one 2
  have h3 : ∀ s, exec (.evDmaTrigger reason (mask &&& 8)) s = _ := one 3
  simp only [h0, h1, h2, h3]
  rfl

/-! ## What a transfer resolves to (R175) -/

theorem bitVec2_cases (b : BitVec 2) : b = 0 ∨ b = 1 ∨ b = 2 ∨ b = 3 := by revert b; decide

/-- `SrcStep` (R100): no meaning for code 3 (U1), else one unit up, one down, or none. -/
theorem srcStep_toNat (code : BitVec 2) (n : Nat) : srcStep code.toNat n =
    if code = 3 then none
    else some (if code = 0 then BitVec.ofNat 32 n else if code = 1 then -BitVec.ofNat 32 n else 0) := by
  rcases bitVec2_cases code with rfl | rfl | rfl | rfl <;> rfl

/-- `DstStep` (R100): none for code 2, one unit down for code 1, else one up. -/
theorem dstStep_toNat (code : BitVec 2) (n : Nat) : dstStep code.toNat n =
    if code = 2 then 0 else if code = 1 then -BitVec.ofNat 32 n else BitVec.ofNat 32 n := by
  rcases bitVec2_cases code with rfl | rfl | rfl | rfl <;> rfl

theorem plan_eq_none_iff (m : Block) (c : Fin 4) (reason : BitVec 2) :
    m.plan c reason = none ↔ (m.dmaControl c).extractLsb' 7 2 = 3 := by
  simp only [Block.plan, Option.map_eq_none_iff, field_eq_extract, srcStep_toNat, ite_eq_left_iff, reduceCtorEq,
    imp_false, not_not]

/-- Clearing the low `n` bits rounds down to a multiple of `2 ^ n`. -/
theorem and_not_low_toNat (a : Addr) (n : Nat) :
    (a &&& ~~~(BitVec.ofNat 32 (2 ^ n - 1))).toNat = a.toNat / 2 ^ n * 2 ^ n := by
  rw [← Nat.shiftRight_eq_div_pow, ← Nat.shiftLeft_eq]
  refine Nat.eq_of_testBit_eq fun i => ?_
  rw [Nat.testBit_shiftLeft, Nat.testBit_shiftRight, BitVec.testBit_toNat, BitVec.getLsbD_and, BitVec.getLsbD_not,
    BitVec.getLsbD_ofNat, Nat.testBit_two_pow_sub_one]
  by_cases hi : i < n
  · simp [hi]
  · by_cases h32 : i < 32
    · simp [hi, h32, Nat.le_of_not_lt hi, BitVec.testBit_toNat]
    · simp [h32, Nat.le_of_not_lt hi, BitVec.testBit_toNat, BitVec.getLsbD_of_ge a i (Nat.le_of_not_lt h32)]

/-- Alignment rounds down to a multiple of the width's bytes (R65). -/
theorem align_toNat (w : Width) (a : Addr) : (w.align a).toNat = a.toNat / w.bytes * w.bytes := by
  cases w
  · exact and_not_low_toNat a 0
  · exact and_not_low_toNat a 1
  · exact and_not_low_toNat a 2

/-- `Count` is at least 1 and at most 0x10000 (R98). -/
theorem count_bounds (m : Block) (c : Fin 4) : 1 ≤ m.count c ∧ m.count c ≤ 0x10000 := by
  unfold Block.count
  split
  · unfold dmaMaxCount; split <;> decide
  · next h =>
    have := (m.getIo (dmaBase c + 8)).isLt
    have : (m.getIo (dmaBase c + 8)).toNat ≠ 0 := fun h0 => h (BitVec.eq_of_toNat_eq h0)
    omega

/-- A resolved plan, field by field (R175, R180). -/
theorem plan_fields {m : Block} {c : Fin 4} {reason : BitVec 2} {p : Plan} (h : m.plan c reason = some p) :
    let fifo : Prop := reason = 3 ∧ (c = 1 ∨ c = 2)
    p.width = (if fifo ∨ (m.dmaControl c).getLsbD 10 = true then .word else .half) ∧
    p.count = (if fifo then 4 else m.count c) ∧
    p.sstep = (if (m.dmaControl c).extractLsb' 7 2 = 0 then BitVec.ofNat 32 p.width.bytes else
      if (m.dmaControl c).extractLsb' 7 2 = 1 then -BitVec.ofNat 32 p.width.bytes else 0) ∧
    p.dstep = (if fifo ∨ (m.dmaControl c).extractLsb' 5 2 = 2 then 0 else
      if (m.dmaControl c).extractLsb' 5 2 = 1 then -BitVec.ofNat 32 p.width.bytes
      else BitVec.ofNat 32 p.width.bytes) ∧
    p.src = p.width.align (m.cursor c).src ∧ p.dst = p.width.align (m.cursor c).dst := by
  simp only [Block.plan, Option.map_eq_some_iff, field_eq_extract, srcStep_toNat, dstStep_toNat,
    Bool.or_eq_true, isFifo_iff] at h
  obtain ⟨d, hd, rfl⟩ := h
  refine ⟨rfl, rfl, ?_, (ite_or _ _ _ _).symm, rfl, rfl⟩
  split at hd
  · cases hd
  · exact (Option.some.inj hd).symm

/-- Settles O29: the fields of a plan, and what alignment and `Count` give. -/
theorem transferPlanResolves : Obligations.TransferPlanResolves := by
  intro m c reason
  refine ⟨plan_eq_none_iff m c reason, fun p hp => ?_⟩
  obtain ⟨hw, hn, hs, hd, hsrc, hdst⟩ := plan_fields hp
  refine ⟨hw, hn, ?_, hs, hd, hsrc ▸ align_toNat _ _, hdst ▸ align_toNat _ _⟩
  rw [hn]
  split
  · decide
  · exact count_bounds m c
/-- Settles O30: the transfer has no plan. -/
theorem reservedSourceStepIsRefused : Obligations.ReservedSourceStepIsRefused := by
  intro c reason s he hr hsrc
  change checkAndTrigger reason _ s = _
  rw [checkAndTrigger_one he hr, transfer, (plan_eq_none_iff _ _ _).mpr hsrc]

end Sys2Proof.Machine
end

section
/-! SUPPORT. `W.DMAcCNT_H` (R173): the store, the latching of the cursors, and the check that follows. -/

namespace Sys2Proof.Machine

/-! ## The store (R173) -/

theorem arms_iff (m : Block) (c : Fin 4) (v : Half) :
    arms m c v = true ↔ (m.dmaControl c).getLsbD 15 = false ∧ v.getLsbD 15 = true := by
  simp only [arms, dmaEnabled, Bool.and_eq_true, Bool.not_eq_true']

theorem storeControl_getIo (m : Block) (c : Fin 4) (v : Half) (a : Nat) :
    (m.storeControl c v).getIo a = (m.setIo (dmaBase c + 10) (v &&& controlMask c)).getIo a := by
  rw [storeControl_eq]; split <;> rfl

theorem storeControl_dmaControl (m : Block) (c : Fin 4) (v : Half) :
    (m.storeControl c v).dmaControl c = v &&& controlMask c :=
  (storeControl_getIo m c v _).trans (getIo_setIo_same _ _ _)

theorem storeControl_cursor (m : Block) (c e : Fin 4) (v : Half) :
    (m.storeControl c v).cursor e = if e = c ∧ arms m c v = true then ⟨m.sad c, m.dad c⟩ else m.cursor e := by
  rw [storeControl_eq]
  split
  · next h => simp only [h, and_true, cursor_setCursor, setIo_cursor, eq_comm (a := e)]
  · next h => rw [if_neg fun k => h k.2, setIo_cursor]

/-- The store changes entries and cursors alone. -/
theorem storeControl_rest (m : Block) (c : Fin 4) (v : Half) :
    m.storeControl c v = { m with io := (m.storeControl c v).io, cursors := (m.storeControl c v).cursors } := by
  rw [storeControl_eq]; split <;> rfl

/-! ## The check (R173) -/

/-- The field `RSN` is 0 where the mask of its two bits finds nothing. -/
theorem extract_reason_eq_zero_iff (v : Half) : v.extractLsb' 12 2 = 0 ↔ v &&& 0x3000 = 0 := by
  have mask : ∀ i < 16, (0x3000 : Half).getLsbD i = decide (i = 12 ∨ i = 13) := by decide
  constructor
  · intro h
    have bit : ∀ k < 2, v.getLsbD (12 + k) = false := fun k hk => by
      have := congrArg (·.getLsbD k) h
      simpa [hk] using this
    refine BitVec.eq_of_getLsbD_eq fun i hi => ?_
    rw [BitVec.getLsbD_and, mask i hi]
    by_cases h12 : i = 12 ∨ i = 13
    · have : v.getLsbD i = false := by
        rcases h12 with rfl | rfl
        · exact bit 0 (by decide)
        · exact bit 1 (by decide)
      rw [this, Bool.false_and]; exact BitVec.getLsbD_zero.symm
    · rw [decide_eq_false h12, Bool.and_false]; exact BitVec.getLsbD_zero.symm
  · intro h
    refine BitVec.eq_of_getLsbD_eq fun k hk => ?_
    have := congrArg (·.getLsbD (12 + k)) h
    have m : (0x3000 : Half).getLsbD (12 + k) = true := by rw [mask _ (by omega)]; simp; omega
    simp only [BitVec.getLsbD_and, m, Bool.and_true] at this
    simpa [hk] using this

/-- The store keeps the field `RSN`. -/
theorem extract_reason_and_controlMask (v : Half) (c : Fin 4) :
    (v &&& controlMask c).extractLsb' 12 2 = v.extractLsb' 12 2 := by
  have mask : (controlMask c).extractLsb' 12 2 = 3 := by fin_cases c <;> rfl
  rw [BitVec.extractLsb'_and, mask]
  exact BitVec.and_allOnes

/-- A write that starts no immediate transfer is its store. -/
theorem writeCntH_of_no_transfer {c : Fin 4} {v : Half} {s : State} (h : ¬(arms s.m c v = true ∧ v &&& 0x3000 = 0)) :
    writeCntH c v s = .next (s.onBlock fun m => m.storeControl c v) := by
  unfold writeCntH
  simp only
  split
  · next ha =>
    refine checkAndTrigger_of_none fun e => Bool.eq_false_iff.mpr fun ht => h ⟨ha, ?_⟩
    obtain ⟨hmask, -, hr⟩ := (triggered_iff _ _ _ _).mp ht
    have only : ∀ c e : Fin 4, ((1 : BitVec 4) <<< c.val).getLsbD e.val = decide (e = c) := by decide
    obtain rfl : e = c := of_decide_eq_true (only c e ▸ hmask)
    rwa [onBlock_m, storeControl_dmaControl, extract_reason_and_controlMask, extract_reason_eq_zero_iff] at hr
  · rfl

/-- Settles O26: the state between is the one after the store. -/
theorem dmaControlWriteLatchesAndChecks : Obligations.DmaControlWriteLatchesAndChecks := by
  intro c v s
  have he : exec (pick c (.wDma0CntH v) (.wDma1CntH v) (.wDma2CntH v) (.wDma3CntH v)) s = writeCntH c v s := by
    fin_cases c <;> rfl
  have entry := dmaBase_entry c (k := 10) (by decide) rfl
  refine ⟨s.onBlock fun m => m.storeControl c v, storeControl_dmaControl _ _ _, fun e => ?cursors,
    congrArg (fun m => { s with m := m }) (storeControl_rest s.m c v), fun b hb heb hne => ?entries, fun _ => rfl,
    ?check, fun h => ?idle⟩
  case cursors =>
    simp only [onBlock_m, storeControl_cursor, arms_iff]; rfl
  case entries =>
    rw [onBlock_m, storeControl_getIo]
    exact sameEntries_setIo entry.1 entry.2 _ s b hb heb hne
  case check =>
    rw [he, writeCntH]
    simp only [arms_iff]; rfl
  case idle =>
    rw [he, writeCntH_of_no_transfer]
    rwa [arms_iff, and_assoc]

end Sys2Proof.Machine
end

section
/-! SUPPORT. One unit of a transfer (R176, R177, R183): its read, then its write, outside the register window and in
it. -/

namespace Sys2Proof.Machine

/-! ## Turns of `mem` (R133) -/

/-- With no turn left an access starts where it is. -/
theorem startAccess_of_nil {s : State} (h : s.bus = []) : s.startAccess = s := by
  have hb : { s with bus := s.bus.tail } = s := by cases s; subst h; rfl
  rw [State.startAccess, turn_nil h, hb]; rfl

theorem startAccess_of_cons {s : State} {turn : BusTurn} {rest : List BusTurn} (h : s.bus = turn :: rest) :
    s.startAccess = arrive turn.before { s with bus := rest } := by
  rw [State.startAccess, turn_cons h, h]; rfl

/-- With no turn left a read is the byte store's or the port's. -/
theorem busRead_of_nil {s : State} (h : s.bus = []) (w : Width) (a : Addr) : busRead w a s = (memRead w a s, s) := by
  have none : BusTurn.plain.answerAt s.cfg w a = none := by
    unfold BusTurn.answerAt; split <;> rfl
  simp only [busRead, turn_nil h, startAccess_of_nil h, none]
  rfl

/-- The data of a read: a turn's answer counts outside the register window alone. -/
theorem busRead_of_turn {s : State} {turn : BusTurn} (h : s.turn = turn) (w : Width) (a : Addr) : busRead w a s =
    (match windowOffset s.cfg (w.align a), turn.answer with
      | none, some v => w.clip v
      | _, _ => memRead w a s.startAccess, arrive turn.after s.startAccess) := by
  simp only [busRead, BusTurn.answerAt, startAccess_cfg, h]
  cases windowOffset s.cfg (w.align a) <;> cases turn.answer <;> rfl

/-- `EXT_IRQ` calls leave the control entries of the DMA channels alone. -/
@[simp] theorem arrive_dmaControl (bs : List (Fin 14)) (s : State) (c : Fin 4) :
    (arrive bs s).m.dmaControl c = s.m.dmaControl c := by
  have hne : ∀ c : Fin 4, slot (dmaBase c + 10) ≠ slot 0x202 := by decide
  exact (arrive_arrived bs s).entry _ (hne c)

theorem startAccess_dmaControl (s : State) (c : Fin 4) : s.startAccess.m.dmaControl c = s.m.dmaControl c :=
  arrive_dmaControl _ _ _

/-- A call that arrives is the operation `EXT_IRQ` (R157). -/
theorem exec_extIrq_ofNat (b : Fin 14) (s : State) :
    exec (.extIrq (BitVec.ofNat 4 b.val)) s = .next (arrive [b] s) := by
  have hb : (BitVec.ofNat 4 b.val).toNat = b.val := by
    rw [BitVec.toNat_ofNat]; omega
  change execExtIrq _ s = _
  rw [execExtIrq, hb, if_pos (by omega)]; rfl

/-! ## The read of a unit (R176, R177) -/

theorem region_eq_extract (a : Addr) : region a = a.extractLsb' 24 8 := by
  ext i hi
  simp [region]

theorem openBus_iff (cfg : Config) (src dst : Addr) :
    openBus cfg src dst = true ↔ inCartSpace cfg src = true ∧ cfg.addrTopMax < dst.extractLsb' 24 8 := by
  rw [openBus, Bool.and_eq_true, decide_eq_true_eq, region_eq_extract]

theorem unitRead_of_open {s : State} {src dst : Addr} (h : openBus s.cfg src dst = true) (w : Width) :
    unitRead w src dst s = (0, s) := if_pos h

theorem unitRead_of_not_open {s : State} {src dst : Addr} (h : openBus s.cfg src dst = false) (w : Width) :
    unitRead w src dst s =
      ((busRead w src s).1, (busRead w src s).2.emit (.memRead w src (busRead w src s).1)) :=
  if_neg (Bool.eq_false_iff.mp h)

/-- The read changes no parameter and no control entry. -/
theorem unitRead_cfg (w : Width) (src dst : Addr) (s : State) : (unitRead w src dst s).2.cfg = s.cfg :=
  (PortEffect.unitRead w src dst s).cfg

theorem unitRead_dmaControl (w : Width) (src dst : Addr) (s : State) (c : Fin 4) :
    (unitRead w src dst s).2.m.dmaControl c = s.m.dmaControl c := by
  cases h : openBus s.cfg src dst
  · rw [unitRead_of_not_open h, emit_m, busRead_state]
    exact arrive_dmaControl _ _ _
  · rw [unitRead_of_open h]

/-- The state in which a unit makes its write: its read is done and its write recorded. -/
def beforeWrite (w : Width) (src dst : Addr) (s : State) : State :=
  (unitRead w src dst s).2.emit (.memWrite w dst (unitRead w src dst s).1)

theorem beforeWrite_of_open {s : State} {src dst : Addr} (h : openBus s.cfg src dst = true) (w : Width) :
    beforeWrite w src dst s = { s with trace := .memWrite w dst 0 :: s.trace } := by
  rw [beforeWrite, unitRead_of_open h]; rfl

theorem beforeWrite_of_not_open {s : State} {src dst : Addr} (h : openBus s.cfg src dst = false) (w : Width) :
    beforeWrite w src dst s = { (busRead w src s).2 with
      trace := .memWrite w dst (busRead w src s).1 :: .memRead w src (busRead w src s).1 ::
        (busRead w src s).2.trace } := by
  rw [beforeWrite, unitRead_of_not_open h]; rfl

theorem beforeWrite_cfg (w : Width) (src dst : Addr) (s : State) : (beforeWrite w src dst s).cfg = s.cfg :=
  unitRead_cfg w src dst s

theorem beforeWrite_dmaControl (w : Width) (src dst : Addr) (s : State) (c : Fin 4) :
    (beforeWrite w src dst s).m.dmaControl c = s.m.dmaControl c :=
  unitRead_dmaControl w src dst s c

theorem dmaUnit_eq (ch : Fin 4) (w : Width) (src dst : Addr) (s : State) : dmaUnit ch w src dst s =
    busWriteWith (portWriteWith (controlWriteByUnit ch)) w dst (unitRead w src dst s).1 (beforeWrite w src dst s) := rfl

/-! ## A unit outside the register window -/

/-- The write of a unit outside the window: the byte store's, unless its turn loses it. -/
theorem busWriteWith_outside_turn {pw : Offset → Half → State → Res State} {w : Width} {a : Addr} {v : BitVec 32}
    {s : State} (ha : w.align a = a) (hw : windowOffset s.cfg a = none) :
    busWriteWith pw w a v s = .next (arrive s.turn.after { s.startAccess with
      mem := if s.turn.answer = none then s.startAccess.mem.write a v w.bytes else s.startAccess.mem }) := by
  have hw' : windowOffset s.startAccess.cfg a = none := by rwa [startAccess_cfg]
  simp only [busWriteWith, BusTurn.answerAt, ha, hw']
  cases s.turn.answer with
  | none => simp only [memWriteWith, ha, hw']; rfl
  | some v => rfl

/-- Settles O31: the unit's read, then its write; and what a turn of `mem` is. -/
theorem dmaUnitReadsThenWrites : Obligations.DmaUnitReadsThenWrites := by
  refine ⟨fun ch w src dst s ha hw => ?unit, fun w a s => ⟨fun h => ?noTurn, fun turn rest h => ?turn⟩,
    fun b bs s => ⟨rfl, exec_extIrq_ofNat b s, rfl⟩⟩
  case unit =>
    rw [← beforeWrite_cfg w src dst s] at hw
    refine ⟨_, beforeWrite w src dst s, (dmaUnit_eq ch w src dst s).trans (busWriteWith_outside_turn ha hw), ?_, ?_⟩ <;>
      rw [← openBus_iff]
    · exact fun ho => ⟨congrArg Prod.fst (unitRead_of_open ho w), beforeWrite_of_open ho w⟩
    · rw [Bool.not_eq_true]
      intro ho
      have hv := congrArg Prod.fst (unitRead_of_not_open ho w)
      exact ⟨hv, hv ▸ beforeWrite_of_not_open ho w⟩
  case noTurn => exact ⟨turn_nil h, startAccess_of_nil h, busRead_of_nil h w a⟩
  case turn => exact ⟨turn_cons h, startAccess_of_cons h, busRead_of_turn (turn_cons h) w a⟩

/-! ## A unit into the register window (R183, R63) -/

/-- A write in the window is the port's, whatever the turn answers. -/
theorem busWriteWith_window {pw : Offset → Half → State → Res State} {w : Width} {a : Addr} {v : BitVec 32} {s : State}
    {o : Offset} (hb : w ≠ .byte) (ha : w.align a = a) (ho : windowOffset s.cfg a = some o) :
    busWriteWith pw w a v s =
      andThen (if w = .word then pw o (v.extractLsb' 0 16) s.startAccess else .next s.startAccess) fun x =>
      andThen (pw (if w = .word then o + 2 else o)
        (if w = .word then v.extractLsb' 16 16 else v.extractLsb' 0 16) x) fun x => .next (arrive s.turn.after x) := by
  simp only [busWriteWith, memWriteWith, BusTurn.answerAt, startAccess_cfg, ha, ho,
    BitVec.setWidth_eq_extractLsb' (show 16 ≤ 32 by decide), extract_shiftRight]
  cases w with
  | byte => exact absurd rfl hb
  | half => rfl
  | word => exact andThen_assoc _ _ _

theorem windowOffset_eq_some {cfg : Config} {a : Addr} {o : Offset} (h : windowOffset cfg a = some o) :
    a = cfg.ioBase + o.setWidth 32 := by
  unfold windowOffset at h
  split at h
  · next hlt =>
    obtain rfl := Option.some.inj h
    have fits : ((a - cfg.ioBase).setWidth 10).setWidth 32 = a - cfg.ioBase :=
      BitVec.eq_of_toNat_eq (by rw [BitVec.toNat_setWidth_of_le (by decide), BitVec.toNat_setWidth]; omega)
    rw [fits, add_sub_cancel]
  · cases h

/-- A word's offset in the window is a multiple of 4 (R7). -/
theorem windowOffset_word {cfg : Config} (hc : cfg.wf) {a : Addr} {o : Offset} (ha : Width.word.align a = a)
    (h : windowOffset cfg a = some o) : o.toNat % 4 = 0 := by
  rw [align_eq_self_iff, windowOffset_eq_some h, BitVec.toNat_add, BitVec.toNat_setWidth_of_le (by decide)] at ha
  change _ % 4 = 0 at ha
  unfold Config.wf at hc
  omega

/-- A control entry is never the lower half of a word. -/
theorem ofOffset_ne_cntH_of_word {o : Offset} (h : o.toNat % 4 = 0) (c : Fin 4) : Reg.ofOffset o ≠ .cntH c := by
  intro hr
  have := offset_ofOffset o (by rw [hr]; nofun)
  rw [hr, evenOffset_toNat, Reg.offset, dmaBase] at this
  omega

/-- The lower half of a word unit, or nothing for a halfword unit: either completes and leaves the control entries. -/
theorem lowerHalf_completes {w : Width} {o : Offset} (hw : w = .word → o.toNat % 4 = 0) (v : Half) (s : State) :
    ∃ x, (∀ cntH, (if w = .word then portWriteWith cntH o v s else .next s) = .next x) ∧
      ∀ c, x.m.dmaControl c = s.m.dmaControl c := by
  by_cases h : w = .word
  · obtain ⟨x, hx, -, -, -, hctl⟩ := portWrite_plain (v := v) (s := s) (ofOffset_ne_cntH_of_word (hw h))
    exact ⟨x, fun cntH => by rw [if_pos h, hx], hctl⟩
  · exact ⟨s, fun _ => if_neg h, fun _ => rfl⟩

theorem portWriteWith_cntH {cntH : Fin 4 → Half → State → Res State} {o : Offset} {c : Fin 4}
    (h : Reg.ofOffset o = .cntH c) (v : Half) (s : State) : portWriteWith cntH o v s = cntH c v s := by
  rw [portWriteWith, h]

/-! What a unit's write of a control entry is: refused in the two cases of U3, else the port write. -/

theorem controlWriteByUnit_own (c : Fin 4) (v : Half) (s : State) :
    controlWriteByUnit c c v s = .refused .dmaWritesOwnControl := if_pos rfl

theorem controlWriteByUnit_nested {ch c : Fin 4} {v : Half} {s : State} (hc : c ≠ ch)
    (h : arms s.m c v = true ∧ v &&& 0x3000 = 0) : controlWriteByUnit ch c v s = .refused .dmaNestedTransfer := by
  rw [controlWriteByUnit, if_neg hc, dmaReason_eq_extract, (extract_reason_eq_zero_iff v).mpr h.2, h.1]; rfl

theorem controlWriteByUnit_eq_writeCntH {ch c : Fin 4} {v : Half} {s : State} (hc : c ≠ ch)
    (h : ¬(arms s.m c v = true ∧ v &&& 0x3000 = 0)) : controlWriteByUnit ch c v s = writeCntH c v s := by
  rw [writeCntH_of_no_transfer h, controlWriteByUnit, if_neg hc, dmaReason_eq_extract, if_neg]
  rwa [Bool.and_eq_true, beq_iff_eq, extract_reason_eq_zero_iff]

/-- Settles O36: the lower half of a word is an ordinary port write, so the other half, or the halfword, decides. -/
theorem unitIntoTheWindowIsAPortWrite : Obligations.UnitIntoTheWindowIsAPortWrite := by
  intro ch w src dst o s u v hc hb ha ho hu last half starts
  have hread : v = (unitRead w src dst s).1 ∧ u = beforeWrite w src dst s := by
    rcases hu with ⟨h, rfl, hu⟩ | ⟨h, rfl, hu⟩
    · exact ⟨(congrArg Prod.fst (unitRead_of_open h w)).symm, hu.trans (beforeWrite_of_open h w).symm⟩
    · exact ⟨(congrArg Prod.fst (unitRead_of_not_open h w)).symm, hu.trans (beforeWrite_of_not_open h w).symm⟩
  obtain ⟨hv, rfl⟩ := hread
  obtain ⟨x, hx, hctl⟩ := lowerHalf_completes (w := w) (o := o)
    (by rintro rfl; exact windowOffset_word hc ha ho) (v.extractLsb' 0 16) (beforeWrite w src dst s).startAccess
  have unit : dmaUnit ch w src dst s = andThen (portWriteWith (controlWriteByUnit ch) last half x) fun x =>
      .next (arrive (beforeWrite w src dst s).turn.after x) := by
    rw [dmaUnit_eq, busWriteWith_window hb ha ((beforeWrite_cfg w src dst s).symm ▸ ho), ← hv, hx]; rfl
  have hstarts : ∀ c, arms x.m c half = true ∧ half &&& 0x3000 = 0 ↔ starts c := fun c => by
    rw [arms_iff, hctl, startAccess_dmaControl, beforeWrite_dmaControl, and_assoc]
    exact Iff.rfl
  refine ⟨?port, ?own, ?nested⟩
  case port =>
    intro h
    have same : portWriteWith (controlWriteByUnit ch) last half x = portWrite last half x := by
      rcases h with h | ⟨c, hne, hr, hs⟩
      · obtain ⟨y, hy, -⟩ := portWrite_plain (v := half) (s := x) h
        exact (hy _).trans (hy _).symm
      · rw [portWrite, portWriteWith_cntH hr, portWriteWith_cntH hr]
        exact controlWriteByUnit_eq_writeCntH hne (mt (hstarts c).mp hs)
    have lower : (if w = .word then portWrite o (v.extractLsb' 0 16) (beforeWrite w src dst s).startAccess
        else .next (beforeWrite w src dst s).startAccess) = .next x := hx writeCntH
    rw [unit, same, lower]; rfl
  case own =>
    intro hr
    rw [unit, portWriteWith_cntH hr, controlWriteByUnit_own]; rfl
  case nested =>
    intro c hne hr hs
    rw [unit, portWriteWith_cntH hr, controlWriteByUnit_nested hne ((hstarts c).mpr hs)]; rfl

end Sys2Proof.Machine
end

section
/-! SUPPORT. A transfer (R175 to R179): its units in order and what follows them; and a trigger that serves one channel
alone, outside the register window. -/

namespace Sys2Proof.Machine

/-! ## What follows the units (R176, R178, R179) -/

/-- The cursors a transfer ends with (R176), before a reload. -/
def Plan.endCursor (p : Plan) : Cursor :=
  ⟨p.src + BitVec.ofNat 32 p.count * p.sstep, p.dst + BitVec.ofNat 32 p.count * p.dstep⟩

/-- What a transfer does after its units: the cursors are written, the cost is added, and R179; control and price are
those of its start. -/
def afterUnits (c : Fin 4) (reason : BitVec 2) (p : Plan) (start : Block) (s : State) : State :=
  s.onBlock fun m => afterTransfer c reason (start.dmaControl c)
    { m.setCursor c p.endCursor with dmaStall := m.dmaStall + start.dmaCost p }

/-- A transfer is its units in order, each from the state the one before it left, and then what follows them. -/
theorem transfer_eq_foldl {c : Fin 4} {reason : BitVec 2} {s : State} {p : Plan} (hp : s.m.plan c reason = some p) :
    transfer c reason s = andThen ((List.range p.count).foldl (fun r j => andThen r (dmaUnit c p.width
        (p.src + BitVec.ofNat 32 j * p.sstep) (p.dst + BitVec.ofNat 32 j * p.dstep))) (.next s)) fun u =>
      .next (afterUnits c reason p s.m u) := by
  simp only [transfer, hp, dmaUnits_eq_foldl, andThen_assoc]
  rfl

section afterUnits
variable (c : Fin 4) (reason : BitVec 2) (p : Plan) (start : Block) (s : State)

/-- `afterTransfer_spec` for the state it is applied to here. -/
theorem afterUnits_spec : let t := (afterUnits c reason p start s).m
    let ctl := start.dmaControl c
    t.dmaControl c = (if ¬(reason = 3 ∧ (c = 1 ∨ c = 2)) ∧ (ctl.getLsbD 9 = false ∨ reason = 0)
      then s.m.dmaControl c &&& 0x7FFF else s.m.dmaControl c) ∧
    t.getIo 0x202 = (if ctl.getLsbD 14 = true
      then s.m.getIo 0x202 ||| ((1 : Half) <<< (8 + c.val)) else s.m.getIo 0x202) ∧
    (∀ a, slot (dmaBase c + 10) ≠ slot a → slot 0x202 ≠ slot a → t.getIo a = s.m.getIo a) ∧
    (∀ e, t.cursor e = if e = c ∧ ¬(reason = 3 ∧ (c = 1 ∨ c = 2)) ∧ ctl.getLsbD 9 = true ∧ reason ≠ 0 ∧
      ctl.extractLsb' 5 2 = 3 then ⟨((s.m.setCursor c p.endCursor).cursor c).src, s.m.dad c⟩
      else (s.m.setCursor c p.endCursor).cursor e) ∧
    t = { s.m with io := t.io, cursors := t.cursors, dmaStall := s.m.dmaStall + start.dmaCost p } :=
  afterTransfer_spec c reason _ { s.m.setCursor c p.endCursor with dmaStall := s.m.dmaStall + start.dmaCost p }

theorem afterUnits_dmaStall : (afterUnits c reason p start s).m.dmaStall = s.m.dmaStall + start.dmaCost p := by
  obtain ⟨-, -, -, -, h⟩ := afterUnits_spec c reason p start s
  rw [h]

theorem afterUnits_dmaControl : (afterUnits c reason p start s).m.dmaControl c =
    if ¬(reason = 3 ∧ (c = 1 ∨ c = 2)) ∧ ((start.dmaControl c).getLsbD 9 = false ∨ reason = 0)
    then s.m.dmaControl c &&& 0x7FFF else s.m.dmaControl c :=
  (afterUnits_spec c reason p start s).1

theorem afterUnits_if : (afterUnits c reason p start s).m.getIo 0x202 =
    if (start.dmaControl c).getLsbD 14 = true then s.m.getIo 0x202 ||| ((1 : Half) <<< (8 + c.val))
    else s.m.getIo 0x202 :=
  (afterUnits_spec c reason p start s).2.1

/-- The cursors, with the reload from `DAD` as it then is. -/
theorem afterUnits_cursor (e : Fin 4) : (afterUnits c reason p start s).m.cursor e = if e = c then
      ⟨p.endCursor.src, if ¬(reason = 3 ∧ (c = 1 ∨ c = 2)) ∧ (start.dmaControl c).getLsbD 9 = true ∧ reason ≠ 0 ∧
        (start.dmaControl c).extractLsb' 5 2 = 3 then s.m.dad c else p.endCursor.dst⟩ else s.m.cursor e := by
  obtain ⟨-, -, -, h, -⟩ := afterUnits_spec c reason p start s
  rw [h, cursor_setCursor_same, cursor_setCursor]
  by_cases he : e = c
  · subst he
    simp only [true_and, if_true]
    split <;> rfl
  · rw [if_neg fun k => he k.1, if_neg (Ne.symm he), if_neg he]

/-- Nothing else changes. -/
theorem afterUnits_rest : afterUnits c reason p start s = { s with m := { s.m with
    io := (afterUnits c reason p start s).m.io
    cursors := (afterUnits c reason p start s).m.cursors
    dmaStall := (afterUnits c reason p start s).m.dmaStall } } := by
  obtain ⟨-, -, -, -, h⟩ := afterUnits_spec c reason p start s
  rw [afterUnits_dmaStall]
  exact congrArg (fun m => { s with m := m }) h

theorem afterUnits_sameEntries : sameEntries [dmaBase c + 10, 0x202] s (afterUnits c reason p start s) := by
  intro a ha he hn
  simp only [List.mem_cons, List.not_mem_nil, or_false, not_or] at hn
  obtain ⟨-, -, h, -, -⟩ := afterUnits_spec c reason p start s
  have entry := dmaBase_entry c (k := 10) (by decide) rfl
  exact h a (slot_ne_of_ne entry.1 ha entry.2 he (Ne.symm hn.1))
    (slot_ne_of_ne (by decide) ha (by decide) he (Ne.symm hn.2))

theorem afterUnits_dmaControl_ne {e : Fin 4} (he : e ≠ c) :
    (afterUnits c reason p start s).m.dmaControl e = s.m.dmaControl e := by
  have entry := dmaBase_entry e (k := 10) (by decide) rfl
  refine afterUnits_sameEntries c reason p start s _ entry.1 entry.2 ?_
  simp only [dmaBase, List.mem_cons, List.not_mem_nil, or_false, not_or]
  omega

end afterUnits

/-! ## The trigger that serves one channel alone -/

/-- It is that channel's transfer, if the transfer leaves the other control entries alone. -/
theorem checkAndTrigger_alone {reason : BitVec 2} {mask : BitVec 4} {c : Fin 4} {s t : State}
    (hc : s.m.triggered reason mask c = true) (hone : ∀ e, e ≠ c → s.m.triggered reason mask e = false)
    (ht : transfer c reason s = .next t) (hctl : ∀ e, e ≠ c → t.m.dmaControl e = s.m.dmaControl e) :
    checkAndTrigger reason mask s = .next t := by
  rw [checkAndTrigger_first fun e he => hone e he.ne, triggerChannel_of_triggered hc, ht, andThen_next]
  refine checkAndTrigger_of_none fun e => Bool.eq_false_iff.mpr fun h => ?_
  obtain ⟨hm, hen, hr⟩ := (triggered_iff _ _ _ _).mp h
  rw [BitVec.getLsbD_and, Bool.and_eq_true] at hm
  have above : ∀ c e : Fin 4, ((0b1110 : BitVec 4) <<< c.val).getLsbD e.val = true → e ≠ c := by decide
  have hne := above c e hm.2
  rw [hctl e hne] at hen hr
  exact Bool.eq_false_iff.mp (hone e hne) ((triggered_iff _ _ _ _).mpr ⟨hm.1, hen, hr⟩)

/-! ## A transfer outside the register window -/

/-- The state after the units of a transfer outside the window: the calls of the turns taken have arrived, and bytes,
turns and record have changed. -/
def unitsDone (p : Plan) (mem : Memory) (new : List Event) (s : State) : State :=
  { arrive (calls (p.accesses s.cfg) s.bus) s with
    mem := mem
    bus := s.bus.drop (p.accesses s.cfg)
    trace := new ++ s.trace }

section unitsDone
variable (p : Plan) (mem : Memory) (new : List Event) (s : State)

theorem unitsDone_sameEntries : sameEntries [0x202] s (unitsDone p mem new s) := fun a ha he hn =>
  (arrive_arrived _ s).entry a (slot_ne_of_ne ha (by decide) he (by decide) fun h => hn (List.mem_singleton.mpr h))

theorem unitsDone_dmaControl (e : Fin 4) : (unitsDone p mem new s).m.dmaControl e = s.m.dmaControl e :=
  arrive_dmaControl _ _ _

theorem unitsDone_dad (e : Fin 4) : (unitsDone p mem new s).m.dad e = s.m.dad e := by
  have hne : ∀ e : Fin 4, slot (dmaBase e + 6) ≠ slot 0x202 ∧ slot (dmaBase e + 4) ≠ slot 0x202 := by decide
  have same := (arrive_arrived (calls (p.accesses s.cfg) s.bus) s).entry
  exact congrArg₂ (· ++ ·) (same _ (hne e).1) (same _ (hne e).2)

theorem unitsDone_cursor (e : Fin 4) : (unitsDone p mem new s).m.cursor e = s.m.cursor e :=
  congrArg (·[e]) (arrive_cursors (calls (p.accesses s.cfg) s.bus) s)

/-- Nothing else changes. -/
theorem unitsDone_rest : unitsDone p mem new s = { s with
    m := { s.m with io := (unitsDone p mem new s).m.io, latch := (unitsDone p mem new s).m.latch }
    mem := mem
    bus := s.bus.drop (p.accesses s.cfg)
    trace := new ++ s.trace } :=
  congrArg (fun u : State => { u with
    mem := mem, bus := s.bus.drop (p.accesses s.cfg), trace := new ++ s.trace }) (arrive_arrived _ s).rest

end unitsDone

/-- What a transfer outside the window changes at all. -/
theorem afterUnits_unitsDone_rest (c : Fin 4) (reason : BitVec 2) (p : Plan) (mem : Memory) (new : List Event)
    (s : State) : let t := afterUnits c reason p s.m (unitsDone p mem new s)
    t = { s with
      m := { s.m with io := t.m.io, cursors := t.m.cursors, dmaStall := t.m.dmaStall, latch := t.m.latch }
      mem := t.mem
      bus := t.bus
      trace := t.trace } := by
  intro t
  have after : t = _ := afterUnits_rest c reason p s.m (unitsDone p mem new s)
  rw [unitsDone_rest] at after
  rw [after]

/-- The trigger of one channel alone whose destinations lie outside the window completes; what its units leave, and the
bytes they do not touch (R176). -/
theorem checkAndTrigger_outside {c : Fin 4} {reason : BitVec 2} {mask : BitVec 4} {s : State} {p : Plan}
    (hc : s.m.triggered reason mask c = true) (hone : ∀ e, e ≠ c → s.m.triggered reason mask e = false)
    (hp : s.m.plan c reason = some p) (ho : p.outside s.cfg) :
    ∃ mem new, dmaUnits c p p.count p.src p.dst s =
        .next ((unitsDone p mem new s).onBlock fun m => m.setCursor c p.endCursor) ∧
      checkAndTrigger reason mask s = .next (afterUnits c reason p s.m (unitsDone p mem new s)) ∧
      ∀ b, (∀ j < p.count, ∀ k < p.width.bytes, unitByte p.dst p.dstep j k ≠ b) → mem.get b = s.mem.get b := by
  obtain ⟨-, -, ha, -, hd⟩ := plan_aligned hp
  obtain ⟨mem, new, h, hmem, -⟩ := dmaUnits_outside (ch := c) (src := p.src) hd ha ho
  refine ⟨mem, new, h, checkAndTrigger_alone hc hone ?_ fun e he => ?_, hmem⟩
  · simp only [transfer, hp, h, andThen_next]
    rfl
  · exact (afterUnits_dmaControl_ne c reason p s.m _ he).trans (unitsDone_dmaControl p mem new s e)

/-- Settles O32: the first channel's transfer as a sequence of units, then the channels above; and what its units
outside the window leave. -/
theorem transferOfOneChannelCompletes : Obligations.TransferOfOneChannelCompletes := by
  intro c reason mask s p hc hp ctl cost
  refine ⟨fun hlow => ⟨afterUnits c reason p s.m, ?event, fun u => ?after⟩, fun hone hout => ?completes⟩
  case event =>
    change checkAndTrigger reason mask s = _
    rw [checkAndTrigger_first hlow, triggerChannel_of_triggered hc, transfer_eq_foldl hp, andThen_assoc]
    rfl
  case after =>
    exact ⟨afterUnits_dmaStall .., afterUnits_dmaControl .., afterUnits_if .., afterUnits_cursor c reason p s.m u,
      afterUnits_rest .., afterUnits_sameEntries c reason p s.m u⟩
  case completes =>
    obtain ⟨mem, new, -, done, hmem⟩ := checkAndTrigger_outside hc hone hp hout
    have cursors := fun e => afterUnits_cursor c reason p s.m (unitsDone p mem new s) e
    have control := afterUnits_dmaControl c reason p s.m (unitsDone p mem new s)
    have stall := afterUnits_dmaStall c reason p s.m (unitsDone p mem new s)
    have rest := afterUnits_rest c reason p s.m (unitsDone p mem new s)
    simp only [unitsDone_dad, unitsDone_cursor] at cursors
    rw [unitsDone_dmaControl] at control
    rw [show (unitsDone p mem new s).m.dmaStall = s.m.dmaStall from arrive_dmaStall _ _] at stall
    refine ⟨_, _, done, rfl, congrArg State.bus rest, stall, control, afterUnits_if .., congrArg (·.m.latch) rest,
      congrArg Cursor.src ((cursors c).trans (if_pos rfl)), congrArg Cursor.dst ((cursors c).trans (if_pos rfl)),
      fun e he => (cursors e).trans (if_neg he), afterUnits_unitsDone_rest .., fun a ha he hn => ?entries, hmem⟩
    case entries =>
      refine (afterUnits_sameEntries _ _ _ _ _ a ha he hn).trans (unitsDone_sameEntries p mem new s a ha he ?_)
      exact fun h => hn (List.mem_cons_of_mem _ h)

end Sys2Proof.Machine
end

section
/-! SUPPORT. The sound-FIFO trigger (R180): its plan, its four units, and when they complete. -/

namespace Sys2Proof.Machine

/-! ## The plan (R180) -/

/-- The source step of a FIFO trigger (R100): a word up, a word down, or none. -/
def fifoStep (ctl : Half) : Addr := if ctl.extractLsb' 7 2 = 0 then 4 else if ctl.extractLsb' 7 2 = 1 then -4 else 0

/-- Four words to one address, whatever count, width and destination step the control entry holds. -/
def fifoPlan (m : Block) (c : Fin 4) : Plan :=
  ⟨.word, 4, fifoStep (m.dmaControl c), 0, Width.word.align (m.cursor c).src, Width.word.align (m.cursor c).dst⟩

theorem plan_fifo {m : Block} {c : Fin 4} (hc : c = 1 ∨ c = 2) (h : (m.dmaControl c).extractLsb' 7 2 ≠ 3) :
    m.plan c 3 = some (fifoPlan m c) := by
  have fifo : isFifo c 3 = true := (isFifo_iff c 3).mpr ⟨rfl, hc⟩
  simp only [Block.plan, fifo, Bool.true_or, if_true, field_eq_extract, srcStep_toNat, if_neg h, Option.map_some]
  rfl

/-- The cursors after a FIFO trigger: four steps on, and where it was. -/
theorem fifoPlan_endCursor (m : Block) (c : Fin 4) :
    (fifoPlan m c).endCursor = ⟨(fifoPlan m c).src + 4 * (fifoPlan m c).sstep, (fifoPlan m c).dst⟩ := by
  simp [Plan.endCursor, fifoPlan]

/-- The end of a FIFO trigger keeps the control entry and the destination cursor (R180). -/
theorem afterUnits_fifo {c : Fin 4} (hc : c = 1 ∨ c = 2) (p : Plan) (start : Block) (s : State) :
    (afterUnits c 3 p start s).m.dmaControl c = s.m.dmaControl c ∧
    (∀ e, (afterUnits c 3 p start s).m.cursor e = if e = c then p.endCursor else s.m.cursor e) ∧
    sameEntries [0x202] s (afterUnits c 3 p start s) := by
  have fifo : (3 : BitVec 2) = 3 ∧ (c = 1 ∨ c = 2) := ⟨rfl, hc⟩
  have control : (afterUnits c 3 p start s).m.dmaControl c = s.m.dmaControl c :=
    (afterUnits_dmaControl ..).trans (if_neg fun h => h.1 fifo)
  refine ⟨control, fun e => ?_, fun a ha he hn => ?_⟩
  · simp only [afterUnits_cursor, fifo, and_self, not_true_eq_false, false_and, if_false]
  · by_cases hctl : a = dmaBase c + 10
    · subst hctl; exact control
    · exact afterUnits_sameEntries c 3 p start s a ha he (List.not_mem_cons_of_ne_of_not_mem hctl hn)

/-! ## The units -/

/-- A destination word that is no control entry's: outside the register window, or in it elsewhere. -/
def PlainWord (cfg : Config) (dst : Addr) : Prop :=
  windowOffset cfg dst = none ∨ (cfg.wf ∧ ∃ o, windowOffset cfg dst = some o ∧ ∀ e, Reg.ofOffset (o + 2) ≠ .cntH e)

/-- A word unit to such a word completes and leaves the control entries alone. -/
theorem dmaUnit_plainWord {s : State} {dst : Addr} (ha : Width.word.align dst = dst) (h : PlainWord s.cfg dst)
    (ch : Fin 4) (src : Addr) :
    ∃ t, dmaUnit ch .word src dst s = .next t ∧ ∀ e, t.m.dmaControl e = s.m.dmaControl e := by
  rcases h with hw | ⟨hc, o, ho, hne⟩
  · exact ⟨_, dmaUnit_outside ha hw, fun e => arrive_dmaControl _ s e⟩
  · obtain ⟨x, hx, hxctl⟩ := lowerHalf_completes (w := .word) (o := o) (fun _ => windowOffset_word hc ha ho)
      ((unitRead .word src dst s).1.extractLsb' 0 16) (beforeWrite .word src dst s).startAccess
    obtain ⟨y, hy, -, -, -, hyctl⟩ :=
      portWrite_plain (v := (unitRead .word src dst s).1.extractLsb' 16 16) (s := x) hne
    refine ⟨arrive (beforeWrite .word src dst s).turn.after y, ?_, fun e => ?_⟩
    · rw [dmaUnit_eq, busWriteWith_window Width.noConfusion ha ((beforeWrite_cfg .word src dst s).symm ▸ ho), hx,
        andThen_next, if_pos rfl, if_pos rfl, hy, andThen_next]
    · rw [arrive_dmaControl, hyctl, hxctl, startAccess_dmaControl, beforeWrite_dmaControl]

/-- Units to one such word complete, keep the control entries, and make exactly their writes. -/
theorem foldl_dmaUnit_plainWord {s : State} {dst : Addr} (ha : Width.word.align dst = dst) (h : PlainWord s.cfg dst)
    (ch : Fin 4) (src : Nat → Addr) (n : Nat) :
    ∃ t new, (List.range n).foldl (fun r j => andThen r (dmaUnit ch .word (src j) dst)) (.next s) = .next t ∧
      t.cfg = s.cfg ∧ (∀ e, t.m.dmaControl e = s.m.dmaControl e) ∧ t.trace = new ++ s.trace ∧
      new.filterMap Event.unitWrite = List.replicate n (.word, dst) := by
  induction n with
  | zero => exact ⟨s, [], rfl, rfl, fun _ => rfl, rfl, rfl⟩
  | succ n ih =>
    obtain ⟨t, new, ht, hcfg, hctl, htrace, hnew⟩ := ih
    obtain ⟨u, hu, huctl⟩ := dmaUnit_plainWord ha (hcfg.symm ▸ h : PlainWord t.cfg dst) ch (src n)
    obtain ⟨v, reads, hutrace, hreads⟩ := dmaUnit_trace hu
    have hwrite : (.memWrite .word dst v :: reads : List Event).filterMap Event.unitWrite = [(.word, dst)] := by
      rcases hreads with rfl | ⟨x, rfl⟩ <;> rfl
    refine ⟨u, .memWrite .word dst v :: reads ++ new, ?_, (dmaUnit_effect hu).cfg.trans hcfg,
      fun e => (huctl e).trans (hctl e), ?_, ?_⟩
    · rw [List.range_succ, List.foldl_append, ht]
      exact hu
    · rw [hutrace, htrace, List.append_assoc]
    · rw [List.filterMap_append, hwrite, hnew]
      rfl

/-- A FIFO trigger is its four units and what follows them. -/
theorem checkAndTrigger_fifo {c : Fin 4} {s : State} (hc : c = 1 ∨ c = 2) (hen : (s.m.dmaControl c).getLsbD 15 = true)
    (hr : (s.m.dmaControl c).extractLsb' 12 2 = 3) (hsrc : (s.m.dmaControl c).extractLsb' 7 2 ≠ 3) :
    checkAndTrigger 3 ((1 : BitVec 4) <<< c.val) s =
      andThen ((List.range 4).foldl (fun r j => andThen r (dmaUnit c .word
        ((fifoPlan s.m c).src + BitVec.ofNat 32 j * (fifoPlan s.m c).sstep) (fifoPlan s.m c).dst)) (.next s)) fun u =>
      .next (afterUnits c 3 (fifoPlan s.m c) s.m u) := by
  rw [checkAndTrigger_one hen hr, transfer_eq_foldl (plan_fifo hc hsrc)]
  have stays : ∀ j : Nat, (fifoPlan s.m c).dst + BitVec.ofNat 32 j * (fifoPlan s.m c).dstep = (fifoPlan s.m c).dst :=
    fun j => by simp [fifoPlan]
  simp only [stays]
  rfl

/-- Settles O34: the plan of a FIFO trigger, its units and what follows them; and where each unit's word is plain. -/
theorem fifoTriggerMovesFourWords : Obligations.FifoTriggerMovesFourWords := by
  intro c s hc hen hr hsrc ctl src dst step rs rd
  have ht := checkAndTrigger_fifo hc hen hr hsrc
  refine ⟨⟨afterUnits c 3 (fifoPlan s.m c) s.m, ?event, fun u => ?after⟩, fun hd => ?completes⟩
  case event =>
    refine ht.trans ?_
    simp only [List.range_succ, List.range_zero, List.nil_append, List.cons_append, List.foldl_cons, List.foldl_nil,
      andThen_assoc, andThen_next, BitVec.zero_mul, BitVec.one_mul, BitVec.add_zero]
    rfl
  case after =>
    obtain ⟨-, hcursor, hsame⟩ := afterUnits_fifo hc (fifoPlan s.m c) s.m u
    rw [fifoPlan_endCursor] at hcursor
    exact ⟨afterUnits_dmaStall .., afterUnits_if .., hcursor, afterUnits_rest .., hsame⟩
  case completes =>
    obtain ⟨t, new, hu, -, hctl, htrace, hnew⟩ :=
      foldl_dmaUnit_plainWord (align_idem _ _) hd c (fun j => src + BitVec.ofNat 32 j * step) 4
    obtain ⟨hcontrol, hcursor, -⟩ := afterUnits_fifo hc (fifoPlan s.m c) s.m t
    rw [fifoPlan_endCursor] at hcursor
    exact ⟨afterUnits c 3 (fifoPlan s.m c) s.m t, new, ht.trans (congrArg (andThen · _) hu), htrace, hnew,
      hcontrol.trans (hctl c), (hcursor c).trans (if_pos rfl)⟩

end Sys2Proof.Machine
end

section
/-! SUPPORT. What a transfer moves (R176), where the byte store serves every access: its units as copies in memory, one
after another, and what they leave where nothing overlaps. -/

namespace Sys2Proof.Machine

/-! ## Copies in the byte store -/

/-- The bits of a read lie within its bytes. -/
theorem Memory.read_bit_high (mem : Memory) (a : Addr) (n k : Nat) (h : 8 * n ≤ k) :
    (mem.read a n).getLsbD k = false := by
  induction n generalizing a k with
  | zero => exact BitVec.getLsbD_zero
  | succ n ih =>
    rw [Memory.read, BitVec.getLsbD_or, BitVec.getLsbD_setWidth, BitVec.getLsbD_of_ge _ k (by omega),
      BitVec.getLsbD_shiftLeft, ih (a + 1) (k - 8) (by omega)]
    simp

/-- A copy reads as what was copied. -/
theorem Memory.read_copy {mem : Memory} (h : mem.wf = true) (a b : Addr) {n : Nat} (hn : n ≤ 4) :
    (mem.write a (mem.read b n) n).read a n = mem.read b n := by
  refine BitVec.eq_of_getLsbD_eq fun k _ => ?_
  rw [Memory.read_write_bit a _ n hn h]
  by_cases hk : k < 8 * n
  · rw [decide_eq_true hk, Bool.true_and]
  · rw [decide_eq_false hk, Bool.false_and, Memory.read_bit_high mem b n k (Nat.le_of_not_lt hk)]

/-- The bytes of `n` units, copied one unit after another. -/
def copyUnits (w : Width) (sstep dstep : Addr) : Nat → Addr → Addr → Memory → Memory
  | 0, _, _, mem => mem
  | n + 1, src, dst, mem =>
    copyUnits w sstep dstep n (src + sstep) (dst + dstep) (mem.write dst (mem.read src w.bytes) w.bytes)

theorem unitByte_zero (base step : Addr) (k : Nat) : unitByte base step 0 k = (base + BitVec.ofNat 32 k).toNat := by
  simp [unitByte]

theorem unitByte_succ (base step : Addr) (j k : Nat) :
    unitByte base step (j + 1) k = unitByte (base + step) step j k := by
  unfold unitByte; rw [step_assoc]

section copies
variable {w : Width} {sstep dstep : Addr}

/-- Copies leave every byte outside their destinations alone. -/
theorem copyUnits_get {n : Nat} {src dst : Addr} {mem : Memory} {b : Nat}
    (h : ∀ j < n, ∀ k < w.bytes, unitByte dst dstep j k ≠ b) :
    (copyUnits w sstep dstep n src dst mem).get b = mem.get b := by
  induction n generalizing src dst mem with
  | zero => rfl
  | succ n ih =>
    rw [copyUnits, ih fun j hj k hk => unitByte_succ dst dstep j k ▸ h (j + 1) (Nat.succ_lt_succ hj) k hk]
    exact Memory.get_write_other _ _ _ _ _ fun k hk => unitByte_zero dst dstep k ▸ h 0 (Nat.succ_pos n) k hk

/-- Where the destinations overlap neither each other nor a source, each copy reads as its source did (R176). -/
theorem copyUnits_read {n : Nat} {src dst : Addr} {mem : Memory} (hmem : mem.wf = true)
    (hsrc : ∀ i < n, ∀ j < n, ∀ k < w.bytes, ∀ l < w.bytes, unitByte dst dstep i k ≠ unitByte src sstep j l)
    (hdst : ∀ i < n, ∀ j < n, i ≠ j → ∀ k < w.bytes, ∀ l < w.bytes, unitByte dst dstep i k ≠ unitByte dst dstep j l)
    {j : Nat} (hj : j < n) :
    (copyUnits w sstep dstep n src dst mem).read (dst + BitVec.ofNat 32 j * dstep) w.bytes =
      mem.read (src + BitVec.ofNat 32 j * sstep) w.bytes := by
  induction n generalizing src dst mem j with
  | zero => cases hj
  | succ n ih =>
    have hw4 : w.bytes ≤ 4 := by cases w <;> decide
    rw [copyUnits]
    cases j with
    | zero =>
      simp only [BitVec.zero_mul, BitVec.add_zero]
      refine (Memory.read_congr _ _ _ _ fun l hl => copyUnits_get fun i hi k hk => ?_).trans
        (Memory.read_copy hmem dst src hw4)
      rw [← unitByte_zero dst dstep l, ← unitByte_succ]
      exact hdst (i + 1) (by omega) 0 (by omega) (Nat.succ_ne_zero i) k hk l hl
    | succ j =>
      rw [← step_assoc, ← step_assoc, ih (Memory.wf_write _ _ _ hmem)]
      · refine Memory.read_congr _ _ _ _ fun l hl => Memory.get_write_other _ _ _ _ _ fun k hk => ?_
        rw [← unitByte_zero dst dstep k]
        change _ ≠ unitByte (src + sstep) sstep j l
        rw [← unitByte_succ]
        exact hsrc 0 (by omega) (j + 1) hj k hk l hl
      · intro i hi j hj k hk l hl
        rw [← unitByte_succ, ← unitByte_succ]
        exact hsrc (i + 1) (by omega) (j + 1) (by omega) k hk l hl
      · intro i hi j hj hij k hk l hl
        rw [← unitByte_succ, ← unitByte_succ]
        exact hdst (i + 1) (by omega) (j + 1) (by omega) (by omega) k hk l hl
      · exact Nat.lt_of_succ_lt_succ hj

end copies

/-! ## The units as copies -/

/-- No turn left answers a read or loses a write. -/
def BytesServed (s : State) : Prop := ∀ turn ∈ s.bus, turn.answer = none

theorem BytesServed.headD {s : State} (h : BytesServed s) (k : Nat) : ((s.bus.drop k).headD .plain).answer = none := by
  rw [List.headD_eq_head?_getD]
  cases hd : (s.bus.drop k).head? with
  | none => rfl
  | some turn => exact h turn (List.mem_of_mem_drop (List.mem_of_head? hd))

/-- The read of a unit outside the register window is the byte store's. -/
theorem unitRead_served {s : State} (h : BytesServed s) {w : Width} {src dst : Addr} (ha : w.align src = src)
    (hw : windowOffset s.cfg src = none) (hb : openBus s.cfg src dst = false) :
    (unitRead w src dst s).1 = s.mem.read src w.bytes := by
  have answer : s.turn.answer = none := h.headD 0
  have store : memRead w src s.startAccess = s.mem.read src w.bytes := by
    rw [memRead_outside (by rwa [startAccess_cfg, ha]), ha]
    exact congrArg (·.read src w.bytes) (arrive_mem _ _)
  rw [unitRead_of_not_open hb, busRead_of_turn rfl, ha, hw, answer]
  exact store

/-- A unit is the copy of its bytes. -/
theorem dmaUnit_served {s : State} (h : BytesServed s) {ch : Fin 4} {w : Width} {src dst : Addr}
    (hs : w.align src = src) (hd : w.align dst = dst) (hsw : windowOffset s.cfg src = none) (hdw : windowOffset s.cfg dst = none)
    (hb : openBus s.cfg src dst = false) :
    ∃ t, dmaUnit ch w src dst s = .next t ∧ t.cfg = s.cfg ∧ BytesServed t ∧
      t.mem = s.mem.write dst (s.mem.read src w.bytes) w.bytes := by
  refine ⟨_, dmaUnit_outside hd hdw, arrive_cfg _ _, fun turn ht => h turn (List.mem_of_mem_drop ht), ?_⟩
  simp only [h.headD, if_true, unitRead_served h hs hsw hb]

/-- The units are the copies of their bytes. -/
theorem dmaUnits_served {ch : Fin 4} {p : Plan} (hss : p.width.align p.sstep = p.sstep)
    (hds : p.width.align p.dstep = p.dstep) {n : Nat} {src dst : Addr} {s : State} (h : BytesServed s)
    (hs : p.width.align src = src) (hd : p.width.align dst = dst)
    (hsw : ∀ j < n, windowOffset s.cfg (src + BitVec.ofNat 32 j * p.sstep) = none)
    (hdw : ∀ j < n, windowOffset s.cfg (dst + BitVec.ofNat 32 j * p.dstep) = none)
    (hb : ∀ j < n, openBus s.cfg (src + BitVec.ofNat 32 j * p.sstep) (dst + BitVec.ofNat 32 j * p.dstep) = false) :
    ∃ t, dmaUnits ch p n src dst s = .next t ∧ t.mem = copyUnits p.width p.sstep p.dstep n src dst s.mem := by
  induction n generalizing src dst s with
  | zero => exact ⟨_, rfl, rfl⟩
  | succ n ih =>
    have first : ∀ a d : Addr, a + BitVec.ofNat 32 0 * d = a := fun a d => by simp
    obtain ⟨t, ht, hcfg, hserved, hmem⟩ := dmaUnit_served (ch := ch) h hs hd (first src _ ▸ hsw 0 (Nat.succ_pos n))
      (first dst _ ▸ hdw 0 (Nat.succ_pos n))
      (by have := hb 0 (Nat.succ_pos n); rwa [first, first] at this)
    obtain ⟨u, hu, humem⟩ := ih (src := src + p.sstep) (dst := dst + p.dstep) hserved (align_add hs hss)
      (align_add hd hds) (fun j hj => by rw [step_assoc, hcfg]; exact hsw (j + 1) (Nat.succ_lt_succ hj))
      (fun j hj => by rw [step_assoc, hcfg]; exact hdw (j + 1) (Nat.succ_lt_succ hj))
      (fun j hj => by rw [step_assoc, step_assoc, hcfg]; exact hb (j + 1) (Nat.succ_lt_succ hj))
    exact ⟨u, by rw [dmaUnits, ht]; exact hu, by rw [humem, hmem, copyUnits]⟩

/-- Settles O33: the units are copies in the byte store, and nothing overlaps. -/
theorem transferMovesTheData : Obligations.TransferMovesTheData := by
  intro c reason mask s t p hc hone hp hout hmem hserved hsw hopen hsrc hdst h j hj
  obtain ⟨-, hs, hd, hss, hds⟩ := plan_aligned hp
  obtain ⟨mem, new, hu, done, -⟩ := checkAndTrigger_outside hc hone hp hout
  have copied : mem = copyUnits p.width p.sstep p.dstep p.count p.src p.dst s.mem := by
    obtain ⟨u, hu', humem⟩ := dmaUnits_served (ch := c) hss hds hserved hs hd hsw hout hopen
    rw [hu] at hu'
    injection hu' with hu'
    rw [← humem, ← hu']; rfl
  change checkAndTrigger reason mask s = .next t at h
  rw [done] at h
  injection h with h
  subst h
  have hcfg : (afterUnits c reason p s.m (unitsDone p mem new s)).cfg = s.cfg := arrive_cfg _ _
  have alignedS := align_add hs (align_mul (BitVec.ofNat 32 j) hss)
  have alignedD := align_add hd (align_mul (BitVec.ofNat 32 j) hds)
  rw [memRead_outside (by rw [hcfg, alignedD]; exact hout j hj), memRead_outside (by rw [alignedS]; exact hsw j hj),
    alignedS, alignedD]
  change mem.read _ _ = _
  rw [copied]
  exact copyUnits_read hmem hsrc hdst hj

end Sys2Proof.Machine
end

section
/-! SUPPORT. The period law (R208): the cycles at which a free-running timer overflows while a span is accounted, and the
countdown it is left with, composed sub-step by sub-step. -/

namespace Sys2Proof.Machine

/-! ## The cycles of the overflows, and the countdown left -/

/-- The cycles, oldest first, at which a timer overflows in the `n` cycles from `now` on, where its countdown is `ticks` and
its period `period`. -/
def overflowCycles (period now ticks n : Nat) : List Nat :=
  (List.range (if n < ticks then 0 else (n - ticks) / period + 1)).map fun k => now + ticks + k * period

/-- The countdown that such a timer is left with. -/
def countdownAfter (period ticks n : Nat) : Nat :=
  if n < ticks then ticks - n else period - (n - ticks) % period

/-- Cycles that end before the overflow lower the countdown. -/
theorem overflowCycles_before {period now ticks a : Nat} (h : a < ticks) (b : Nat) :
    overflowCycles period now ticks (a + b) = overflowCycles period (now + a) (ticks - a) b := by
  have span : (a + b < ticks) = (b < ticks - a) := propext (by omega)
  have rest : a + b - ticks = b - (ticks - a) := by omega
  have first : now + a + (ticks - a) = now + ticks := by omega
  simp only [overflowCycles, span, rest, first]

theorem countdownAfter_before {period ticks a : Nat} (h : a < ticks) (b : Nat) :
    countdownAfter period ticks (a + b) = countdownAfter period (ticks - a) b := by
  have span : (a + b < ticks) = (b < ticks - a) := propext (by omega)
  have rest : a + b - ticks = b - (ticks - a) := by omega
  have left : ticks - (a + b) = ticks - a - b := by omega
  simp only [countdownAfter, span, rest, left]

/-- The overflow at the end of the countdown starts a new period. -/
theorem overflowCycles_at {period : Nat} (hp : 1 ≤ period) (now ticks b : Nat) :
    overflowCycles period now ticks (ticks + b) = (now + ticks) :: overflowCycles period (now + ticks) period b := by
  have count : (if b < period then 0 else (b - period) / period + 1) = b / period := by
    split
    case isTrue h => exact (Nat.div_eq_of_lt h).symm
    case isFalse h => exact (Nat.div_eq_sub_div hp (Nat.le_of_not_lt h)).symm
  simp only [overflowCycles, count, if_neg (Nat.not_lt.mpr (Nat.le_add_right ticks b)), Nat.add_sub_cancel_left,
    List.range_succ_eq_map, List.map_cons, List.map_map, Nat.zero_mul, Nat.add_zero, List.cons.injEq, true_and]
  refine List.map_congr_left fun k _ => ?_
  simp only [Function.comp_apply, Nat.succ_mul]
  omega

theorem countdownAfter_at (period ticks b : Nat) :
    countdownAfter period ticks (ticks + b) = countdownAfter period period b := by
  simp only [countdownAfter, if_neg (Nat.not_lt.mpr (Nat.le_add_right ticks b)), Nat.add_sub_cancel_left]
  split
  case isTrue h => rw [Nat.mod_eq_of_lt h]
  case isFalse h => rw [Nat.mod_eq_sub_mod (Nat.le_of_not_lt h)]

theorem period_pos (m : Block) (i : Fin 4) : 1 ≤ m.period i := cyclesFrom_pos _ _

/-! ## An accounted span (R124, R125) -/

/-- What `n` cycles do to a free-running timer: it keeps running at its period, its overflows are recorded at their cycles,
and its countdown runs on. -/
structure FreeRun (i : Fin 4) (n : Nat) (s t : State) : Prop where
  running : freeRunning i (t.m.timer i) = true
  period : t.m.period i = s.m.period i
  record : overflowTimes i t.trace =
    (overflowCycles (s.m.period i) s.m.cycleCounter (s.m.timer i).ticks n).reverse ++ overflowTimes i s.trace
  ticks : (t.m.timer i).ticks = countdownAfter (s.m.period i) (s.m.timer i).ticks n

/-- A sub-step of `a` cycles, within the countdown, and the span after it. -/
theorem FreeRun.trans_subStep {i : Fin 4} {a b : Nat} {s u t : State} (ha : a ≤ (s.m.timer i).ticks)
    (hcc : u.m.cycleCounter = s.m.cycleCounter + a) (hp : u.m.period i = s.m.period i)
    (hu : (u.m.timer i).ticks = if (s.m.timer i).ticks = a then s.m.period i else (s.m.timer i).ticks - a)
    (hrec : overflowTimes i u.trace = if (s.m.timer i).ticks = a then (s.m.cycleCounter + a) :: overflowTimes i s.trace
      else overflowTimes i s.trace)
    (h : FreeRun i b u t) : FreeRun i (a + b) s t := by
  refine ⟨h.running, h.period.trans hp, ?_, ?_⟩
  · rw [h.record, hp, hcc, hu, hrec]
    by_cases e : (s.m.timer i).ticks = a
    · subst e
      rw [if_pos rfl, if_pos rfl, overflowCycles_at (period_pos s.m i)]
      simp
    · rw [if_neg e, if_neg e, overflowCycles_before (by omega)]
  · rw [h.ticks, hp, hu]
    by_cases e : (s.m.timer i).ticks = a
    · subst e
      rw [if_pos rfl, countdownAfter_at]
    · rw [if_neg e, countdownAfter_before (by omega)]

theorem FreeRun.refl {i : Fin 4} {s : State} (hs : s.m.Inv s.cfg) (hf : freeRunning i (s.m.timer i) = true) :
    FreeRun i 0 s s := by
  have hpos : 0 < (s.m.timer i).ticks := (hs.ticks i hf).1
  exact ⟨hf, rfl, by simp [overflowCycles, hpos], by simp [countdownAfter, hpos]⟩

/-- Without DMA an accounted span lets a free-running timer run freely. -/
theorem accountLoop_freeRun {i : Fin 4} {src : Source} {fuel rem : Nat} {s t : State} (hs : s.m.Inv s.cfg)
    (ha : s.m.noneArmed) (hf : freeRunning i (s.m.timer i) = true) (h : accountLoop src fuel rem s = .next t) :
    FreeRun i rem s t := by
  induction fuel generalizing rem s with
  | zero =>
    cases rem with
    | zero => injection h with h; subst h; exact FreeRun.refl hs hf
    | succ r => cases h
  | succ fuel ih =>
    cases rem with
    | zero => injection h with h; subst h; exact FreeRun.refl hs hf
    | succ r =>
      obtain ⟨within, hle⟩ := capped_spec s.m (r + 1)
      obtain ⟨u, hu, elapsed, quiet, -, -, -, timers⟩ := subStep_quiet (src := src) hs ha within
      obtain ⟨htimer, hrec⟩ := timers i hf
      simp only [accountLoop] at h
      split at h
      · cases h
      rw [hu, andThen_next] at h
      have shift : (u.m.timer i).shift = (s.m.timer i).shift := by rw [htimer]
      have period : u.m.period i = s.m.period i := by rw [Block.period, quiet.reload i, shift]; rfl
      have running : freeRunning i (u.m.timer i) = true := by rw [htimer]; exact hf
      have span := FreeRun.trans_subStep (within _ (timer_mem_countdowns hf)) elapsed.cycleCounter period
        (by rw [htimer]) hrec (ih elapsed.inv (quiet.noneArmed ha) running h)
      rwa [Nat.add_sub_cancel' hle] at span

theorem overflowTimes_append (i : Fin 4) (new old : List Event) :
    overflowTimes i (new ++ old) = overflowTimes i new ++ overflowTimes i old := List.filterMap_append

/-- Settles O40, by induction over the sub-steps: each either lowers the countdown or, at its end, starts a new period. -/
theorem timerOverflowsOncePerPeriod : Obligations.TimerOverflowsOncePerPeriod := by
  intro i n src s t hs ha hf h
  obtain ⟨new, hnew⟩ := (account_elapsed hs h).trace
  have run : FreeRun i n s t := accountLoop_freeRun hs ha hf h
  have recorded : overflowTimes i new = (overflowCycles (s.m.period i) s.m.cycleCounter (s.m.timer i).ticks n).reverse := by
    have := run.record
    rw [hnew, overflowTimes_append] at this
    exact List.append_cancel_right this
  exact ⟨new, hnew, by rw [recorded, List.reverse_reverse]; rfl, run.ticks⟩

end Sys2Proof.Machine
end

section
/-! SUPPORT. The timers' port operations and the deferred apply (R200 to R202, R206). -/

namespace Sys2Proof.Machine

/-! ## The reload and the control entry (R200, R201) -/

/-- An entry of a timer has an even offset below 0x400. -/
theorem tmBase_entry (i : Fin 4) {k : Nat} (hk : k ≤ 2) (he : k % 2 = 0) :
    tmBase i + k < 0x400 ∧ (tmBase i + k) % 2 = 0 :=
  ⟨(tmBase_ordinary i hk he).1, (tmBase_ordinary i hk he).2.1⟩

/-- Settles O11: the write is a store, by timer. -/
theorem timerReloadWriteChangesTheReloadAlone : Obligations.TimerReloadWriteChangesTheReloadAlone := fun i _ _ =>
  store_effect (tmBase_entry i (k := 0) (by decide) rfl) (by fin_cases i <;> rfl)

theorem tmBase_add_two (i : Fin 4) : tmBase i + 2 = 0x102 + 4 * i.val := by unfold tmBase; omega

theorem exec_timerControl (i : Fin 4) (v : Half) (s : State) :
    exec (pick i (.wTm0CntH v) (.wTm1CntH v) (.wTm2CntH v) (.wTm3CntH v)) s = .next (writeTimerControl i v s) := by
  fin_cases i <;> rfl

/-- Settles O12: a store, and a mark on the one timer. -/
theorem timerControlWriteIsDeferred : Obligations.TimerControlWriteIsDeferred := by
  intro i v s
  obtain ⟨hlt, heven⟩ := tmBase_entry i (k := 2) (by decide) rfl
  rw [tmBase_add_two] at hlt heven
  have entries : writeTimerControl i v s = (s.onBlock fun m => m.setIo (0x102 + 4 * i.val) (v &&& 0x00C7)).onBlock
      fun m => m.setTimer i { m.timer i with pending := true } := by
    rw [writeTimerControl, tmBase_add_two]; rfl
  refine ⟨_, exec_timerControl i v s, ?entry, fun j => ?timers, rfl, ?others, fun _ => rfl⟩ <;> rw [entries]
  case entry => exact getIo_setIo_same s.m _ _
  case timers =>
    rw [onBlock_m, timer_setTimer]
    simp only [eq_comm (a := i), onBlock_m, setIo_timer]
  case others => exact sameEntries_setIo hlt heven _ s

/-! ## The visible count (R36, R206) -/

/-- `Visible(i)` spelled out. -/
theorem visible_eq (m : Block) (i : Fin 4) : m.visible i =
    if (m.timer i).running = true ∧ ¬(i ≠ 0 ∧ (m.timer i).cascade = true) then
      0xFFFF - BitVec.ofNat 16 ((m.timer i).ticks / 2 ^ (m.timer i).shift.shift)
    else (m.timer i).value := by
  simp only [Block.visible, visibleCount, freeRunning_iff]

/-- Settles O13: the read hands out `Visible`, by timer. -/
theorem timerCountReadReturnsTheVisibleCount : Obligations.TimerCountReadReturnsTheVisibleCount := by
  intro i s
  have modulo : ∀ n : Nat, BitVec.ofInt 16 (0xFFFF - (n : Int)) = 0xFFFF - BitVec.ofNat 16 n := fun n => by
    rw [Int.sub_eq_add_neg, BitVec.ofInt_add, BitVec.ofInt_neg, BitVec.ofInt_natCast, BitVec.sub_eq_add_neg]; rfl
  have count := exec_countRead i s
  rw [visible_eq, ← modulo] at count
  exact count

/-- Settles O14: the countdown is `0x10000 - r - k`, and the count is its difference to `0xFFFF`. -/
theorem visibleCountRunsFromReloadMinusOne : Obligations.VisibleCountRunsFromReloadMinusOne := by
  intro m i r k hf hs hk ht
  have hr := r.isLt
  rw [visible_eq, if_pos (freeRunning_iff.mp hf), hs, ht]
  have unscaled : ∀ n, n / 2 ^ Prescale.by1.shift = n := Nat.div_one
  rw [unscaled]
  have one : (1 : Half).toNat = 1 := rfl
  have top : (0xFFFF : Half).toNat = 0xFFFF := rfl
  refine BitVec.eq_of_toNat_eq ?_
  simp only [BitVec.toNat_sub, BitVec.toNat_add, BitVec.toNat_ofNat, one, top]
  omega

/-! ## The deferred apply (R202) -/

/-- `PS` selects the prescaler. -/
theorem ofControl_shift (ctl : Half) : (Prescale.ofControl ctl).shift =
    if ctl.extractLsb' 0 2 = 0 then 0 else if ctl.extractLsb' 0 2 = 1 then 6 else
      if ctl.extractLsb' 0 2 = 2 then 8 else 10 := by
  rw [Prescale.ofControl, field_eq_extract]
  rcases bitVec2_cases (ctl.extractLsb' 0 2) with h | h | h | h <;> rw [h] <;> rfl

/-- What the apply does to the timer: the control fields are latched; value and countdown are those of a start, a stop, a
change of the cascade bit, or as before. -/
theorem applyTimer_eq (i : Fin 4) (ctl reload : Half) (t : Timer) : applyTimer i ctl reload t =
    { value :=
        if t.running = false ∧ ctl.getLsbD 7 = true then reload
        else if t.running = true ∧ (ctl.getLsbD 7 = false ∨
          (¬(i ≠ 0 ∧ t.cascade = true) ∧ i ≠ 0 ∧ ctl.getLsbD 2 = true)) then visibleCount i t
        else t.value
      shift := Prescale.ofControl ctl
      cascade := ctl.getLsbD 2
      irqEnable := ctl.getLsbD 6
      running := ctl.getLsbD 7
      ticks :=
        if t.running = false ∧ ctl.getLsbD 7 = true then cyclesFrom reload (Prescale.ofControl ctl)
        else if t.running = true ∧ ctl.getLsbD 7 = true ∧ i ≠ 0 ∧ t.cascade = true ∧ ctl.getLsbD 2 = false then
          cyclesFrom t.value (Prescale.ofControl ctl)
        else t.ticks
      pending := false } := by
  unfold applyTimer
  cases hr : t.running <;> cases he : ctl.getLsbD 7
  case false.false => simp
  case false.true => simp
  case true.false => simp
  case true.true =>
    by_cases hi : i = 0
    · simp [casc, hi]
    · cases hold : t.cascade <;> cases hnew : ctl.getLsbD 2 <;> simp [casc, hi, hold]

/-- Settles O38: the apply changes one timer, as `applyTimer_eq` says. -/
theorem timerApplyLatchesStartsAndStops : Obligations.TimerApplyLatchesStartsAndStops := by
  intro i s
  have applied : (s.m.timerApply i).timer i =
      applyTimer i (s.m.getIo (0x102 + 4 * i.val)) (s.m.getIo (0x100 + 4 * i.val)) (s.m.timer i) := by
    rw [← tmBase_add_two]; exact timer_setTimer_same _ _ _
  refine ⟨s.onBlock fun m => m.timerApply i, rfl, ?_⟩
  rw [onBlock_m, applied, applyTimer_eq]
  exact ⟨ofControl_shift _, rfl, rfl, rfl, rfl, rfl, rfl,
    fun j hj => (timer_setTimer _ _ _ _).trans (if_neg (Ne.symm hj)), rfl, fun _ _ _ _ => rfl, fun _ => rfl⟩

end Sys2Proof.Machine
end

section
/-! SUPPORT. A timer step (R203 to R205): what one turn does to the timer, what an overflow changes before its FIFO trigger,
and the four turns in order. -/

namespace Sys2Proof.Machine

/-! ## The timer whose turn it is (R203, R204) -/

theorem casc_iff {i : Fin 4} {t : Timer} : casc i t = true ↔ i ≠ 0 ∧ t.cascade = true := by simp [casc]

theorem add_one_eq_zero_iff (v : Half) : v + 1 = 0 ↔ v = 0xFFFF := by
  constructor
  · intro h; bv_omega
  · rintro rfl; rfl

/-- Timer `i` overflows in its turn: a cascaded timer that is told of its predecessor's overflow at its last count, another
at the end of its countdown. -/
def Timer.Overflows (i : Fin 4) (before : Bool) (t : Timer) : Prop :=
  t.running = true ∧ (((i ≠ 0 ∧ t.cascade = true) ∧ before = true ∧ t.value = 0xFFFF) ∨
    (¬(i ≠ 0 ∧ t.cascade = true) ∧ t.ticks = 0))

/-- The timer after an overflow. -/
def Timer.reloaded (i : Fin 4) (reload : Half) (t : Timer) : Timer :=
  if i ≠ 0 ∧ t.cascade = true then { t with value := reload } else { t with ticks := cyclesFrom reload t.shift }

/-- The timer after a turn without an overflow: a running cascaded timer counts the overflow it is told of. -/
def Timer.counted (i : Fin 4) (before : Bool) (t : Timer) : Timer :=
  if t.running = true ∧ (i ≠ 0 ∧ t.cascade = true) ∧ before = true then { t with value := t.value + 1 } else t

theorem tick_of_overflows {i : Fin 4} {before : Bool} {t : Timer} (h : t.Overflows i before) (reload : Half) :
    tick i reload before t = (t.reloaded i reload, true) := by
  obtain ⟨hr, ⟨hc, hb, hv⟩ | ⟨hc, ht⟩⟩ := h
  · rw [tick, if_pos hr, if_pos (casc_iff.mpr hc), if_pos hb, if_pos ((add_one_eq_zero_iff _).mpr hv), Timer.reloaded,
      if_pos hc]
  · rw [tick, if_pos hr, if_neg (casc_iff.not.mpr hc), if_pos ht, Timer.reloaded, if_neg hc, ht, Nat.zero_add]

theorem tick_of_not_overflows {i : Fin 4} {before : Bool} {t : Timer} (h : ¬t.Overflows i before) (reload : Half) :
    tick i reload before t = (t.counted i before, false) := by
  unfold tick Timer.counted
  by_cases hr : t.running = true
  · by_cases hc : i ≠ 0 ∧ t.cascade = true
    · rw [if_pos hr, if_pos (casc_iff.mpr hc)]
      by_cases hb : before = true
      · rw [if_pos hb, if_neg fun hv => h ⟨hr, .inl ⟨hc, hb, (add_one_eq_zero_iff _).mp hv⟩⟩, if_pos ⟨hr, hc, hb⟩]
      · rw [if_neg hb, if_neg fun hx => hb hx.2.2]
    · rw [if_pos hr, if_neg (casc_iff.not.mpr hc), if_neg fun ht => h ⟨hr, .inr ⟨hc, ht⟩⟩, if_neg fun hx => hc hx.2.1]
  · rw [if_neg hr, if_neg fun hx => hr hx.1]

theorem tick_overflows_iff {i : Fin 4} {reload : Half} {before : Bool} {t : Timer} :
    (tick i reload before t).2 = true ↔ t.Overflows i before := by
  by_cases h : t.Overflows i before
  · simp [tick_of_overflows h, h]
  · simp [tick_of_not_overflows h, h]

theorem reloaded_irqEnable (i : Fin 4) (reload : Half) (t : Timer) : (t.reloaded i reload).irqEnable = t.irqEnable := by
  unfold Timer.reloaded; split <;> rfl

/-! ## An overflow before its FIFO trigger (R205) -/

theorem overflowed_timer (i j : Fin 4) (s : State) : (overflowed i s).m.timer j = s.m.timer j := raiseIfGated_timer _ _ _ _

theorem overflowed_if (i : Fin 4) (s : State) : (overflowed i s).m.getIo 0x202 =
    if (s.m.timer i).irqEnable = true then s.m.getIo 0x202 ||| ((1 : Half) <<< (3 + i.val)) else s.m.getIo 0x202 := by
  rw [overflowed, raiseIfGated_eq]
  split
  · exact getIo_setIo_same _ _ _
  · rfl

theorem overflowed_sameEntries (i : Fin 4) (s : State) : sameEntries [0x202] s (overflowed i s) := fun _ ha he hn =>
  raiseIfGated_getIo_ne _ _ _ (slot_ne_of_ne (by decide) ha (by decide) he fun e => hn (e ▸ List.mem_singleton.mpr rfl))

/-- An overflow changes the register file, tells audio, and takes its answer. -/
theorem overflowed_rest (i : Fin 4) (s : State) : overflowed i s = { s with
    m := { s.m with io := (overflowed i s).m.io }
    audio := s.audio.tail
    trace := .audio i (s.audio.headD 0) s.m.cycleCounter :: s.trace } := by
  unfold overflowed
  cases (s.m.timer i).irqEnable <;> rfl

/-- The state after timer `i` is reloaded and its overflow has told audio and raised its flag, before the FIFO trigger. -/
def reloadedState (i : Fin 4) (s : State) : State :=
  overflowed i (s.onBlock fun m => m.setTimer i ((m.timer i).reloaded i (m.reload i)))

theorem reloadedState_timer (i j : Fin 4) (s : State) : (reloadedState i s).m.timer j =
    if i = j then (s.m.timer i).reloaded i (s.m.reload i) else s.m.timer j :=
  (overflowed_timer _ _ _).trans (timer_setTimer _ _ _ _)

theorem reloadedState_if (i : Fin 4) (s : State) : (reloadedState i s).m.getIo 0x202 =
    if (s.m.timer i).irqEnable = true then s.m.getIo 0x202 ||| ((1 : Half) <<< (3 + i.val)) else s.m.getIo 0x202 := by
  rw [reloadedState, overflowed_if, onBlock_m, timer_setTimer_same, reloaded_irqEnable, setTimer_getIo]

theorem reloadedState_rest (i : Fin 4) (s : State) : reloadedState i s = { s with
    m := { s.m with io := (reloadedState i s).m.io, timers := (reloadedState i s).m.timers }
    audio := s.audio.tail
    trace := .audio i (s.audio.headD 0) s.m.cycleCounter :: s.trace } := by
  unfold reloadedState
  rw [overflowed_rest]; rfl

theorem reloadedState_sameEntries (i : Fin 4) (s : State) : sameEntries [0x202] s (reloadedState i s) :=
  overflowed_sameEntries i _

/-! ## One turn -/

/-- A turn with an overflow. -/
theorem stepTimer_of_overflows {i : Fin 4} {before : Bool} {s : State} (h : (s.m.timer i).Overflows i before) :
    stepTimer i before s = if s.audio.headD 0 ≠ 0
      then andThen (exec (.evDmaTrigger 3 (s.audio.headD 0 &&& 0b0110)) (reloadedState i s)) fun t => .next (t, true)
      else .next (reloadedState i s, true) := by
  have overflows : overflow i (s.onBlock fun m => m.setTimer i ((s.m.timer i).reloaded i (s.m.reload i))) =
      if s.audio.headD 0 ≠ 0 then exec (.evDmaTrigger 3 (s.audio.headD 0 &&& 0b0110)) (reloadedState i s)
      else .next (reloadedState i s) := rfl
  simp only [stepTimer, tick_of_overflows h, if_true, overflows]
  by_cases answer : s.audio.headD 0 ≠ 0
  · rw [if_pos answer, if_pos answer]
  · rw [if_neg answer, if_neg answer]; rfl

/-- A turn without one. -/
theorem stepTimer_of_not_overflows {i : Fin 4} {before : Bool} {s : State} (h : ¬(s.m.timer i).Overflows i before) :
    stepTimer i before s = .next (s.onBlock fun m => m.setTimer i ((m.timer i).counted i before), false) := by
  simp only [stepTimer, tick_of_not_overflows h]; rfl

/-! ## Four turns without DMA -/

/-- Whether timer `i` is told that its predecessor overflowed (R203). -/
def Block.told (m : Block) : Nat → Bool
  | 0 => false
  | k + 1 => (tick (Fin.ofNat 4 k) (m.reload (Fin.ofNat 4 k)) (m.told k) (m.timer (Fin.ofNat 4 k))).2

/-- Whether timer `i` overflows in a timer step. -/
def Block.overflows (m : Block) (i : Fin 4) : Bool := (tick i (m.reload i) (m.told i.val) (m.timer i)).2

/-- Timer `i` after a timer step. -/
def Block.ticked (m : Block) (i : Fin 4) : Timer := (tick i (m.reload i) (m.told i.val) (m.timer i)).1

theorem told_eq_overflows (m : Block) {i : Fin 4} (h : i ≠ 0) : m.told i.val = m.overflows (i - 1) :=
  match i, h with
  | 1, _ | 2, _ | 3, _ => rfl

theorem overflows_iff (m : Block) (i : Fin 4) : m.overflows i = true ↔ (m.timer i).running = true ∧
    (if i ≠ 0 ∧ (m.timer i).cascade = true then m.overflows (i - 1) = true ∧ (m.timer i).value = 0xFFFF
      else (m.timer i).ticks = 0) := by
  rw [Block.overflows, tick_overflows_iff, Timer.Overflows]
  by_cases hc : i ≠ 0 ∧ (m.timer i).cascade = true
  · rw [if_pos hc, told_eq_overflows m hc.1]
    simp only [hc, not_true_eq_false, false_and, or_false, true_and, ne_eq, not_false_eq_true, and_self]
  · rw [if_neg hc]
    simp only [hc, not_false_eq_true, false_and, false_or, true_and]

theorem ticked_eq (m : Block) (i : Fin 4) : m.ticked i =
    if i ≠ 0 ∧ (m.timer i).cascade = true then
      (if m.overflows i = true then { m.timer i with value := m.reload i }
       else if (m.timer i).running = true ∧ m.overflows (i - 1) = true
        then { m.timer i with value := (m.timer i).value + 1 } else m.timer i)
    else if m.overflows i = true then { m.timer i with ticks := cyclesFrom (m.reload i) (m.timer i).shift }
      else m.timer i := by
  by_cases h : (m.timer i).Overflows i (m.told i.val)
  · have ovf : m.overflows i = true := tick_overflows_iff.mpr h
    rw [Block.ticked, tick_of_overflows h, Timer.reloaded, if_pos ovf, if_pos ovf]
  · have ovf : ¬m.overflows i = true := tick_overflows_iff.not.mpr h
    rw [Block.ticked, tick_of_not_overflows h, Timer.counted, if_neg ovf, if_neg ovf]
    by_cases hc : i ≠ 0 ∧ (m.timer i).cascade = true
    · rw [if_pos hc, told_eq_overflows m hc.1]
      simp only [hc, not_false_eq_true, true_and, ne_eq, and_self]
    · rw [if_neg hc, if_neg fun hx => hc hx.2.1]

/-- What audio is told of the overflows of the timers in `done`, in that order, with its answers. -/
def audioCalls (s : State) (done : List (Fin 4)) : List Event :=
  (done.filter s.m.overflows).mapIdx fun k i => .audio i (s.audio.getD k 0) s.m.cycleCounter

/-- What the turns of the timers in `done` have done where no DMA channel is armed. -/
structure TurnsDone (done : List (Fin 4)) (s t : State) : Prop where
  timers : ∀ j, t.m.timer j = if j ∈ done then s.m.ticked j else s.m.timer j
  flags : ∀ b, (t.m.getIo 0x202).getLsbD b = ((s.m.getIo 0x202).getLsbD b ||
    decide (∃ i ∈ done, b = 3 + i.val ∧ s.m.overflows i = true ∧ (s.m.timer i).irqEnable = true))
  trace : t.trace = (audioCalls s done).reverse ++ s.trace
  audio : t.audio = s.audio.drop (done.filter s.m.overflows).length
  rest : t = { s with m := { s.m with io := t.m.io, timers := t.m.timers }, audio := t.audio, trace := t.trace }
  entries : sameEntries [0x202] s t

theorem TurnsDone.nil (s : State) : TurnsDone [] s s where
  timers _ := rfl
  flags b := by simp
  trace := rfl
  audio := rfl
  rest := rfl
  entries _ _ _ _ := rfl

theorem getLsbD_one_shiftLeft {k : Nat} (hk : k < 16) (b : Nat) : ((1 : Half) <<< k).getLsbD b = decide (b = k) := by
  have bit := BitVec.getLsbD_twoPow (w := 16) k b
  rw [BitVec.twoPow, decide_eq_true hk, Bool.true_and] at bit
  exact bit.trans (decide_eq_decide.mpr eq_comm)

/-- The turns leave every control entry alone. -/
theorem TurnsDone.noneArmed {done : List (Fin 4)} {s u : State} (h : TurnsDone done s u) (hs : s.m.noneArmed) :
    u.m.noneArmed := fun c => by
  obtain ⟨hlt, heven⟩ := dmaBase_entry c (k := 10) (by decide) rfl
  rw [Block.dmaControl, h.entries _ hlt heven (by revert c; decide)]
  exact hs c

theorem TurnsDone.reload {done : List (Fin 4)} {s u : State} (h : TurnsDone done s u) (i : Fin 4) :
    u.m.reload i = s.m.reload i := by
  obtain ⟨hlt, heven⟩ := tmBase_entry i (k := 0) (by decide) rfl
  exact h.entries _ hlt heven (by revert i; decide)

/-- A flag raised beside those of `done`. -/
theorem decide_exists_mem_concat {done : List (Fin 4)} {i : Fin 4} {p : Fin 4 → Prop} [DecidablePred p] :
    decide (∃ j ∈ done ++ [i], p j) = (decide (∃ j ∈ done, p j) || decide (p i)) := by
  rw [← Bool.decide_or]
  exact decide_eq_decide.mpr (by simp [or_and_right, exists_or])

/-- The next timer has ticked. -/
theorem TurnsDone.timer_concat {done : List (Fin 4)} {s u : State} (h : TurnsDone done s u) (i j : Fin 4) :
    (u.m.setTimer i (s.m.ticked i)).timer j = if j ∈ done ++ [i] then s.m.ticked j else s.m.timer j := by
  rw [timer_setTimer, h.timers]
  by_cases hj : i = j
  · subst hj; simp
  · simp [hj, Ne.symm hj]

/-- The next turn without an overflow. -/
theorem TurnsDone.count {done : List (Fin 4)} {i : Fin 4} {s u : State} (h : TurnsDone done s u)
    (ho : s.m.overflows i = false) : TurnsDone (done ++ [i]) s (u.onBlock fun m => m.setTimer i (s.m.ticked i)) := by
  have same : (done ++ [i]).filter s.m.overflows = done.filter s.m.overflows := by simp [ho]
  refine ⟨h.timer_concat i, fun b => ?flags, ?trace, ?audio, ?rest, h.entries⟩
  case flags =>
    rw [decide_exists_mem_concat, onBlock_m, setTimer_getIo, h.flags b]
    simp [ho]
  case trace => rw [audioCalls, same]; exact h.trace
  case audio => rw [same]; exact h.audio
  case rest =>
    conv_lhs => rw [h.rest]
    rfl

/-- The next overflow's call: audio's next answer. -/
theorem audioCalls_concat {done : List (Fin 4)} {i : Fin 4} {s : State} (ho : s.m.overflows i = true) :
    audioCalls s (done ++ [i]) = audioCalls s done ++
      [.audio i ((s.audio.drop (done.filter s.m.overflows).length).headD 0) s.m.cycleCounter] := by
  have next : (done ++ [i]).filter s.m.overflows = done.filter s.m.overflows ++ [i] := by simp [ho]
  rw [audioCalls, next, List.mapIdx_concat, List.headD_eq_head?_getD, List.head?_drop, ← List.getD_eq_getElem?_getD]
  rfl

theorem ticked_irqEnable (m : Block) (i : Fin 4) : (m.ticked i).irqEnable = (m.timer i).irqEnable := tick_irqEnable _ _ _ _

/-- The next turn with one. -/
theorem TurnsDone.overflow {done : List (Fin 4)} {i : Fin 4} {s u : State} (h : TurnsDone done s u)
    (ho : s.m.overflows i = true) :
    TurnsDone (done ++ [i]) s (overflowed i (u.onBlock fun m => m.setTimer i (s.m.ticked i))) := by
  have next : (done ++ [i]).filter s.m.overflows = done.filter s.m.overflows ++ [i] := by simp [ho]
  have cycle : u.m.cycleCounter = s.m.cycleCounter := by rw [h.rest]
  have raised : (overflowed i (u.onBlock fun m => m.setTimer i (s.m.ticked i))).m.getIo 0x202 =
      if (s.m.timer i).irqEnable = true then u.m.getIo 0x202 ||| ((1 : Half) <<< (3 + i.val)) else u.m.getIo 0x202 := by
    rw [overflowed_if, onBlock_m, timer_setTimer_same, ticked_irqEnable, setTimer_getIo]
  refine ⟨fun j => ?timers, fun b => ?flags, ?trace, ?audio, ?rest, fun a hlt he hn => ?entries⟩
  case timers => rw [overflowed_timer]; exact h.timer_concat i j
  case flags =>
    rw [raised, decide_exists_mem_concat, ← Bool.or_assoc, ← h.flags b]
    cases (s.m.timer i).irqEnable
    · simp
    · rw [if_pos rfl, BitVec.getLsbD_or, getLsbD_one_shiftLeft (by omega)]
      simp [ho]
  case trace =>
    rw [audioCalls_concat ho, List.reverse_append, ← h.audio, ← cycle]
    exact congrArg _ h.trace
  case audio =>
    rw [next, List.length_append, List.length_singleton, ← List.tail_drop, ← h.audio]
    rfl
  case rest =>
    rw [overflowed_rest, h.rest]; rfl
  case entries => exact (overflowed_sameEntries i _ a hlt he hn).trans (h.entries a hlt he hn)

/-- Where no channel is armed the next turn completes. -/
theorem TurnsDone.turn {done : List (Fin 4)} {s u : State} (h : TurnsDone done s u) (hs : s.m.noneArmed) {i : Fin 4}
    (hi : i ∉ done) :
    ∃ t, stepTimer i (s.m.told i.val) u = .next (t, s.m.overflows i) ∧ TurnsDone (done ++ [i]) s t := by
  have ticks : tick i (u.m.reload i) (s.m.told i.val) (u.m.timer i) = (s.m.ticked i, s.m.overflows i) := by
    rw [h.reload, h.timers, if_neg hi]; rfl
  refine ⟨_, stepTimer_quiet (h.noneArmed hs) i _ ticks, ?_⟩
  cases ho : s.m.overflows i
  · exact h.count ho
  · exact h.overflow ho

/-- Where no channel is armed a timer step is the four turns. -/
theorem timerStep_turnsDone {s : State} (hs : s.m.noneArmed) : ∃ t, timerStep s = .next t ∧ TurnsDone [0, 1, 2, 3] s t := by
  obtain ⟨t0, h0, d0⟩ := (TurnsDone.nil s).turn hs (i := 0) (by decide)
  obtain ⟨t1, h1, d1⟩ := d0.turn hs (i := 1) (by decide)
  obtain ⟨t2, h2, d2⟩ := d1.turn hs (i := 2) (by decide)
  obtain ⟨t3, h3, d3⟩ := d2.turn hs (i := 3) (by decide)
  exact ⟨t3, andThen_eq_next.mpr ⟨_, h0, andThen_eq_next.mpr ⟨_, h1, andThen_eq_next.mpr ⟨_, h2,
    andThen_eq_next.mpr ⟨_, h3, rfl⟩⟩⟩⟩, d3⟩

/-! ## One overflow, whatever is armed -/

/-- A timer that neither overflows nor counts: stopped, or free-running with its countdown not over. -/
def Timer.Idle (i : Fin 4) (t : Timer) : Prop := t.running = false ∨ (freeRunning i t = true ∧ t.ticks ≠ 0)

/-- Where every timer but one is idle a timer step is that one's turn. -/
theorem timerStep_of_one {s : State} {i : Fin 4} (h : ∀ j, j ≠ i → (s.m.timer j).Idle j) :
    timerStep s = andThen (stepTimer i false s) fun (t, _) => .next t := by
  have before : ∀ j, j ≠ i → ∀ b, stepTimer j b s = .next (s, false) := fun j hj b => stepTimer_idle b (h j hj)
  have after : ∀ t o, stepTimer i false s = .next (t, o) → ∀ j, j ≠ i → ∀ b, stepTimer j b t = .next (t, false) := by
    intro t o ht j hj b
    obtain ⟨-, -, -, -, -, others⟩ := stepTimer_effect ht
    obtain ⟨p, hp⟩ := others j hj
    exact stepTimer_idle b (by rw [hp]; exact h j hj)
  unfold timerStep
  match i, before, after with
  | 0, before, after | 1, before, after | 2, before, after =>
    simp (disch := decide) only [before, andThen_next]
    exact andThen_congr fun (t, o) ht => by simp (disch := decide) only [after t o ht, andThen_next]
  | 3, before, after => simp (disch := decide) only [before, andThen_next]

/-- Settles O39. Without DMA the four turns are `TurnsDone`; where one timer alone overflows the step is its turn; and
`stepTimer` is the turn whatever happens. -/
theorem timerStepOverflowsAndCascades : Obligations.TimerStepOverflowsAndCascades := by
  have period : ∀ (m : Block) (i : Fin 4), cyclesFrom (m.reload i) (m.timer i).shift =
      (0x10000 - (m.getIo (0x100 + 4 * i.val)).toNat) * 2 ^ (m.timer i).shift.shift := fun _ _ => rfl
  refine ⟨fun s hs => ?quiet, fun s i hf ht others => ?one, stepTimer, fun s => rfl, fun i before s => ?turn⟩
  case quiet =>
    obtain ⟨t, ht, done⟩ := timerStep_turnsDone hs
    have all : ∀ j : Fin 4, j ∈ ([0, 1, 2, 3] : List (Fin 4)) := by decide
    refine ⟨t, s.m.overflows, ht, overflows_iff s.m, fun i => ?timers, fun b => ?flags, done.trace, done.audio,
      done.rest, done.entries, fun b => by rw [done.rest]⟩
    case timers => rw [done.timers, if_pos (all i), ticked_eq]; rfl
    case flags =>
      rw [done.flags]
      simp only [all, true_and]
  case one =>
    obtain ⟨hr, hc⟩ := freeRunning_iff.mp hf
    have hov : (s.m.timer i).Overflows i false := ⟨hr, .inr ⟨hc, ht⟩⟩
    refine ⟨reloadedState i s, fun j => ?timers, reloadedState_if i s, ?rest, reloadedState_sameEntries i s, ?step⟩
    case timers =>
      rw [reloadedState_timer, Timer.reloaded, if_neg hc, period]
      simp only [eq_comm (a := i)]
    case rest => exact reloadedState_rest i s
    case step =>
      change timerStep s = _
      rw [timerStep_of_one others, stepTimer_of_overflows hov]
      split
      · rw [andThen_assoc]; exact andThen_pure _
      · rfl
  case turn =>
    intro old cascaded overflows
    refine ⟨fun hno => ?counts, fun hov => ?reloads⟩
    case counts =>
      refine ⟨_, stepTimer_of_not_overflows hno, fun j hj => ?_, fun hb => ?_, fun hb => ?_, rfl⟩
      · exact (timer_setTimer _ _ _ _).trans (if_neg (Ne.symm hj))
      · exact (timer_setTimer_same _ _ _).trans (if_pos hb)
      · exact (timer_setTimer_same _ _ _).trans (if_neg hb)
    case reloads =>
      have reloaded : (reloadedState i s).m.timer i = old.reloaded i (s.m.reload i) :=
        (reloadedState_timer i i s).trans (if_pos rfl)
      refine ⟨reloadedState i s, stepTimer_of_overflows hov, fun j hj => ?_, fun hc => ?_, fun hc => ?_,
        reloadedState_if i s, reloadedState_rest i s, reloadedState_sameEntries i s⟩
      · exact (reloadedState_timer i j s).trans (if_neg (Ne.symm hj))
      · exact reloaded.trans (if_pos hc)
      · exact reloaded.trans (if_neg hc)

end Sys2Proof.Machine
end

section
/-! SUPPORT. Register dispatch (R232 to R236): which operands belong to `W.OTHER` and `R.STORED`, and what the port
operations that belong to no other component do. -/

namespace Sys2Proof.Machine

/-! ## The operands that belong to a row (R235, R236) -/

/-- An offset check is evenness and absence from a list of other rows' offsets. -/
theorem evenOutside_iff (n : Nat) (offs : List Nat) :
    (n % 2 == 0 && !offs.contains n) = true ↔ n % 2 = 0 ∧ n ∉ offs := by
  rw [Bool.and_eq_true, beq_iff_eq, Bool.not_eq_true', ← Bool.not_eq_true, List.contains_iff_mem]

theorem otherOffset_iff_not_mem_core (a : Offset) :
    otherOffset a = true ↔ a.toNat % 2 = 0 ∧ a.toNat ∉ coreOffsets := evenOutside_iff _ _

theorem storedOffset_iff_not_mem_count (a : Offset) :
    storedOffset a = true ↔ a.toNat % 2 = 0 ∧ a.toNat ∉ countOffsets := evenOutside_iff _ _

/-! ## `W.OTHER` and `R.STORED` (R235, R236) -/

theorem exec_wOther_of_other {a : Offset} (h : otherOffset a = true) (v : Half) (s : State) :
    exec (.wOther a v) s = .next (s.onBlock fun m => m.setIo a.toNat (v &&& otherMask s.cfg a.toNat)) := by
  have even : evenOffset a = a := evenOffset_eq_self ((otherOffset_iff a).mp h).1
  change execWOther a v s = _
  rw [execWOther, if_pos h, storeOther, even]

theorem exec_wOther_of_not_other {a : Offset} (h : ¬otherOffset a = true) (v : Half) (s : State) :
    exec (.wOther a v) s = .refused .offsetOfAnotherRow := if_neg h

theorem exec_rStored_of_stored {a : Offset} (h : storedOffset a = true) (s : State) :
    exec (.rStored a) s = .next (returnValue a.toNat (s.m.getIo a.toNat) s) := if_pos h

theorem exec_rStored_of_not_stored {a : Offset} (h : ¬storedOffset a = true) (s : State) :
    exec (.rStored a) s = .refused .offsetOfAnotherRow := if_neg h

/-- Settles O19: at an operand of its own the write is one store into the entry the operand names. -/
theorem otherWriteIsStorage : Obligations.OtherWriteIsStorage := by
  intro a v s
  simp only [← otherOffset_iff_not_mem_core]
  refine ⟨fun h => ?own, fun h => exec_wOther_of_not_other h v s⟩
  case own => exact store_effect ⟨a.isLt, ((otherOffset_iff a).mp h).1⟩ (exec_wOther_of_other h v s)

/-- Settles O20: at an operand of its own the read hands out the entry, and the event is all that the state gains. -/
theorem storedReadReturnsTheEntry : Obligations.StoredReadReturnsTheEntry := fun a s =>
  ⟨fun h => exec_rStored_of_stored ((storedOffset_iff_not_mem_count a).mpr h) s,
    fun h => exec_rStored_of_not_stored (fun hs => h ((storedOffset_iff_not_mem_count a).mp hs)) s⟩

/-! ## `W.DISPSTAT`, `W.VCOUNT` and `W.WAITCNT` (R232 to R234) -/

/-- Settles O6: the write is one store. -/
theorem dispstatWriteKeepsItsFlags : Obligations.DispstatWriteKeepsItsFlags := fun _ _ =>
  store_effect (a := 0x004) ⟨by decide, rfl⟩ rfl

/-- Settles O7: the operation is the identity. -/
theorem vcountWriteChangesNothing : Obligations.VcountWriteChangesNothing := fun _ _ => rfl

/-- Settles O18: one store, and the tables are those of the value it leaves in the entry. -/
theorem waitcntWriteDecodesTheTables : Obligations.WaitcntWriteDecodesTheTables := by
  intro v s
  have stored : (s.m.setIo 0x204 (v &&& 0x5FFF)).getIo 0x204 = v &&& 0x5FFF := getIo_setIo_same _ _ _
  refine ⟨_, rfl, stored, ?tables, rfl, sameEntries_setIo (a := 0x204) (by decide) rfl _ s, fun _ => rfl⟩
  case tables => exact congrArg (waitDecode s.cfg.waitDecoder) stored

end Sys2Proof.Machine
end

section
/-! SUPPORT. The position in the frame (R266): it moves by the cycles a run accounts, and under the invariant (R47) it fixes
VCOUNT and the blanking flags. -/

namespace Sys2Proof.Machine

/-- Settles O44: a run is a span of elapsed time, and says at its end how it ended. -/
theorem runMovesTheFrameByItsCycles : Obligations.RunMovesTheFrameByItsCycles := by
  intro budget s t hs h
  obtain ⟨n, u, r, elapsed, rfl⟩ := runLoop_elapsed hs h
  have counter : u.m.cycleCounter = s.m.cycleCounter + n := elapsed.cycleCounter
  refine ⟨counter ▸ Nat.le_add_right _ _, ?_⟩
  rw [counter, Nat.add_sub_cancel_left]
  exact elapsed.frame

/-! ## Line and position within the line -/

/-- The position within the line: cycles since its first one. -/
def linePos (v : Video) : Nat := (if v.mode = .hblank then DRAW_CYCLES else 0) + v.cim

theorem framePos_eq (v : Video) : framePos v = LINE_CYCLES * v.scanline + linePos v := Nat.add_assoc _ _ _

section position
variable {cfg : Config} {m : Block} (h : m.Inv cfg)
include h

theorem linePos_lt : linePos m.video < LINE_CYCLES := by
  have hc := h.cim
  unfold linePos
  cases hm : m.video.mode <;> rw [hm] at hc <;>
    simp only [modeLen, LINE_CYCLES, DRAW_CYCLES, HBLANK_CYCLES, reduceCtorEq, ite_true, ite_false] at hc ⊢ <;> omega

theorem framePos_div_line : framePos m.video / LINE_CYCLES = m.video.scanline := by
  rw [framePos_eq, Nat.mul_add_div (by decide), Nat.div_eq_of_lt (linePos_lt h), Nat.add_zero]

theorem framePos_mod_line : framePos m.video % LINE_CYCLES = linePos m.video := by
  rw [framePos_eq, Nat.mul_add_mod, Nat.mod_eq_of_lt (linePos_lt h)]

/-- The vblank lines are the positions from the first cycle of line 160 on. -/
theorem vblank_iff_framePos : m.video.mode = .vblank ↔ VBLANK_FIRST * LINE_CYCLES ≤ framePos m.video := by
  rw [h.mode, ← Nat.le_div_iff_mul_le (by decide), framePos_div_line h]

/-- Outside vblank a line is drawn for 960 cycles, and the rest of it is its hblank. -/
theorem hblank_iff_linePos : m.video.mode = .hblank ↔ m.video.mode ≠ .vblank ∧ DRAW_CYCLES ≤ linePos m.video := by
  have hc := h.cim
  unfold linePos
  cases hm : m.video.mode with
  | drawing => rw [hm] at hc; simpa [modeLen] using hc
  | hblank => simp
  | vblank => simp

end position

/-- Settles O45: the flags follow the line and the mode, and those are the position's quotient and remainder by a line. -/
theorem frameFlagsFollowThePosition : Obligations.FrameFlagsFollowThePosition := by
  intro cfg m h
  have vblank : m.video.mode = .vblank ↔ 197120 ≤ framePos m.video := vblank_iff_framePos h
  refine ⟨framePos_lt h, ?vcount, h.vbl.trans vblank, ?hbl⟩
  case vcount => rw [framePos_div_line h, h.vcount]
  case hbl => rw [h.hbl, hblank_iff_linePos h, framePos_mod_line h, Ne, vblank, Nat.not_le]

end Sys2Proof.Machine
end

section
/-! SUPPORT. The video events (R261 to R264). The two line ends are one operation, `Block.enterLine`: a next video state and
value of DISPSTAT, VCOUNT, and the compare. Before its trigger an event changes the video state and status entries alone. -/

namespace Sys2Proof.Machine

/-! ## Register entries -/

theorem setIo_setIo (m : Block) (a : Nat) (v w : Half) : (m.setIo a v).setIo a w = m.setIo a w := by
  simp [Block.setIo]

/-- Stores into two entries commute. -/
theorem setIo_comm (m : Block) {a b : Nat} (h : slot a ≠ slot b) (v w : Half) :
    (m.setIo a v).setIo b w = (m.setIo b w).setIo a v := by
  simp only [Block.setIo, Block.mk.injEq, and_true]
  exact Vector.set_comm _ _ fun e => h (Fin.ext e)

@[simp] theorem setIo_getIo_self (m : Block) (a : Nat) : m.setIo a (m.getIo a) = m := by
  simp [Block.setIo, Block.getIo]

/-! ## Flags of DISPSTAT and IF -/

theorem and_not_or_self {n : Nat} (x b : BitVec n) : (x &&& ~~~b) ||| b = x ||| b := by
  ext i hi
  simp only [BitVec.getElem_or, BitVec.getElem_and, BitVec.getElem_not]
  cases x[i] <;> cases b[i] <;> rfl

/-- VCOUNT's setting, bits 8 to 15 of DISPSTAT, is among its control bits. -/
theorem setting_of_controls {x y : Half} (h : y &&& 0xFFF8 = x &&& 0xFFF8) : y.extractLsb' 8 8 = x.extractLsb' 8 8 := by
  have all : (0xFFF8 : Half).extractLsb' 8 8 = BitVec.allOnes 8 := by decide
  have := congrArg (BitVec.extractLsb' 8 8) h
  rwa [BitVec.extractLsb'_and, BitVec.extractLsb'_and, all, BitVec.and_allOnes, BitVec.and_allOnes] at this

/-- So are the interrupt enables. -/
theorem enable_of_controls {x y : Half} (h : y &&& 0xFFF8 = x &&& 0xFFF8) {k : Nat}
    (hk : (0xFFF8 : Half).getLsbD k = true) : y.getLsbD k = x.getLsbD k := by
  have := congrArg (fun z : Half => z.getLsbD k) h
  simpa only [BitVec.getLsbD_and, hk, Bool.and_true] using this

theorem raiseIfGated_if (m : Block) (gate : Bool) (b : Nat) :
    (m.raiseIfGated gate b).getIo 0x202 = m.getIo 0x202 ||| (if gate = true then (1 : Half) <<< b else 0) := by
  cases gate
  · exact BitVec.or_zero.symm
  · exact getIo_setIo_same _ _ _

theorem raiseIfGated_rest (m : Block) (gate : Bool) (b : Nat) :
    m.raiseIfGated gate b = { m with io := (m.raiseIfGated gate b).io } := by cases gate <;> rfl

/-! ## The compare (R264) -/

theorem vcountCompare_dispstat (m : Block) : m.vcountCompare.getIo 0x004 =
    (let d := m.getIo 0x004 &&& 0xFFFB
     if m.video.scanline = ((m.getIo 0x004).extractLsb' 8 8).toNat then d ||| 0x0004 else d) := by
  simp only [← field_eq_extract]
  rcases vcountCompare_cases m with ⟨hm, e⟩ | ⟨hm, e⟩
  · rw [if_pos hm, e, raiseIfGated_getIo_ne _ _ _ (by decide), setDispstat_getIo, if_pos rfl]
    exact (and_not_or_self _ _).symm
  · rw [if_neg hm, e, clearDispstat_getIo, if_pos rfl]; rfl

theorem vcountCompare_if (m : Block) : m.vcountCompare.getIo 0x202 = m.getIo 0x202 |||
    (if m.video.scanline = ((m.getIo 0x004).extractLsb' 8 8).toNat ∧ (m.getIo 0x004).getLsbD 5 = true
      then 0x0004 else 0) := by
  simp only [← field_eq_extract]
  rcases vcountCompare_cases m with ⟨hm, e⟩ | ⟨hm, e⟩
  · rw [e, raiseIfGated_if, setDispstat_getIo, if_neg (by decide)]
    simp only [hm, true_and]
    rfl
  · rw [e, if_neg fun h => hm h.1, clearDispstat_getIo, if_neg (by decide)]
    exact BitVec.or_zero.symm

theorem vcountCompare_rest (m : Block) : m.vcountCompare = { m with io := m.vcountCompare.io } := by
  rcases vcountCompare_cases m with ⟨-, e⟩ | ⟨-, e⟩ <;> rw [e]
  · exact raiseIfGated_rest (m.setDispstat 0x0004) _ _
  · rfl

/-! ## VCOUNT beside DISPSTAT -/

theorem setVcount_setIo_dispstat (m : Block) (d : Half) : (m.setIo 0x004 d).setVcount.getIo 0x004 = d := by
  rw [setVcount_getIo, if_neg (by decide), getIo_setIo_same]

/-- Flags set after VCOUNT is rewritten may as well be set before. -/
theorem setDispstat_setVcount (m : Block) (d bits : Half) :
    (m.setIo 0x004 d).setVcount.setDispstat bits = (m.setIo 0x004 (d ||| bits)).setVcount := by
  rw [Block.setDispstat, setVcount_setIo_dispstat, Block.setVcount, setIo_comm _ (by decide), setIo_setIo]; rfl

theorem setDispstat_zero (m : Block) : m.setDispstat 0 = m := by simp [Block.setDispstat]

/-! ## Entering a line (R262, R263) -/

/-- A line begins: the video state, DISPSTAT as it stands before the compare, VCOUNT, and the compare. -/
def Block.enterLine (m : Block) (v : Video) (d : Half) : Block :=
  (({ m with video := v } : Block).setIo 0x004 d).setVcount.vcountCompare

section enterLine
variable (m : Block) (v : Video) (d : Half)

@[simp] theorem enterLine_video : (m.enterLine v d).video = v := vcountCompare_video _

theorem enterLine_vcount : (m.enterLine v d).getIo 0x006 = BitVec.ofNat 16 v.scanline := by
  rw [Block.enterLine, vcountCompare_vcount, setVcount_getIo, if_pos rfl]; rfl

theorem enterLine_rest : m.enterLine v d = { m with io := (m.enterLine v d).io, video := v } :=
  vcountCompare_rest (({ m with video := v } : Block).setIo 0x004 d).setVcount

variable {d} (hd : d &&& 0xFFF8 = m.getIo 0x004 &&& 0xFFF8)
include hd

theorem enterLine_dispstat : (m.enterLine v d).getIo 0x004 =
    if v.scanline = ((m.getIo 0x004).extractLsb' 8 8).toNat then (d &&& 0xFFFB) ||| 0x0004 else d &&& 0xFFFB := by
  rw [Block.enterLine, vcountCompare_dispstat, setVcount_setIo_dispstat, setting_of_controls hd]; rfl

theorem enterLine_if : (m.enterLine v d).getIo 0x202 = m.getIo 0x202 |||
    (if v.scanline = ((m.getIo 0x004).extractLsb' 8 8).toNat ∧ (m.getIo 0x004).getLsbD 5 = true then 0x0004 else 0) := by
  rw [Block.enterLine, vcountCompare_if, setVcount_setIo_dispstat, setting_of_controls hd,
    enable_of_controls hd (by decide), setVcount_getIo, if_neg (by decide), getIo_setIo_ne _ _ (by decide)]; rfl

theorem enterLine_controls : (m.enterLine v d).getIo 0x004 &&& 0xFFF8 = m.getIo 0x004 &&& 0xFFF8 := by
  rw [enterLine_dispstat m v hd, ← hd]
  split
  · rw [BitVec.and_or_distrib_right, BitVec.and_assoc]; exact BitVec.or_zero
  · rw [BitVec.and_assoc]; rfl

end enterLine

theorem Quiet.enterLine (s : State) (v : Video) {d : Half} (hd : d &&& 0xFFF8 = s.m.getIo 0x004 &&& 0xFFF8) :
    Quiet s (s.onBlock fun m => m.enterLine v d) :=
  (((Quiet.video s fun _ => v).trans (Quiet.status _ (.inl rfl) d fun _ => hd)).trans (Quiet.setVcount _)).trans
    (Quiet.vcountCompare _)

/-! ## The trigger after an event (R174) -/

theorem Quiet.dmaControl {s t : State} (h : Quiet s t) (c : Fin 4) : t.m.dmaControl c = s.m.dmaControl c := by
  obtain ⟨hlt, heven⟩ := dmaBase_entry c (k := 10) (by decide) rfl
  exact h.entries (dmaBase c + 10) hlt heven (by revert c; decide)

/-- Where no channel was armed for the reason before an event, its trigger serves none. -/
theorem Quiet.trigger_completes {s t : State} (h : Quiet s t) {reason : BitVec 2} (mask : BitVec 4)
    (hn : ∀ c, ¬((s.m.dmaControl c).getLsbD 15 = true ∧ (s.m.dmaControl c).extractLsb' 12 2 = reason)) :
    checkAndTrigger reason mask t = .next t :=
  checkAndTrigger_of_none fun c => Bool.eq_false_iff.mpr fun ht =>
    hn c (h.dmaControl c ▸ ((triggered_iff _ _ _ _).mp ht).2)

/-! ## `EV.HBLANK_START` (R261) -/

theorem enterHblank_eq (m : Block) : m.enterHblank =
    (({ m with video := ⟨m.video.scanline, .hblank, 0⟩ } : Block).setDispstat 0x0002).raiseIfGated
      ((m.getIo 0x004).getLsbD 4) 1 := by
  unfold Block.enterHblank
  simp only
  rw [setDispstat_getIo, if_pos rfl, BitVec.getLsbD_or, show (0x0002 : Half).getLsbD 4 = false by decide, Bool.or_false]
  rfl

theorem enterHblank_video (m : Block) : m.enterHblank.video = ⟨m.video.scanline, .hblank, 0⟩ := raiseIfGated_video _ _ _

theorem enterHblank_if (m : Block) : m.enterHblank.getIo 0x202 =
    if (m.getIo 0x004).getLsbD 4 = true then m.getIo 0x202 ||| 0x0002 else m.getIo 0x202 := by
  rw [enterHblank_eq, raiseIfGated_if, setDispstat_getIo, if_neg (by decide)]
  split
  · rfl
  · exact BitVec.or_zero

theorem enterHblank_rest (m : Block) :
    m.enterHblank = { m with io := m.enterHblank.io, video := m.enterHblank.video } := by
  rw [enterHblank_video]
  exact raiseIfGated_rest _ _ _

theorem enterHblank_getIo_ne (m : Block) {a : Nat} (h4 : slot 0x004 ≠ slot a) (h2 : slot 0x202 ≠ slot a) :
    m.enterHblank.getIo a = m.getIo a := by
  rw [enterHblank_eq, raiseIfGated_getIo_ne _ _ _ h2, setDispstat_getIo, if_neg h4]; rfl

/-- The state after the line is rendered and hblank is entered, before the trigger. -/
def hblankStarted (s : State) : State := (requestRender s).onBlock Block.enterHblank

theorem Quiet.hblankStarted (s : State) : Quiet s (hblankStarted s) :=
  (Quiet.ofEq (s := s) (t := requestRender s) rfl rfl rfl rfl rfl).trans (Quiet.enterHblank _)

/-- Settles O41: the event is its trigger from `hblankStarted`. -/
theorem hblankStartRendersFlagsAndTriggers : Obligations.HblankStartRendersFlagsAndTriggers := by
  intro s
  refine ⟨hblankStarted s, enterHblank_video s.m, enterHblank_dispstat s.m, enterHblank_if s.m, rfl, ?rest, ?entries,
    fun _ => rfl, rfl, (Quiet.hblankStarted s).trigger_completes 0xF⟩
  case rest => exact congrArg (fun m => { requestRender s with m := m }) (enterHblank_rest s.m)
  case entries =>
    intro a ha he hn
    simp only [List.mem_cons, List.not_mem_nil, or_false, not_or] at hn
    exact enterHblank_getIo_ne s.m (slot_ne_of_ne (by decide) ha (by decide) he (Ne.symm hn.1))
      (slot_ne_of_ne (by decide) ha (by decide) he (Ne.symm hn.2))

/-! ## `EV.LINE_END` (R262) -/

/-- The video state on the next line. -/
def nextLine (v : Video) : Video :=
  ⟨v.scanline + 1, if v.scanline + 1 = VBLANK_FIRST then .vblank else .drawing, 0⟩

/-- DISPSTAT on the next line before the compare: out of hblank, and on the first line of vblank in that. -/
def nextLineStatus (m : Block) : Half :=
  (m.getIo 0x004 &&& ~~~0x0002) ||| (if m.video.scanline + 1 = VBLANK_FIRST then 0x0001 else 0)

theorem nextLineStatus_controls (m : Block) : nextLineStatus m &&& 0xFFF8 = m.getIo 0x004 &&& 0xFFF8 := by
  rw [nextLineStatus, BitVec.and_or_distrib_right, BitVec.and_assoc]
  split <;> exact BitVec.or_zero

/-- `endLine`, a mode, flags and the compare enter the next line. -/
theorem endLine_enterLine (m : Block) (mode : Mode) (bits : Half) :
    (({ m.endLine with video := { m.endLine.video with mode := mode } } : Block).setDispstat bits).vcountCompare =
      m.enterLine ⟨m.video.scanline + 1, mode, 0⟩ ((m.getIo 0x004 &&& ~~~0x0002) ||| bits) :=
  congrArg Block.vcountCompare
    (setDispstat_setVcount { m with video := ⟨m.video.scanline + 1, mode, 0⟩ } (m.getIo 0x004 &&& ~~~0x0002) bits)

theorem lineEnd_of_vblank {m : Block} (h : m.video.scanline + 1 = VBLANK_FIRST) : m.lineEnd = m.endLine.enterVblank :=
  if_pos h

theorem lineEnd_of_drawing {m : Block} (h : m.video.scanline + 1 ≠ VBLANK_FIRST) : m.lineEnd = m.endLine.enterDrawing :=
  if_neg h

/-- A line's end enters the next line, and on the first of vblank raises the flag its enable asks for. -/
theorem lineEnd_eq (m : Block) : m.lineEnd = (m.enterLine (nextLine m.video) (nextLineStatus m)).raiseIfGated
    (decide (m.video.scanline + 1 = VBLANK_FIRST) && (m.getIo 0x004).getLsbD 3) 0 := by
  have enable := enable_of_controls (enterLine_controls m (nextLine m.video) (nextLineStatus_controls m)) (k := 3)
    (by decide)
  unfold nextLine nextLineStatus at *
  by_cases hv : m.video.scanline + 1 = VBLANK_FIRST
  · simp only [if_pos hv, decide_eq_true hv, Bool.true_and] at enable ⊢
    rw [lineEnd_of_vblank hv, ← enable, ← endLine_enterLine]; rfl
  · simp only [if_neg hv, decide_eq_false hv, Bool.false_and]
    rw [lineEnd_of_drawing hv, ← endLine_enterLine, setDispstat_zero]; rfl

theorem lineEnd_vcount (m : Block) : m.lineEnd.getIo 0x006 = BitVec.ofNat 16 (m.video.scanline + 1) := by
  rw [lineEnd_eq, raiseIfGated_getIo_ne _ _ _ (by decide), enterLine_vcount]; rfl

theorem lineEnd_dispstat (m : Block) : m.lineEnd.getIo 0x004 =
    (let d := (m.getIo 0x004 &&& 0xFFF8) ||| (m.getIo 0x004 &&& 0x0001) |||
      (if m.video.scanline + 1 = VBLANK_FIRST then 0x0001 else 0)
     if m.video.scanline + 1 = ((m.getIo 0x004).extractLsb' 8 8).toNat then d ||| 0x0004 else d) := by
  have kept : nextLineStatus m &&& 0xFFFB = (m.getIo 0x004 &&& 0xFFF8) ||| (m.getIo 0x004 &&& 0x0001) |||
      (if m.video.scanline + 1 = VBLANK_FIRST then 0x0001 else 0) := by
    rw [nextLineStatus, BitVec.and_or_distrib_right, BitVec.and_assoc, ← BitVec.and_or_distrib_left]
    split <;> rfl
  rw [lineEnd_eq, raiseIfGated_getIo_ne _ _ _ (by decide), enterLine_dispstat _ _ (nextLineStatus_controls m), kept]; rfl

theorem lineEnd_if (m : Block) : m.lineEnd.getIo 0x202 = m.getIo 0x202 |||
    (if m.video.scanline + 1 = ((m.getIo 0x004).extractLsb' 8 8).toNat ∧ (m.getIo 0x004).getLsbD 5 = true
      then 0x0004 else 0) |||
    (if m.video.scanline + 1 = VBLANK_FIRST ∧ (m.getIo 0x004).getLsbD 3 = true then 0x0001 else 0) := by
  rw [lineEnd_eq, raiseIfGated_if, enterLine_if _ _ (nextLineStatus_controls m)]
  simp only [Bool.and_eq_true, decide_eq_true_eq]
  rfl

theorem lineEnd_nextLine (m : Block) : m.lineEnd.video = nextLine m.video := by
  rw [lineEnd_eq, raiseIfGated_video, enterLine_video]

theorem lineEnd_io_video (m : Block) : m.lineEnd = { m with io := m.lineEnd.io, video := m.lineEnd.video } := by
  rw [lineEnd_nextLine, lineEnd_eq]
  exact (raiseIfGated_rest _ _ _).trans (by rw [enterLine_rest])

theorem Quiet.lineEnd (s : State) : Quiet s (s.onBlock Block.lineEnd) := by
  have steps := (Quiet.enterLine s (nextLine s.m.video) (nextLineStatus_controls s.m)).trans
    (Quiet.raiseIfGated _ (decide (s.m.video.scanline + 1 = VBLANK_FIRST) && (s.m.getIo 0x004).getLsbD 3) 0)
  rw [State.onBlock, lineEnd_eq]
  exact steps

theorem exec_evLineEnd (s : State) : exec .evLineEnd s = if s.m.video.scanline + 1 = VBLANK_FIRST
    then exec (.evDmaTrigger 1 0xF) (s.onBlock Block.lineEnd) else .next (s.onBlock Block.lineEnd) := by
  rw [State.onBlock]
  by_cases hv : s.m.video.scanline + 1 = VBLANK_FIRST
  · rw [lineEnd_of_vblank hv, if_pos hv]; exact if_pos hv
  · rw [lineEnd_of_drawing hv, if_neg hv]; exact if_neg hv

/-- Settles O42: the event is `lineEnd` of `M`, and on the first vblank line the trigger. -/
theorem lineEndEntersTheNextLine : Obligations.LineEndEntersTheNextLine := by
  intro s
  have q := Quiet.lineEnd s
  refine ⟨s.onBlock Block.lineEnd, lineEnd_nextLine s.m, lineEnd_vcount s.m, lineEnd_dispstat s.m, lineEnd_if s.m,
    congrArg (fun m => { s with m := m }) (lineEnd_io_video s.m), q.entries, fun _ => rfl, exec_evLineEnd s, fun hn => ?_⟩
  rw [exec_evLineEnd]
  split
  · exact q.trigger_completes 0xF hn
  · rfl

/-! ## `EV.VBLANK_LINE_END` (R263) -/

/-- The video state on the next vblank line, or on line 0. -/
def nextVblankLine (v : Video) : Video :=
  if v.scanline = VBLANK_LAST then ⟨0, .drawing, 0⟩ else ⟨v.scanline + 1, v.mode, 0⟩

/-- DISPSTAT on that line before the compare. -/
def nextVblankStatus (m : Block) : Half :=
  if m.video.scanline = VBLANK_LAST then m.getIo 0x004 &&& 0xFFFE else m.getIo 0x004

theorem nextVblankStatus_controls (m : Block) : nextVblankStatus m &&& 0xFFF8 = m.getIo 0x004 &&& 0xFFF8 := by
  unfold nextVblankStatus
  split
  · exact BitVec.and_assoc _ _ _
  · rfl

theorem endVblankLine_eq (m : Block) : m.endVblankLine = m.enterLine (nextVblankLine m.video) (nextVblankStatus m) := by
  unfold Block.endVblankLine nextVblankLine nextVblankStatus Block.enterLine
  by_cases hl : m.video.scanline = VBLANK_LAST
  · simp only [if_pos hl]; rfl
  · simp only [if_neg hl]
    exact congrArg (fun b : Block => b.setVcount.vcountCompare)
      (setIo_getIo_self { m with video := ⟨m.video.scanline + 1, m.video.mode, 0⟩ } 0x004).symm

/-- Settles O43: the event enters the next vblank line, or line 0. -/
theorem vblankLineEndEntersTheNextLine : Obligations.VblankLineEndEntersTheNextLine := by
  intro s
  have controls := nextVblankStatus_controls s.m
  have video : (s.m.enterLine (nextVblankLine s.m.video) (nextVblankStatus s.m)).video = nextVblankLine s.m.video :=
    enterLine_video _ _ _
  refine ⟨s.onBlock Block.endVblankLine, rfl, ?_⟩
  rw [State.onBlock, endVblankLine_eq]
  simp only [video]
  refine ⟨rfl, enterLine_vcount _ _ _, enterLine_dispstat _ _ controls, enterLine_if _ _ controls, ?rest,
    (Quiet.enterLine s _ controls).entries, fun _ => rfl⟩
  case rest => exact congrArg (fun m => { s with m := m }) (enterLine_rest _ _ _)

end Sys2Proof.Machine
end

section
/-! SUPPORT. One step by what waits (R302, R72), and the two savestate operations: `LOAD` by its three outcomes (R301), and
the round trip with `SAVE` (R300). -/

namespace Sys2Proof.Machine

/-! ## One step (R302, R72; log entry 6) -/

theorem step_of_queue_nil {s : State} (hq : s.queue = []) : step s = .next s := by
  simp only [step, hq]

theorem step_of_decode_ok {s : State} {w : Nat} {rest : List Nat} {i : Instr} (hq : s.queue = w :: rest)
    (hw : decode w = .ok i) : step s = exec i { s with queue := rest } := by
  simp only [step, hq, hw]

theorem step_of_decode_error {s : State} {w : Nat} {rest : List Nat} {why : Reject} (hq : s.queue = w :: rest)
    (hw : decode w = .error why) : step s = .refused (.undecodable why) := by
  simp only [step, hq, hw]

/-- Settles O5: `step` by whether a command waits and whether it decodes. -/
theorem stepRunsTheDecodedOperation : Obligations.StepRunsTheDecodedOperation := fun _ =>
  ⟨step_of_queue_nil, fun _ _ hq => ⟨fun _ => step_of_decode_ok hq, fun _ => step_of_decode_error hq⟩⟩

/-! ## `LOAD` by its outcome (R301, R281, R283) -/

/-- `M` as a `LOAD` leaves it: the savestate's own, with the wait tables decoded anew from its WAITCNT (R301). -/
def State.loadedBlock (s : State) : Block :=
  { s.file.m with wt := waitDecode s.cfg.waitDecoder (s.file.m.getIo 0x204) }

theorem exec_load_of_newer {s : State} (hv : SUPPORTED_VERSION < s.file.version) :
    exec .load s = .next { s with result := .loadVersionMismatch } :=
  if_pos hv

theorem exec_load_of_otherCartridge {s : State} (hv : s.file.version ≤ SUPPORTED_VERSION)
    (hc : s.file.cartId ≠ s.cartId) : exec .load s = .next { s with result := .loadCartridgeMismatch } :=
  (if_neg hv.not_gt).trans (if_pos hc)

theorem exec_load_of_accepted {s : State} (hv : s.file.version ≤ SUPPORTED_VERSION) (hc : s.file.cartId = s.cartId) :
    exec .load s = .next { s with m := s.loadedBlock, mem := s.file.mem, result := .loaded } :=
  (if_neg hv.not_gt).trans (if_neg (not_not_intro hc))

/-- Settles O60: one clause for each outcome of `LOAD`. -/
theorem loadIsAllOrNothing : Obligations.LoadIsAllOrNothing := fun _ =>
  ⟨exec_load_of_newer, fun ⟨hv, hc⟩ => exec_load_of_otherCartridge hv hc,
    fun ⟨hv, hc⟩ => ⟨_, exec_load_of_accepted hv hc, rfl, rfl, rfl⟩⟩

/-! ## The round trip (R300, R301) -/

/-- A savestate whose wait tables are those of its WAITCNT is restored as it stands. -/
theorem loadedBlock_of_wt {s : State} (h : s.file.m.wt = waitDecode s.cfg.waitDecoder (s.file.m.getIo 0x204)) :
    s.loadedBlock = s.file.m := by
  rw [State.loadedBlock, ← h]

/-- Settles O59: `LOAD` accepts what `SAVE` returned, and the tables it decodes anew are those that were saved. -/
theorem loadOfSaveRestoresTheState : Obligations.LoadOfSaveRestoresTheState := by
  intro s hwt
  refine ⟨rfl, fun u hcfg hfile hcart => ?_⟩
  have version : u.file.version ≤ SUPPORTED_VERSION := by rw [hfile]
  have cartridge : u.file.cartId = u.cartId := by rw [hfile, hcart]
  have block : u.loadedBlock = u.file.m := loadedBlock_of_wt (by rw [hfile, hcfg]; exact hwt)
  rw [exec_load_of_accepted version cartridge, block, hfile]

end Sys2Proof.Machine
end

section
/-! SUPPORT. A pending latch over an accounted span without DMA (R323, R155): sub-steps that end before its countdown lower
it, and the one that ends with it delivers. -/

namespace Sys2Proof.Machine

/-- What `k` cycles do to a latch that delivers at their end: the one delivery is recorded at that cycle, and the CPU is
vectored. -/
structure Delivery (k : Nat) (s t : State) : Prop where
  latch : t.m.latch = .delivered
  log : t.irqLog = s.irqLog ++ [s.m.cycleCounter + k]
  cpu : t.cpu = s.cpu.vector

/-- Cycles before the span of a delivery that leave the CPU and the record alone. -/
theorem Delivery.after {a b : Nat} {s u t : State} (h : Delivery b u t) (hcc : u.m.cycleCounter = s.m.cycleCounter + a)
    (hcpu : u.cpu = s.cpu) (hlog : u.irqLog = s.irqLog) : Delivery (a + b) s t where
  latch := h.latch
  log := by rw [h.log, hcc, hlog, Nat.add_assoc]
  cpu := by rw [h.cpu, hcpu]

theorem accountLoop_zero (src : Source) (fuel : Nat) (s : State) : accountLoop src fuel 0 s = .next s := by
  cases fuel <;> rfl

/-- Without DMA the cycles left of a pending latch deliver it, where the condition holds. -/
theorem accountLoop_delivers {src : Source} {fuel k : Nat} {s t : State} (hs : s.m.Inv s.cfg) (ha : s.m.noneArmed)
    (hl : s.m.latch = .pending k) (hd : s.m.deliverable s.cpu.irqEnabled = true)
    (h : accountLoop src fuel k s = .next t) : Delivery k s t := by
  induction fuel generalizing k s with
  | zero =>
    obtain ⟨r, rfl⟩ := Nat.exists_eq_add_of_le' (hs.latch k hl).1
    cases h
  | succ fuel ih =>
    obtain ⟨r, rfl⟩ := Nat.exists_eq_add_of_le' (hs.latch k hl).1
    obtain ⟨within, hle⟩ := capped_spec s.m (r + 1)
    obtain ⟨u, hu, elapsed, quiet, -, atEnd, before, -⟩ := subStep_quiet (src := src) hs ha within
    simp only [accountLoop] at h
    split at h
    · cases h
    rw [hu, andThen_next] at h
    rcases Nat.eq_or_lt_of_le hle with last | more
    · rw [last, Nat.sub_self, accountLoop_zero] at h
      injection h with h
      subst h
      obtain ⟨latch, cpu, log⟩ := atEnd (by rw [last, hl]) hd
      exact ⟨latch, by rw [log, last], cpu⟩
    · obtain ⟨j, hj⟩ : ∃ j, r + 1 - s.m.capped (r + 1) = j + 1 := Nat.exists_eq_add_of_le' (Nat.sub_pos_of_lt more)
      obtain ⟨latch, cpu, log⟩ := before j (by rw [hl, ← hj, Nat.sub_add_cancel hle])
      rw [hj] at h
      have rest := ih elapsed.inv (quiet.noneArmed ha) latch (by rw [cpu]; exact quiet.deliverable hd) h
      have span := rest.after elapsed.cycleCounter cpu log
      rwa [← hj, Nat.add_sub_cancel' hle] at span

/-- Settles O25: the condition stays true, so the sub-step that ends the countdown delivers. -/
theorem latchDeliversAfterItsCycles : Obligations.LatchDeliversAfterItsCycles := by
  intro s k src hs ha hl hd
  obtain ⟨t, ht, elapsed, quiet, -⟩ := account_quiet (src := src) (n := k) hs ha
  have delivery : Delivery k s t := accountLoop_delivers hs ha hl hd ht
  have entry : ∀ a ∈ [0x200, 0x208], t.m.getIo a = s.m.getIo a := fun a h =>
    have ⟨lt, even, other⟩ : a < 0x400 ∧ a % 2 = 0 ∧ a ∉ [0x004, 0x006, 0x202] := by revert a; decide
    quiet.entries a lt even other
  exact ⟨t, ht, delivery.latch, elapsed.cycleCounter, delivery.log, delivery.cpu, entry _ (by decide), entry _ (by decide),
    quiet.flags⟩

end Sys2Proof.Machine
end

section
/-! SUPPORT. `RESET` (R320): it completes in every state, and every piece of `M` has its reset value (R48). -/

namespace Sys2Proof.Machine

@[simp] theorem reset_cursor (cfg : Config) (c : Fin 4) : (Block.reset cfg).cursor c = ⟨0, 0⟩ := by
  simp [Block.cursor, Block.reset]

theorem exec_reset (s : State) : exec .reset s = .next { s with m := Block.reset s.cfg } := rfl

/-- Settles O58, piece by piece of `M`. -/
theorem resetClearsTheWholeBlock : Obligations.ResetClearsTheWholeBlock := fun s =>
  ⟨_, exec_reset s, fun a _ _ => reset_getIo s.cfg a, reset_timer s.cfg, reset_cursor s.cfg, rfl, rfl, rfl, rfl, rfl, rfl,
    fun _ => rfl⟩

end Sys2Proof.Machine
end
